-- ==== Sys2Proof/Word.lean ====
section
/-! DEFINITION. The word types of the block and the bounds of its signed 64-bit range
(00_scope.md R7, R12). -/

namespace Sys2Proof

/-- An operand, the adder result or the running sum: 64 bits (00_scope.md R7). -/
abbrev Word := BitVec 64

/-- One byte of the input stream (20_memory.md R51). -/
abbrev Byte := BitVec 8

/-- INT64_MIN = -2^63 (00_scope.md R7). -/
abbrev int64Min : Int := -(2 ^ 63)

/-- INT64_MAX = 2^63 - 1 (00_scope.md R7). -/
abbrev int64Max : Int := 2 ^ 63 - 1

/-- An integer lies in the signed 64-bit range, INT64_MIN to INT64_MAX (00_scope.md R7). -/
abbrev InInt64 (n : Int) : Prop := int64Min ≤ n ∧ n ≤ int64Max

end Sys2Proof
end

