-- ==== Sys2Proof/Config.lean ====
section
/-! DEFINITION. The parameters fixed when the block is built (00_scope.md R8 to R10), and the free
values: constants without a body that stand for what the spec does not state. -/

namespace Sys2Proof

/-- The parameters N_ITER and N_ATTEMPTS with the defaults of 00_scope.md R8 and R9. No other
parameter exists (R11). -/
structure Params where
  /-- N_ITER, the number of iterations of a session (R8). -/
  nIter : Nat := 3
  /-- N_ATTEMPTS, the attempt budget of each slot (R9). -/
  nAttempts : Nat := 3
deriving DecidableEq, Repr

/-- max(1, ⌈log2(n + 1)⌉), the smallest width that holds `n` (00_scope.md R10): for n ≥ 1,
⌈log2(n + 1)⌉ is the position of the highest bit of n, plus one. -/
def regWidth (n : Nat) : Nat :=
  if n = 0 then 1 else Nat.log2 n + 1

/-- W_ITER (00_scope.md R10). -/
def Params.wIter (c : Params) : Nat := regWidth c.nIter

/-- W_BUD (00_scope.md R10). -/
def Params.wBud (c : Params) : Nat := regWidth c.nAttempts

/-- FREE VALUE (log 11). What decrementing a counter register of the given width leaves when the
register holds 0. The spec states no result: "iter >= 1 here", "budget >= 1 here"
(42_retry_fsm.md R144, R149). -/
opaque Config.decrementOfZero : (width : Nat) → BitVec width

/-- FREE VALUE (log 22). enc64 of an integer outside the signed 64-bit range, which 00_scope.md R12
leaves without a value. -/
opaque Config.enc64OutOfRange : Int → Word

/-- FREE VALUE (log 13). zext_64 of an iteration count of more than 64 bits, for which 00_scope.md
R12 states no value. -/
opaque Config.zext64TooWide : Nat → Word

/-- FREE VALUE (log 14). ev_code while ev_valid = 0: "A model treats them as any value"
(20_memory.md R56). The argument lists all registers, since R56 makes it a function of them. -/
opaque Config.idleEvCode : List Nat → BitVec 3

/-- FREE VALUE (log 14). ev_data while ev_valid = 0 (20_memory.md R56), as `idleEvCode`. -/
opaque Config.idleEvData : List Nat → Word

end Sys2Proof
end

