-- ==== Sys2Proof/Syntax.lean ====
section
/-! DEFINITION. The instructions: one constructor per row of spec/opcode_table.json, and the beats
and events that the rows' words carry (30_encoding.md R70). -/

namespace Sys2Proof

/-- A beat of the input stream: a byte or EOF (00_scope.md R14, 30_encoding.md R71). -/
inductive Beat where
  | byte (b : Byte)
  | eof
deriving DecidableEq, Repr

/-- The event codes of 30_encoding.md R74. Code 7 is reserved and never emitted (R78). -/
inductive EventCode where
  | attempt | prompt | verrNotice | overflow | skipNotice | runningSum | finalSum | reserved
deriving DecidableEq, Repr

/-- ev_code's value for each event (30_encoding.md R74). -/
def EventCode.toBits : EventCode → BitVec 3
  | .attempt => 0
  | .prompt => 1
  | .verrNotice => 2
  | .overflow => 3
  | .skipNotice => 4
  | .runningSum => 5
  | .finalSum => 6
  | .reserved => 7

/-- An event of the output stream: a 3-bit code and 64 bits of data (00_scope.md R14,
20_memory.md R60). -/
structure Event where
  code : EventCode
  data : Word
deriving DecidableEq, Repr

/-- One constructor per row of spec/opcode_table.json, in the table's order (00_scope.md R2,
30_encoding.md R70). -/
inductive Instr where
  /-- ITER_BEGIN, state 0x0 (42_retry_fsm.md R142). -/
  | iterBegin
  /-- AWAIT, state 0x1 (R143). -/
  | await
  /-- READ, state 0x2 (43_token_reader.md R182). -/
  | read
  /-- VERR, state 0x3 (R144). -/
  | verr
  /-- DISCARD, state 0x4 (R190). -/
  | discard
  /-- ACCEPT, state 0x5 (R145). -/
  | accept
  /-- COMPUTE, state 0x6 (R146). -/
  | compute
  /-- SKIP, state 0x7 (R147). -/
  | skip
  /-- REPORT, state 0x8 (R148). -/
  | report
  /-- ITER_DONE, state 0x9 (R149). -/
  | iterDone
  /-- FINAL, state 0xA (R150). -/
  | final
  /-- DONE, state 0xB (R151). -/
  | done
  /-- RESERVED_STATE, states 0xC to 0xF: `low` is bits 1:0 (R152). -/
  | reservedState (low : BitVec 2)
  /-- READ.LEAD, state_phase 0x08 (R183). -/
  | readLead
  /-- READ.SIGN, state_phase 0x09 (R184). -/
  | readSign
  /-- READ.DIGITS, state_phase 0x0A (R185). -/
  | readDigits
  /-- READ.RESERVED, state_phase 0x0B (R73, R78). -/
  | readReserved
  /-- EV_ATTEMPT, event code 0 (R74); its data is zext_64(iter) (R75). -/
  | evAttempt (data : Word)
  /-- EV_PROMPT, event code 1; its data is 0 (R75). -/
  | evPrompt (data : Word)
  /-- EV_VERR_NOTICE, event code 2; its data is 0 (R75). -/
  | evVerrNotice (data : Word)
  /-- EV_OVERFLOW, event code 3; its data is 0 (R75). -/
  | evOverflow (data : Word)
  /-- EV_SKIP_NOTICE, event code 4; its data is 0 (R75). -/
  | evSkipNotice (data : Word)
  /-- EV_RUNNING_SUM, event code 5; its data is sum (R75). -/
  | evRunningSum (data : Word)
  /-- EV_FINAL_SUM, event code 6; its data is sum (R75). -/
  | evFinalSum (data : Word)
  /-- EV_RESERVED, event code 7 (R78). -/
  | evReserved (data : Word)
  /-- BEAT_BYTE: Byte(b) (R71). -/
  | beatByte (b : Byte)
  /-- BEAT_EOF: EOF, whatever in_data holds (R71). -/
  | beatEof
  /-- LF, 0x0A (R76). -/
  | lf
  /-- WS, 0x09 (R76). -/
  | wsTab
  /-- WS, 0x0B (R76). -/
  | wsVt
  /-- WS, 0x0C and 0x0D: `low` is bit 0 (R76). -/
  | wsFfCr (low : BitVec 1)
  /-- WS, 0x20 (R76). -/
  | wsSpace
  /-- DIGIT, 0x30 to 0x37: `value` is bits 2:0 (R76). -/
  | digitLow (value : BitVec 3)
  /-- DIGIT, 0x38 and 0x39: `low` is bit 0 (R76). -/
  | digitHigh (low : BitVec 1)
  /-- PLUS, 0x2B (R76). -/
  | plus
  /-- MINUS, 0x2D (R76). -/
  | minus
  /-- OTHER: a byte that no other byte_class row matches (R76). -/
  | other (b : Byte)
  /-- ADD, the ADDER operation COMPUTE invokes (40_adder.md R100). -/
  | add
  /-- ACCUM, the accumulator operation COMPUTE invokes (41_accumulator.md R120). -/
  | accum
deriving DecidableEq, Repr

end Sys2Proof
end

