-- ==== Sys2Proof/WellFormed.lean ====
section
/-! DEFINITION. Which instruction terms stand for a word of the spec's encodings: a byte of class
OTHER matches no other row (30_encoding.md R76), and the events without a value carry 0 (R75). -/

namespace Sys2Proof

/-- The match and mask columns of 30_encoding.md R76 for the classes LF, WS, DIGIT, PLUS and MINUS. -/
def namedByteRows : List (Byte × Byte) :=
  [(0x0A, 0xFF), (0x09, 0xFF), (0x0B, 0xFF), (0x0C, 0xFE), (0x20, 0xFF),
   (0x30, 0xF8), (0x38, 0xFE), (0x2B, 0xFF), (0x2D, 0xFF)]

/-- OTHER is "the complement of the rows above" (30_encoding.md R76). -/
def isOtherByte (b : Byte) : Bool :=
  !namedByteRows.any fun row => b &&& row.2 == row.1

/-- The term stands for a word of the spec's encodings. -/
def Instr.wellFormed : Instr → Bool
  | .evPrompt data => data == 0
  | .evVerrNotice data => data == 0
  | .evOverflow data => data == 0
  | .evSkipNotice data => data == 0
  | .other b => isOtherByte b
  | .iterBegin => true
  | .await => true
  | .read => true
  | .verr => true
  | .discard => true
  | .accept => true
  | .compute => true
  | .skip => true
  | .report => true
  | .iterDone => true
  | .final => true
  | .done => true
  | .reservedState _ => true
  | .readLead => true
  | .readSign => true
  | .readDigits => true
  | .readReserved => true
  | .evAttempt _ => true
  | .evRunningSum _ => true
  | .evFinalSum _ => true
  | .evReserved _ => true
  | .beatByte _ => true
  | .beatEof => true
  | .lf => true
  | .wsTab => true
  | .wsVt => true
  | .wsFfCr _ => true
  | .wsSpace => true
  | .digitLow _ => true
  | .digitHigh _ => true
  | .plus => true
  | .minus => true
  | .add => true
  | .accum => true

end Sys2Proof
end

