-- ==== Sys2Proof/Decode.lean ====
section
/-! DEFINITION. The decoder and the encoder of the block's five fixed-width words (30_encoding.md
R70 to R76), and the decoder as the host's opcode table numbers its bits. -/

namespace Sys2Proof

/-- The five formats of 30_encoding.md R70. -/
inductive Format where
  | state | statePhase | event | beat | byteClass
deriving DecidableEq, Repr

/-- The width of each format (30_encoding.md R70). -/
def Format.width : Format → Nat
  | .state => 4
  | .statePhase => 6
  | .event => 67
  | .beat => 9
  | .byteClass => 8

/-- A word of one of the formats; bit 0 of `bits` is the word's bit 0. -/
structure CodeWord where
  format : Format
  bits : Nat
deriving DecidableEq, Repr

/-- Why a word is no instruction. -/
inductive DecodeError where
  /-- The number does not fit in the format's width. -/
  | tooWide (format : Format)
deriving DecidableEq, Repr

/-- The state codes of 30_encoding.md R72. Every 4-bit code has a row. -/
def decodeState (w : BitVec 4) : Instr :=
  match w.toNat with
  | 0x0 => .iterBegin
  | 0x1 => .await
  | 0x2 => .read
  | 0x3 => .verr
  | 0x4 => .discard
  | 0x5 => .accept
  | 0x6 => .compute
  | 0x7 => .skip
  | 0x8 => .report
  | 0x9 => .iterDone
  | 0xA => .final
  | 0xB => .done
  | n => .reservedState (BitVec.ofNat 2 n)

/-- The READ step kinds of 30_encoding.md R73, by rd_phase. -/
def decodePhase (phase : BitVec 2) : Instr :=
  match phase.toNat with
  | 0 => .readLead
  | 1 => .readSign
  | 2 => .readDigits
  | _ => .readReserved

/-- A state_phase word: bits 5:2 the state code, bits 1:0 rd_phase. The state selects the step, and in
READ rd_phase too (30_encoding.md R70, R73; 95_test_vectors.md E14 to E16). -/
def decodeStatePhase (w : BitVec 6) : Instr :=
  let state := w.extractLsb' 2 4
  if state = 0x2#4 then decodePhase (w.extractLsb' 0 2) else decodeState state

/-- An event word: bits 66:64 the code, bits 63:0 the data (30_encoding.md R70, R74). -/
def decodeEvent (w : BitVec 67) : Instr :=
  let data := w.extractLsb' 0 64
  match (w.extractLsb' 64 3).toNat with
  | 0 => .evAttempt data
  | 1 => .evPrompt data
  | 2 => .evVerrNotice data
  | 3 => .evOverflow data
  | 4 => .evSkipNotice data
  | 5 => .evRunningSum data
  | 6 => .evFinalSum data
  | _ => .evReserved data

/-- A beat word: bit 8 eof, bits 7:0 data, ignored under EOF (30_encoding.md R70, R71). -/
def decodeBeat (w : BitVec 9) : Instr :=
  if w.getLsbD 8 then .beatEof else .beatByte (w.extractLsb' 0 8)

/-- The byte classes by the match and mask columns of 30_encoding.md R76. -/
def decodeByteClass (b : Byte) : Instr :=
  if b = 0x0A then .lf
  else if b = 0x09 then .wsTab
  else if b = 0x0B then .wsVt
  else if b &&& 0xFE = 0x0C then .wsFfCr (b.extractLsb' 0 1)
  else if b = 0x20 then .wsSpace
  else if b &&& 0xF8 = 0x30 then .digitLow (b.extractLsb' 0 3)
  else if b &&& 0xFE = 0x38 then .digitHigh (b.extractLsb' 0 1)
  else if b = 0x2B then .plus
  else if b = 0x2D then .minus
  else .other b

/-- The decoder: total, and it rejects by name. -/
def decode (w : CodeWord) : Except DecodeError Instr :=
  if w.bits < 2 ^ w.format.width then
    match w.format with
    | .state => .ok (decodeState (BitVec.ofNat 4 w.bits))
    | .statePhase => .ok (decodeStatePhase (BitVec.ofNat 6 w.bits))
    | .event => .ok (decodeEvent (BitVec.ofNat 67 w.bits))
    | .beat => .ok (decodeBeat (BitVec.ofNat 9 w.bits))
    | .byteClass => .ok (decodeByteClass (BitVec.ofNat 8 w.bits))
  else .error (.tooWide w.format)

/-- The word of an event (30_encoding.md R70): the code in bits 66:64, the data in bits 63:0. -/
def eventWord (c : EventCode) (data : Word) : CodeWord :=
  ⟨.event, c.toBits.toNat * 2 ^ 64 + data.toNat⟩

/-- The encoder, from the tables of 30_encoding.md R71 to R76. ADD and ACCUM have no word of their
own: they are invoked by COMPUTE's, state code 0x6 (40_adder.md R100, 41_accumulator.md R120). -/
def encode : Instr → CodeWord
  | .iterBegin => ⟨.state, 0x0⟩
  | .await => ⟨.state, 0x1⟩
  | .read => ⟨.state, 0x2⟩
  | .verr => ⟨.state, 0x3⟩
  | .discard => ⟨.state, 0x4⟩
  | .accept => ⟨.state, 0x5⟩
  | .compute => ⟨.state, 0x6⟩
  | .skip => ⟨.state, 0x7⟩
  | .report => ⟨.state, 0x8⟩
  | .iterDone => ⟨.state, 0x9⟩
  | .final => ⟨.state, 0xA⟩
  | .done => ⟨.state, 0xB⟩
  | .reservedState low => ⟨.state, 0xC + low.toNat⟩
  | .readLead => ⟨.statePhase, 0x08⟩
  | .readSign => ⟨.statePhase, 0x09⟩
  | .readDigits => ⟨.statePhase, 0x0A⟩
  | .readReserved => ⟨.statePhase, 0x0B⟩
  | .evAttempt data => eventWord .attempt data
  | .evPrompt data => eventWord .prompt data
  | .evVerrNotice data => eventWord .verrNotice data
  | .evOverflow data => eventWord .overflow data
  | .evSkipNotice data => eventWord .skipNotice data
  | .evRunningSum data => eventWord .runningSum data
  | .evFinalSum data => eventWord .finalSum data
  | .evReserved data => eventWord .reserved data
  | .beatByte b => ⟨.beat, b.toNat⟩
  | .beatEof => ⟨.beat, 0x100⟩
  | .lf => ⟨.byteClass, 0x0A⟩
  | .wsTab => ⟨.byteClass, 0x09⟩
  | .wsVt => ⟨.byteClass, 0x0B⟩
  | .wsFfCr low => ⟨.byteClass, 0x0C + low.toNat⟩
  | .wsSpace => ⟨.byteClass, 0x20⟩
  | .digitLow value => ⟨.byteClass, 0x30 + value.toNat⟩
  | .digitHigh low => ⟨.byteClass, 0x38 + low.toNat⟩
  | .plus => ⟨.byteClass, 0x2B⟩
  | .minus => ⟨.byteClass, 0x2D⟩
  | .other b => ⟨.byteClass, b.toNat⟩
  | .add => ⟨.state, 0x6⟩
  | .accum => ⟨.state, 0x6⟩

/-- Which format a word of the table is read in, from the number of bits the table gives its row
(in whole bytes) and its value. The formats state, state_phase and byte_class all fill one byte and
overlap: a one-byte word below 0x10 is read as a state code, any other as a byte (log 1). -/
def tableFormat (nbits w : Nat) : Format :=
  if nbits ≤ 4 then .state
  else if nbits ≤ 6 then .statePhase
  else if nbits ≤ 8 then (if w < 0x10 then .state else .byteClass)
  else if nbits ≤ 16 then .beat
  else .event

/-- The instruction the decoder reads from the word `w` of a row of spec/opcode_table.json of
`nbits` bits. The block stores no instruction bytes (20_memory.md R58, R59): the number is the word. -/
def decodeTableWord (nbits w : Nat) : Option Instr :=
  (decode ⟨tableFormat nbits w, w⟩).toOption

end Sys2Proof
end

