-- ==== Sys2Proof/Machine/State.lean ====
section
/-! DEFINITION. The machine's state: the registers of 10_state.md R20 and nothing else of the block,
beside the parameters, what the environment drives, and what has been transferred; the reasons a
step can stop; the state after reset (R39). -/

namespace Sys2Proof.Machine

/-- The slot register: 0 = FIRST, 1 = SECOND (10_state.md R24, 30_encoding.md R81). -/
inductive Slot where
  | first | second
deriving DecidableEq, Repr

/-- The block's registers, at the widths of the table of 10_state.md R20: W_ITER and W_BUD are the
block's, from its parameters (00_scope.md R10). One-bit flags are true when 1 (30_encoding.md R81). -/
structure Regs (c : Params) where
  /-- `state`, 4 bits (R21). -/
  state : BitVec 4
  /-- `iter`, unsigned, W_ITER bits (R22). -/
  iter : BitVec c.wIter
  /-- `budget`, unsigned, W_BUD bits (R23). -/
  budget : BitVec c.wBud
  /-- `slot`, 1 bit (R24). -/
  slot : Slot
  /-- `opA`, the first operand (R25). -/
  opA : Word
  /-- `opB`, the second operand (R25). -/
  opB : Word
  /-- `sum`, the RunningSum (R26). -/
  sum : Word
  /-- `acc_wrap`, sticky (R27). -/
  accWrap : Bool
  /-- `rd_phase`: 0 LEAD, 1 SIGN, 2 DIGITS, 3 reserved (R28, 30_encoding.md R73). -/
  rdPhase : BitVec 2
  /-- `rd_neg` (R29). -/
  rdNeg : Bool
  /-- `rd_mag`, unsigned (R30). -/
  rdMag : Word
  /-- `rd_ok` (R31). -/
  rdOk : Bool
  /-- `rd_disc` (R32). -/
  rdDisc : Bool
  /-- `eof_seen`, sticky (R33). -/
  eofSeen : Bool
deriving DecidableEq, Repr

/-- What the environment drives on the input ports at one rising edge (20_memory.md R51). -/
structure Pins where
  rst : Bool
  inValid : Bool
  inEof : Bool
  inData : Byte
  evReady : Bool
deriving DecidableEq, Repr

/-- The environment withholds everything: no reset, no beat, no acceptance (log 3). -/
def Pins.idle : Pins :=
  { rst := false, inValid := false, inEof := false, inData := 0, evReady := false }

/-- What ADD (40_adder.md R100) or ACCUM (41_accumulator.md R120) returned when it was run as a row
of its own (log 5). COMPUTE takes the pair itself and leaves this alone. -/
inductive Returned where
  | none
  | add (ovf : Bool) (value : Word)
  | accum (sum : Word) (wrapped : Bool)
deriving DecidableEq, Repr

/-- The machine. `regs` is the block's state (10_state.md R20); `cfg` are its parameters (R37); the
other fields are the model's own: the environment's ports at the coming edge and after it (log 3),
the transfers so far (log 4), and a returned pair (log 5). -/
structure State where
  cfg : Params
  regs : Regs cfg
  /-- The input ports at the coming edge. -/
  pins : Pins
  /-- The input ports at the edges after it, in order. -/
  script : List Pins
  /-- The beats transferred, oldest first. -/
  taken : List Beat
  /-- The events transferred, oldest first. -/
  delivered : List Event
  ret : Returned
deriving DecidableEq, Repr

/-- Why the machine is stuck. The spec gives these no successor until reset. -/
inductive Fault where
  /-- `state` holds a reserved code 0xC to 0xF (42_retry_fsm.md R152). Raised by RESERVED_STATE. Safe:
  the spec says "The model must not give such a state a successor". -/
  | reservedState
  /-- READ with rd_phase = 3 (30_encoding.md R78). Raised by READ, READ.RESERVED and a beat arriving
  there. Safe: the spec says the step "is stuck". -/
  | reservedPhase
deriving DecidableEq, Repr

/-- Why the model gives no step. -/
inductive Refusal where
  /-- An instruction without a meaning. No arm of exec raises it. Safe. -/
  | notModelled (mnemonic : String)
  /-- N_ITER = 0: "A model refuses a configuration with N_ITER = 0" (00_scope.md R8). Raised by step.
  Safe: such a block does not exist. -/
  | noIterations
  /-- Event code 7: "reserved and is never emitted" (30_encoding.md R78). Raised by EV_RESERVED. Safe:
  the block never makes the transfer. -/
  | reservedEvent
deriving DecidableEq, Repr

/-- The result of an instruction or of a step. -/
abbrev Outcome := Host.Outcome State Fault Refusal

/-- The reset values of every register (10_state.md R39). -/
def Regs.reset (c : Params) : Regs c :=
  { state := 0x0, iter := BitVec.ofNat _ c.nIter, budget := BitVec.ofNat _ c.nAttempts
    slot := .first, opA := 0, opB := 0, sum := 0, accWrap := false, rdPhase := 0, rdNeg := false
    rdMag := 0, rdOk := false, rdDisc := false, eofSeen := false }

/-- The machine right after a reset edge, built with the default parameters (00_scope.md R8, R9), in
an environment that drives nothing and to which nothing has been transferred (log 3, 4). -/
def State.reset : State :=
  { cfg := {}, regs := Regs.reset {}, pins := Pins.idle, script := [], taken := [], delivered := []
    ret := .none }

end Sys2Proof.Machine
end

