-- ==== Sys2Proof/Machine/Operands.lean ====
section
/-! DEFINITION. Number conversions (00_scope.md R12), the byte classes (30_encoding.md R76), what a
beat does to a read in each phase (43_token_reader.md R183 to R187), and the line-level form of an
operand (30_encoding.md R77, 43_token_reader.md R181). -/

namespace Sys2Proof.Machine

/-- enc64(n), defined for n in the signed 64-bit range (00_scope.md R12); outside it a free value
(log 22). -/
def enc64 (n : Int) : Word :=
  if InInt64 n then BitVec.ofInt 64 n else Config.enc64OutOfRange n

/-- wrap64(n) = enc64(((n + 2^63) mod 2^64) - 2^63) (00_scope.md R12). -/
def wrap64 (n : Int) : Word :=
  enc64 ((n + 2 ^ 63) % 2 ^ 64 - 2 ^ 63)

/-- zext_64 of an unsigned counter register (00_scope.md R12); a value of more than 64 bits has none,
and is a free value (log 13). -/
def zext64 {width : Nat} (v : BitVec width) : Word :=
  if v.toNat < 2 ^ 64 then v.setWidth 64 else Config.zext64TooWide v.toNat

/-- A counter register, decremented (42_retry_fsm.md R144, R149). At 0 the spec states no result: a
free value of the register's width (log 11). -/
def decrement {width : Nat} (v : BitVec width) : BitVec width :=
  if v = 0 then Config.decrementOfZero width else v - 1

/-- The classes of an input byte (30_encoding.md R76), a digit with its value. -/
inductive ByteClass where
  | lf | ws | digit (d : Nat) | plus | minus | other
deriving DecidableEq, Repr

/-- The class of a byte, by the byte values of 30_encoding.md R76. -/
def classify (b : Byte) : ByteClass :=
  if b = 0x0A then .lf
  else if b = 0x09 ∨ b = 0x0B ∨ b = 0x0C ∨ b = 0x0D ∨ b = 0x20 then .ws
  else if 0x30 ≤ b.toNat ∧ b.toNat ≤ 0x39 then .digit (b.toNat - 0x30)
  else if b = 0x2B then .plus
  else if b = 0x2D then .minus
  else .other

/-- The cause of a failing read (60_exceptions.md R211). It is computed here and never stored or
emitted (R217). -/
inductive FailCause where
  | empty | endOfInput | nonInteger | range
deriving DecidableEq, Repr

/-- What one READ step does with its beat (43_token_reader.md R183 to R185). -/
inductive ReadAction where
  /-- Stay, nothing written. -/
  | stay
  /-- rd_phase <- SIGN; rd_neg <- neg. -/
  | sign (neg : Bool)
  /-- rd_phase <- DIGITS; rd_mag <- d. -/
  | firstDigit (d : Nat)
  /-- rd_mag <- m. -/
  | nextDigit (m : Nat)
  /-- Verdict(ok = 1, disc, v). -/
  | succeed (disc : Bool) (v : Int)
  /-- Verdict(ok = 0, disc), with its cause. -/
  | fail (cause : FailCause) (disc : Bool)
deriving DecidableEq, Repr

/-- LIMIT(neg) (43_token_reader.md R186). -/
def limit (neg : Bool) : Nat := if neg then 2 ^ 63 else 2 ^ 63 - 1

/-- VALUE(neg, mag) (43_token_reader.md R187). -/
def value (neg : Bool) (mag : Word) : Int := if neg then -(mag.toNat : Int) else mag.toNat

/-- READ.LEAD (43_token_reader.md R183). -/
def leadAction : Beat → ReadAction
  | .eof => .fail .endOfInput false
  | .byte b =>
    match classify b with
    | .ws => .stay
    | .lf => .fail .empty false
    | .plus => .sign false
    | .minus => .sign true
    | .digit d => .firstDigit d
    | .other => .fail .nonInteger true

/-- READ.SIGN (43_token_reader.md R184). -/
def signAction : Beat → ReadAction
  | .eof => .fail .nonInteger false
  | .byte b =>
    match classify b with
    | .digit d => .firstDigit d
    | .lf => .fail .nonInteger false
    | .ws => .fail .nonInteger true
    | .plus => .fail .nonInteger true
    | .minus => .fail .nonInteger true
    | .other => .fail .nonInteger true

/-- READ.DIGITS (43_token_reader.md R185): `neg` and `mag` are rd_neg and rd_mag. -/
def digitsAction (neg : Bool) (mag : Word) : Beat → ReadAction
  | .eof => .succeed false (value neg mag)
  | .byte b =>
    match classify b with
    | .digit d =>
      if mag.toNat * 10 + d > limit neg then .fail .range true
      else .nextDigit (mag.toNat * 10 + d)
    | .ws => .succeed true (value neg mag)
    | .lf => .succeed false (value neg mag)
    | .plus => .fail .nonInteger true
    | .minus => .fail .nonInteger true
    | .other => .fail .nonInteger true

/-! The line-level form of an operand. -/

/-- A byte of class WS (30_encoding.md R76). -/
def isBlank (b : Byte) : Bool := classify b == .ws

/-- The token of a line without its terminator: "the first maximal run of non-WS, non-LF bytes on the
line, after any leading WS bytes" (43_token_reader.md R181). -/
def lineToken (line : List Byte) : List Byte :=
  (line.dropWhile isBlank).takeWhile fun b => !isBlank b

/-- The magnitude of a run of digit bytes, most significant first, continuing from `m`; none where a
byte is no digit (30_encoding.md R77). -/
def digitsFrom (m : Nat) : List Byte → Option Nat
  | [] => some m
  | b :: bs =>
    match classify b with
    | .digit d => digitsFrom (m * 10 + d) bs
    | _ => none

/-- The magnitude of one or more digit bytes (30_encoding.md R77). -/
def digitsValue : List Byte → Option Nat
  | [] => none
  | b :: bs => digitsFrom 0 (b :: bs)

/-- The integer a token stands for, if it is an optional PLUS or MINUS followed by one or more DIGIT
bytes (30_encoding.md R77). -/
def tokenInteger : List Byte → Option Int
  | [] => none
  | b :: bs =>
    match classify b with
    | .plus => (digitsValue bs).map fun m => (m : Int)
    | .minus => (digitsValue bs).map fun m => -(m : Int)
    | _ => (digitsValue (b :: bs)).map fun m => (m : Int)

/-- The value of a well-formed token: its integer, if that lies in the signed 64-bit range
(43_token_reader.md R181). -/
def tokenValue (token : List Byte) : Option Int :=
  (tokenInteger token).filter fun v => decide (InInt64 v)

/-- The line-level verdict of 43_token_reader.md R181: a read of the line succeeds with this value, or
fails. -/
def lineValue (line : List Byte) : Option Int :=
  tokenValue (lineToken line)

end Sys2Proof.Machine
end

