-- ==== Sys2Proof/Machine/Flags.lean ====
section
/-! DEFINITION. The block's only arithmetic: ADD with its overflow condition (40_adder.md R100) and
ACCUM with its wrap condition (41_accumulator.md R120), and the spec's other forms of the overflow
test (R102, R103). -/

namespace Sys2Proof.Machine

/-- add_raw: (uval(a) + uval(b)) mod 2^64 (40_adder.md R100). -/
def addRaw (a b : Word) : Word :=
  BitVec.ofNat 64 ((a.toNat + b.toNat) % 2 ^ 64)

/-- add_ovf: the operands have one sign and the raw sum the other (40_adder.md R100). -/
def addOvf (a b : Word) : Bool :=
  a.getLsbD 63 == b.getLsbD 63 && (addRaw a b).getLsbD 63 != a.getLsbD 63

/-- add_value: the raw sum, or the sentinel 0 on overflow (40_adder.md R100). -/
def addValue (a b : Word) : Word :=
  if addOvf a b then 0 else addRaw a b

/-- The range form of the overflow condition (40_adder.md R102). -/
abbrev AddOutOfRange (a b : Word) : Prop :=
  a.toInt + b.toInt > int64Max ∨ a.toInt + b.toInt < int64Min

/-- The pre-check form of the overflow condition (40_adder.md R103). -/
abbrev AddPreCheck (a b : Word) : Prop :=
  (b.toInt > 0 ∧ a.toInt > int64Max - b.toInt) ∨ (b.toInt < 0 ∧ a.toInt < int64Min - b.toInt)

/-- ACCUM's exact sum t (41_accumulator.md R120). -/
def accumExact (s r : Word) : Int := s.toInt + r.toInt

/-- ACCUM's s' = wrap64(t) (41_accumulator.md R120). -/
def accumSum (s r : Word) : Word := wrap64 (accumExact s r)

/-- ACCUM's wrapped = (t > INT64_MAX) or (t < INT64_MIN) (41_accumulator.md R120). -/
def accumWrapped (s r : Word) : Bool :=
  decide (accumExact s r > int64Max) || decide (accumExact s r < int64Min)

/-- The ADDER's outputs (40_adder.md R101). -/
structure AdderPorts where
  raw : Word
  ovf : Bool
  value : Word
deriving DecidableEq, Repr

/-- The ADDER's outputs at all times: add_a = opA and add_b = opB (40_adder.md R101). -/
def adderPorts {c : Params} (r : Regs c) : AdderPorts :=
  { raw := addRaw r.opA r.opB, ovf := addOvf r.opA r.opB, value := addValue r.opA r.opB }

end Sys2Proof.Machine
end

