-- ==== Sys2Proof/Machine/Ops.lean ====
section
/-! DEFINITION. The operations the steps share: the handshakes Take and Emit (20_memory.md R52 to
R55), the verdict (43_token_reader.md R188), the outputs (20_memory.md R53, R56, R57, 10_state.md
R36), and reset (70_reset_and_hazards.md R240). The block has no trap to take and none to return
from: every error is one of its ordinary transitions (60_exceptions.md R214, R218). -/

namespace Sys2Proof.Machine

/-! State codes (30_encoding.md R72) and rd_phase codes (R73). -/

@[simp] abbrev stIterBegin : BitVec 4 := 0x0#4
@[simp] abbrev stAwait : BitVec 4 := 0x1#4
@[simp] abbrev stRead : BitVec 4 := 0x2#4
@[simp] abbrev stVerr : BitVec 4 := 0x3#4
@[simp] abbrev stDiscard : BitVec 4 := 0x4#4
@[simp] abbrev stAccept : BitVec 4 := 0x5#4
@[simp] abbrev stCompute : BitVec 4 := 0x6#4
@[simp] abbrev stSkip : BitVec 4 := 0x7#4
@[simp] abbrev stReport : BitVec 4 := 0x8#4
@[simp] abbrev stIterDone : BitVec 4 := 0x9#4
@[simp] abbrev stFinal : BitVec 4 := 0xA#4
@[simp] abbrev stDone : BitVec 4 := 0xB#4

@[simp] abbrev phLead : BitVec 2 := 0#2
@[simp] abbrev phSign : BitVec 2 := 1#2
@[simp] abbrev phDigits : BitVec 2 := 2#2

/-! Updates of the state. -/

def State.withRegs (s : State) (r : Regs s.cfg) : State := { s with regs := r }

def State.logEvent (s : State) (e : Event) : State := { s with delivered := s.delivered ++ [e] }

def State.logBeat (s : State) (b : Beat) : State := { s with taken := s.taken ++ [b] }

def State.withRet (s : State) (v : Returned) : State := { s with ret := v }

/-- The edge is over: the ports take what the environment drives at the next one, nothing when the
script has ended (log 3). -/
def State.advance (s : State) : State :=
  { s with pins := s.script.headD Pins.idle, script := s.script.tail }

/-- A reset edge: every register takes its reset value (70_reset_and_hazards.md R240). What has been
transferred stays transferred (R242). -/
def State.resetRegs (s : State) : State := s.withRegs (Regs.reset s.cfg)

/-- Apply a function to the next state, if there is one. -/
def onNext (f : State → State) : Outcome → Outcome
  | .next s => .next (f s)
  | .fault r => .fault r
  | .refused r => .refused r

/-! The output stream. -/

/-- The event the block presents, as a function of the registers (20_memory.md R56); none where
ev_valid = 0. -/
def presented {c : Params} (r : Regs c) : Option Event :=
  if r.state = stIterBegin then some ⟨.attempt, zext64 r.iter⟩
  else if r.state = stAwait then (if r.budget ≠ 0 then some ⟨.prompt, 0⟩ else none)
  else if r.state = stVerr then some ⟨.verrNotice, 0⟩
  else if r.state = stCompute then (if addOvf r.opA r.opB then some ⟨.overflow, 0⟩ else none)
  else if r.state = stSkip then some ⟨.skipNotice, 0⟩
  else if r.state = stReport then some ⟨.runningSum, r.sum⟩
  else if r.state = stFinal then some ⟨.finalSum, r.sum⟩
  else none

/-- Emit(e) by a step whose register writes give `r`, at an edge with rst = 0: with ev_ready = 1 the
event is delivered and the writes take effect, with ev_ready = 0 the block holds all of its state
(20_memory.md R55). -/
def emit (s : State) (e : Event) (r : Regs s.cfg) : Outcome :=
  if s.pins.evReady then .next ((s.withRegs r).logEvent e) else .next s

/-- The output transfer of the event `e`, made by the step `emitter`: where the block does not present
`e` there is no such transfer, and nothing changes (20_memory.md R55, R56, log 7). -/
def transferEvent (e : Event) (emitter : State → Outcome) (s : State) : Outcome :=
  if presented s.regs = some e then emitter s else .next s

/-! The input stream. -/

/-- The beat on the ports, if in_valid = 1 (20_memory.md R52, 30_encoding.md R71). -/
def Pins.offered (p : Pins) : Option Beat :=
  if p.inValid then some (if p.inEof then .eof else .byte p.inData) else none

/-- in_ready but for rst: READ or DISCARD with eof_seen = 0 (20_memory.md R53). -/
def wantsBeat {c : Params} (r : Regs c) : Bool :=
  (r.state == stRead || r.state == stDiscard) && !r.eofSeen

/-- A step that calls Take, at an edge with rst = 0; `f` gives its register writes for a beat
(20_memory.md R54): the sticky EOF without a transfer, or the beat offered, or a wait. -/
def take (s : State) (f : Beat → Regs s.cfg → Regs s.cfg) : Outcome :=
  if s.regs.eofSeen then .next (s.withRegs (f .eof s.regs))
  else
    match s.pins.offered with
    | none => .next s
    | some b => .next ((s.withRegs (f b s.regs)).logBeat b)

/-! The token reader. -/

/-- eof_seen <- 1 when the beat is EOF (43_token_reader.md R182, R190). -/
def noteEof {c : Params} (b : Beat) (r : Regs c) : Regs c :=
  if b = .eof then { r with eofSeen := true } else r

/-- The operand write of a successful verdict (43_token_reader.md R188). -/
def writeOperand {c : Params} (v : Int) (r : Regs c) : Regs c :=
  match r.slot with
  | .first => { r with opA := enc64 v }
  | .second => { r with opB := enc64 v }

/-- The part of Verdict(ok, disc, v) that does not depend on v (43_token_reader.md R188). -/
def closeRead {c : Params} (ok disc : Bool) (r : Regs c) : Regs c :=
  { r with
    rdOk := ok
    rdDisc := disc
    rdPhase := phLead
    rdNeg := false
    rdMag := 0
    state := if ok then (if disc then stDiscard else stAccept) else stVerr }

/-- The register writes of a READ step's action. -/
def applyAction {c : Params} (a : ReadAction) (r : Regs c) : Regs c :=
  match a with
  | .stay => r
  | .sign neg => { r with rdPhase := phSign, rdNeg := neg }
  | .firstDigit d => { r with rdPhase := phDigits, rdMag := BitVec.ofNat 64 d }
  | .nextDigit m => { r with rdMag := BitVec.ofNat 64 m }
  | .succeed disc v => closeRead true disc (writeOperand v r)
  | .fail _ disc => closeRead false disc r

/-- A READ step's register writes for a beat, by the phase's action (43_token_reader.md R182). -/
def readWith {c : Params} (act : Beat → ReadAction) (b : Beat) (r : Regs c) : Regs c :=
  applyAction (act b) (noteEof b r)

/-- The action READ dispatches to on rd_phase; none for the reserved phase 3 (43_token_reader.md
R182). -/
def phaseAction {c : Params} (r : Regs c) : Option (Beat → ReadAction) :=
  if r.rdPhase = phLead then some leadAction
  else if r.rdPhase = phSign then some signAction
  else if r.rdPhase = phDigits then some (digitsAction r.rdNeg r.rdMag)
  else none

/-- DISCARD's register writes for a beat (43_token_reader.md R190). -/
def discardWith {c : Params} (b : Beat) (r : Regs c) : Regs c :=
  if b = .eof ∨ b = .byte 0x0A then
    { noteEof b r with state := if r.rdOk then stAccept else stAwait }
  else r

/-- The input transfer of the beat `b`: the READ or DISCARD step in progress consumes it; where
in_ready = 0 no beat is consumed, whatever is presented (20_memory.md R52, R53, log 6). -/
def receive (b : Beat) (s : State) : Outcome :=
  if wantsBeat s.regs then
    if s.regs.state = stDiscard then .next ((s.withRegs (discardWith b s.regs)).logBeat b)
    else
      match phaseAction s.regs with
      | none => .fault .reservedPhase
      | some act => .next ((s.withRegs (readWith act b s.regs)).logBeat b)
  else .next s

/-! Outputs. -/

/-- The transfers of one edge (20_memory.md R52, R55): the beat consumed. -/
def inputTransfer (s : State) : Option Beat :=
  if !s.pins.rst && wantsBeat s.regs then s.pins.offered else none

/-- The transfers of one edge (20_memory.md R55): the event delivered. -/
def outputTransfer (s : State) : Option Event :=
  if !s.pins.rst && s.pins.evReady then presented s.regs else none

/-- `slot` as its bit (30_encoding.md R81). -/
def Slot.toBit : Slot → BitVec 1
  | .first => 0
  | .second => 1

/-- Every register as a number, in the order of 10_state.md R20: the argument of the free values of
ev_code and ev_data (20_memory.md R56). -/
def Regs.numbers {c : Params} (r : Regs c) : List Nat :=
  [r.state.toNat, r.iter.toNat, r.budget.toNat, r.slot.toBit.toNat, r.opA.toNat, r.opB.toNat, r.sum.toNat,
   r.accWrap.toNat, r.rdPhase.toNat, r.rdNeg.toNat, r.rdMag.toNat, r.rdOk.toNat, r.rdDisc.toNat,
   r.eofSeen.toNat]

/-- The output ports (20_memory.md R51) with the status outputs (10_state.md R36). -/
structure Outputs (c : Params) where
  inReady : Bool
  evValid : Bool
  evCode : BitVec 3
  evData : Word
  done : Bool
  exitStatus : BitVec 8
  stState : BitVec 4
  stIter : BitVec c.wIter
  stBudget : BitVec c.wBud
  stSlot : BitVec 1
  stSum : Word
  stAccWrap : Bool
  stEof : Bool
deriving DecidableEq, Repr

/-- The output ports as functions of the registers and rst (20_memory.md R53, R56, R57, 10_state.md
R36). Where ev_valid = 0, ev_code and ev_data are free values (log 14). -/
def outputs {c : Params} (rst : Bool) (r : Regs c) : Outputs c :=
  let shown := if rst then none else presented r
  { inReady := !rst && wantsBeat r
    evValid := shown.isSome
    evCode := (shown.map fun e => e.code.toBits).getD (Config.idleEvCode r.numbers)
    evData := (shown.map Event.data).getD (Config.idleEvData r.numbers)
    done := r.state == stDone
    exitStatus := 0x00
    stState := r.state
    stIter := r.iter
    stBudget := r.budget
    stSlot := r.slot.toBit
    stSum := r.sum
    stAccWrap := r.accWrap
    stEof := r.eofSeen }

end Sys2Proof.Machine
end

