-- ==== Sys2Proof/Machine/Compute.lean ====
section
/-! DEFINITION. COMPUTE (42_retry_fsm.md R146) and the operations it invokes, ADD (40_adder.md R100)
and ACCUM (41_accumulator.md R120). -/

namespace Sys2Proof.Machine

/-- COMPUTE's register writes (42_retry_fsm.md R146): only `sum`, `acc_wrap` and `state`. -/
def computeRegs {c : Params} (r : Regs c) : Regs c :=
  let v := addValue r.opA r.opB
  { r with
    sum := accumSum r.sum v
    accWrap := r.accWrap || accumWrapped r.sum v
    state := stReport }

/-- COMPUTE's step (42_retry_fsm.md R146): an overflow is ArithmeticOverflow (60_exceptions.md R212),
and its event waits for ev_ready. -/
def computeStep (s : State) : Outcome :=
  if addOvf s.regs.opA s.regs.opB then emit s ⟨.overflow, 0⟩ (computeRegs s.regs)
  else .next (s.withRegs (computeRegs s.regs))

/-- COMPUTE (42_retry_fsm.md R146). -/
def execCompute (s : State) : Outcome := computeStep s

/-- ADD (40_adder.md R100): returns (ovf, value) of opA and opB, and has no other effect (R105). -/
def execAdd (s : State) : Outcome :=
  .next (s.withRet (.add (addOvf s.regs.opA s.regs.opB) (addValue s.regs.opA s.regs.opB)))

/-- ACCUM (41_accumulator.md R120): returns (s', wrapped) of `sum` and the ADD value; only COMPUTE
writes `sum` and `acc_wrap` with them (R121, R122). -/
def execAccum (s : State) : Outcome :=
  let v := addValue s.regs.opA s.regs.opB
  .next (s.withRet (.accum (accumSum s.regs.sum v) (accumWrapped s.regs.sum v)))

end Sys2Proof.Machine
end

