-- ==== Sys2Proof/Machine/Iteration.lean ====
section
/-! DEFINITION. The steps that open, report, count and close the iterations of a session:
ITER_BEGIN, REPORT, ITER_DONE, FINAL, DONE and the reserved states (42_retry_fsm.md). Each is the
step's effect at an edge with rst = 0. -/

namespace Sys2Proof.Machine

/-- ITER_BEGIN's step (42_retry_fsm.md R142). -/
def iterBeginStep (s : State) : Outcome :=
  emit s ⟨.attempt, zext64 s.regs.iter⟩
    { s.regs with budget := BitVec.ofNat _ s.cfg.nAttempts, slot := .first, state := stAwait }

/-- REPORT's step (42_retry_fsm.md R148). -/
def reportStep (s : State) : Outcome :=
  emit s ⟨.runningSum, s.regs.sum⟩ { s.regs with state := stIterDone }

/-- FINAL's step (42_retry_fsm.md R150). -/
def finalStep (s : State) : Outcome :=
  emit s ⟨.finalSum, s.regs.sum⟩ { s.regs with state := stDone }

/-- ITER_BEGIN (42_retry_fsm.md R142). -/
def execIterBegin (s : State) : Outcome := iterBeginStep s

/-- REPORT (42_retry_fsm.md R148). -/
def execReport (s : State) : Outcome := reportStep s

/-- ITER_DONE (42_retry_fsm.md R149): the end test reads the same iter - 1 that is written. -/
def execIterDone (s : State) : Outcome :=
  let left := decrement s.regs.iter
  .next (s.withRegs
    { s.regs with iter := left, state := if left = 0 then stFinal else stIterBegin })

/-- FINAL (42_retry_fsm.md R150). -/
def execFinal (s : State) : Outcome := finalStep s

/-- DONE (42_retry_fsm.md R151): no step; "The block holds every register at every later edge until
rst = 1". -/
def execDone (s : State) : Outcome := .next s

/-- RESERVED_STATE (42_retry_fsm.md R152): "it has no step", and the model gives it no successor. -/
def execReservedState (_low : BitVec 2) (_s : State) : Outcome := .fault .reservedState

end Sys2Proof.Machine
end

