-- ==== Sys2Proof/Machine/Reader.lean ====
section
/-! DEFINITION. The token reader's steps: READ with its phases, and DISCARD (43_token_reader.md). Each
is the step's effect at an edge with rst = 0. -/

namespace Sys2Proof.Machine

/-- READ (43_token_reader.md R182): one beat, dispatched on rd_phase; stuck in the reserved phase. -/
def execRead (s : State) : Outcome :=
  match phaseAction s.regs with
  | none => .fault .reservedPhase
  | some act => take s (readWith act)

/-- READ.LEAD (43_token_reader.md R183). -/
def execReadLead (s : State) : Outcome := take s (readWith leadAction)

/-- READ.SIGN (43_token_reader.md R184). -/
def execReadSign (s : State) : Outcome := take s (readWith signAction)

/-- READ.DIGITS (43_token_reader.md R185). -/
def execReadDigits (s : State) : Outcome :=
  take s (readWith (digitsAction s.regs.rdNeg s.regs.rdMag))

/-- READ.RESERVED (30_encoding.md R73, R78): "the READ step with phase 3 is stuck". -/
def execReadReserved (_s : State) : Outcome := .fault .reservedPhase

/-- DISCARD (43_token_reader.md R190). -/
def execDiscard (s : State) : Outcome := take s discardWith

end Sys2Proof.Machine
end

