-- ==== Sys2Proof/Machine/Retry.lean ====
section
/-! DEFINITION. The attempt budget: AWAIT, VERR, ACCEPT and SKIP (42_retry_fsm.md). Each is the
step's effect at an edge with rst = 0. -/

namespace Sys2Proof.Machine

/-- AWAIT's step (42_retry_fsm.md R143): a budget of 0 is BudgetExhaustion (60_exceptions.md R213). -/
def awaitStep (s : State) : Outcome :=
  if s.regs.budget = 0 then .next (s.withRegs { s.regs with state := stSkip })
  else emit s ⟨.prompt, 0⟩ { s.regs with state := stRead }

/-- VERR's step (42_retry_fsm.md R144), the report of a ValidationFailure (60_exceptions.md R211). -/
def verrStep (s : State) : Outcome :=
  emit s ⟨.verrNotice, 0⟩
    { s.regs with
      budget := decrement s.regs.budget
      state := if s.regs.rdDisc then stDiscard else stAwait }

/-- SKIP's step (42_retry_fsm.md R147), the report of BudgetExhaustion (60_exceptions.md R213). -/
def skipStep (s : State) : Outcome :=
  emit s ⟨.skipNotice, 0⟩ { s.regs with state := stReport }

/-- AWAIT (42_retry_fsm.md R143). -/
def execAwait (s : State) : Outcome := awaitStep s

/-- VERR (42_retry_fsm.md R144). -/
def execVerr (s : State) : Outcome := verrStep s

/-- ACCEPT (42_retry_fsm.md R145). -/
def execAccept (s : State) : Outcome :=
  match s.regs.slot with
  | .first =>
    .next (s.withRegs
      { s.regs with budget := BitVec.ofNat _ s.cfg.nAttempts, slot := .second, state := stAwait })
  | .second => .next (s.withRegs { s.regs with state := stCompute })

/-- SKIP (42_retry_fsm.md R147). -/
def execSkip (s : State) : Outcome := skipStep s

end Sys2Proof.Machine
end

