-- ==== Sys2Proof/Machine/Streams.lean ====
section
/-! DEFINITION. The words of the two streams as instructions: an event is one transfer on the output
stream, made by the step that emits it (30_encoding.md R74, log 7); a beat is one transfer on the
input stream, and a byte of a class is the beat that carries it (30_encoding.md R71, R76, log 6). -/

namespace Sys2Proof.Machine

/-- EV_ATTEMPT, emitted by ITER_BEGIN (30_encoding.md R74, 42_retry_fsm.md R142). -/
def execEvAttempt (data : Word) (s : State) : Outcome :=
  transferEvent ⟨.attempt, data⟩ iterBeginStep s

/-- EV_PROMPT, emitted by AWAIT (30_encoding.md R74, 42_retry_fsm.md R143). -/
def execEvPrompt (data : Word) (s : State) : Outcome :=
  transferEvent ⟨.prompt, data⟩ awaitStep s

/-- EV_VERR_NOTICE, emitted by VERR (30_encoding.md R74, 42_retry_fsm.md R144). -/
def execEvVerrNotice (data : Word) (s : State) : Outcome :=
  transferEvent ⟨.verrNotice, data⟩ verrStep s

/-- EV_OVERFLOW, emitted by COMPUTE (30_encoding.md R74, 42_retry_fsm.md R146). -/
def execEvOverflow (data : Word) (s : State) : Outcome :=
  transferEvent ⟨.overflow, data⟩ computeStep s

/-- EV_SKIP_NOTICE, emitted by SKIP (30_encoding.md R74, 42_retry_fsm.md R147). -/
def execEvSkipNotice (data : Word) (s : State) : Outcome :=
  transferEvent ⟨.skipNotice, data⟩ skipStep s

/-- EV_RUNNING_SUM, emitted by REPORT (30_encoding.md R74, 42_retry_fsm.md R148). -/
def execEvRunningSum (data : Word) (s : State) : Outcome :=
  transferEvent ⟨.runningSum, data⟩ reportStep s

/-- EV_FINAL_SUM, emitted by FINAL (30_encoding.md R74, 42_retry_fsm.md R150). -/
def execEvFinalSum (data : Word) (s : State) : Outcome :=
  transferEvent ⟨.finalSum, data⟩ finalStep s

/-- EV_RESERVED (30_encoding.md R78): "reserved and is never emitted". -/
def execEvReserved (_data : Word) (_s : State) : Outcome := .refused .reservedEvent

/-- BEAT_BYTE (30_encoding.md R71). -/
def execBeatByte (b : Byte) (s : State) : Outcome := receive (.byte b) s

/-- BEAT_EOF (30_encoding.md R71). -/
def execBeatEof (s : State) : Outcome := receive .eof s

/-- LF, 0x0A (30_encoding.md R76). -/
def execLf (s : State) : Outcome := receive (.byte 0x0A) s

/-- WS, 0x09 (30_encoding.md R76). -/
def execWsTab (s : State) : Outcome := receive (.byte 0x09) s

/-- WS, 0x0B (30_encoding.md R76). -/
def execWsVt (s : State) : Outcome := receive (.byte 0x0B) s

/-- WS, 0x0C and 0x0D (30_encoding.md R76). -/
def execWsFfCr (low : BitVec 1) (s : State) : Outcome :=
  receive (.byte (0x0C ||| low.setWidth 8)) s

/-- WS, 0x20 (30_encoding.md R76). -/
def execWsSpace (s : State) : Outcome := receive (.byte 0x20) s

/-- DIGIT, 0x30 to 0x37 (30_encoding.md R76). -/
def execDigitLow (value : BitVec 3) (s : State) : Outcome :=
  receive (.byte (0x30 ||| value.setWidth 8)) s

/-- DIGIT, 0x38 and 0x39 (30_encoding.md R76). -/
def execDigitHigh (low : BitVec 1) (s : State) : Outcome :=
  receive (.byte (0x38 ||| low.setWidth 8)) s

/-- PLUS, 0x2B (30_encoding.md R76). -/
def execPlus (s : State) : Outcome := receive (.byte 0x2B) s

/-- MINUS, 0x2D (30_encoding.md R76). -/
def execMinus (s : State) : Outcome := receive (.byte 0x2D) s

/-- OTHER (30_encoding.md R76). -/
def execOther (b : Byte) (s : State) : Outcome := receive (.byte b) s

end Sys2Proof.Machine
end

