-- ==== Sys2Proof/Machine/Dispatch.lean ====
section
/-! DEFINITION. One arm per constructor of Instr, in the order of spec/opcode_table.json. -/

namespace Sys2Proof.Machine

-- The effect of an instruction at a rising edge with rst = 0 (42_retry_fsm.md R141).
def exec (i : Instr) (s : State) : Host.Outcome State Fault Refusal :=
  match i with
  | .iterBegin => Sys2Proof.Machine.execIterBegin s
  | .await => Sys2Proof.Machine.execAwait s
  | .read => Sys2Proof.Machine.execRead s
  | .verr => Sys2Proof.Machine.execVerr s
  | .discard => Sys2Proof.Machine.execDiscard s
  | .accept => Sys2Proof.Machine.execAccept s
  | .compute => Sys2Proof.Machine.execCompute s
  | .skip => Sys2Proof.Machine.execSkip s
  | .report => Sys2Proof.Machine.execReport s
  | .iterDone => Sys2Proof.Machine.execIterDone s
  | .final => Sys2Proof.Machine.execFinal s
  | .done => Sys2Proof.Machine.execDone s
  | .reservedState low => Sys2Proof.Machine.execReservedState low s
  | .readLead => Sys2Proof.Machine.execReadLead s
  | .readSign => Sys2Proof.Machine.execReadSign s
  | .readDigits => Sys2Proof.Machine.execReadDigits s
  | .readReserved => Sys2Proof.Machine.execReadReserved s
  | .evAttempt data => Sys2Proof.Machine.execEvAttempt data s
  | .evPrompt data => Sys2Proof.Machine.execEvPrompt data s
  | .evVerrNotice data => Sys2Proof.Machine.execEvVerrNotice data s
  | .evOverflow data => Sys2Proof.Machine.execEvOverflow data s
  | .evSkipNotice data => Sys2Proof.Machine.execEvSkipNotice data s
  | .evRunningSum data => Sys2Proof.Machine.execEvRunningSum data s
  | .evFinalSum data => Sys2Proof.Machine.execEvFinalSum data s
  | .evReserved data => Sys2Proof.Machine.execEvReserved data s
  | .beatByte b => Sys2Proof.Machine.execBeatByte b s
  | .beatEof => Sys2Proof.Machine.execBeatEof s
  | .lf => Sys2Proof.Machine.execLf s
  | .wsTab => Sys2Proof.Machine.execWsTab s
  | .wsVt => Sys2Proof.Machine.execWsVt s
  | .wsFfCr low => Sys2Proof.Machine.execWsFfCr low s
  | .wsSpace => Sys2Proof.Machine.execWsSpace s
  | .digitLow value => Sys2Proof.Machine.execDigitLow value s
  | .digitHigh low => Sys2Proof.Machine.execDigitHigh low s
  | .plus => Sys2Proof.Machine.execPlus s
  | .minus => Sys2Proof.Machine.execMinus s
  | .other b => Sys2Proof.Machine.execOther b s
  | .add => Sys2Proof.Machine.execAdd s
  | .accum => Sys2Proof.Machine.execAccum s

end Sys2Proof.Machine
end

