-- ==== Sys2Proof/Machine/Step.lean ====
section
/-! DEFINITION. One rising edge of clk (42_retry_fsm.md R141), and the placing of a word where the
machine takes its next instruction from. -/

namespace Sys2Proof.Machine

/-- The instruction the machine runs next: the `state` register selects it (10_state.md R21). -/
def fetch (s : State) : Instr := decodeState s.regs.state

/-- One rising edge: a block with N_ITER = 0 does not exist (00_scope.md R8); with rst = 1 reset runs
and no step does (70_reset_and_hazards.md R240); with rst = 0 the step of the current state runs
(42_retry_fsm.md R141). Then the environment's next edge is at the ports. -/
def step (s : State) : Host.Outcome State Fault Refusal :=
  if s.cfg.nIter = 0 then .refused .noIterations
  else if s.pins.rst then .next s.resetRegs.advance
  else onNext State.advance (exec (fetch s) s)

/-- The environment grants both handshakes at the coming edge: ev_ready = 1, and the beat `b` is on
the input port (20_memory.md R51). -/
def State.grant (s : State) (b : Beat) : State :=
  { s with
    pins :=
      { rst := false, inValid := true, inEof := decide (b = .eof), evReady := true
        inData := match b with
          | .byte d => d
          | .eof => 0 } }

/-- The state of the machine whose next edge carries the beat `b`: READ, before any EOF. -/
def State.placeBeat (s : State) (b : Beat) : State :=
  (s.withRegs { s.regs with state := stRead, eofSeen := false }).grant b

/-- The state of the machine whose next edge carries the event: the state that presents it
(20_memory.md R56), with the registers its data comes from; of an ATTEMPT's data `iter` takes its
W_ITER bits (log 24). No state presents code 7. -/
def State.placeEvent (s : State) (code : BitVec 3) (data : Word) : State :=
  let r := s.regs
  let placed : Regs s.cfg :=
    match code.toNat with
    | 0 => { r with state := stIterBegin, iter := BitVec.ofNat _ data.toNat }
    | 1 => { r with state := stAwait, budget := if r.budget = 0 then 1 else r.budget }
    | 2 => { r with state := stVerr }
    | 3 => { r with state := stCompute, opA := BitVec.ofInt 64 int64Max, opB := 1 }
    | 4 => { r with state := stSkip }
    | 5 => { r with state := stReport, sum := data }
    | 6 => { r with state := stFinal, sum := data }
    | _ => r
  (s.withRegs placed).grant (.byte 0x0A)

/-- `s` with the word `w` of a row of `nbits` bits placed where the next edge takes it from: a state
code in `state`, a state_phase word in `state` and `rd_phase`, a byte or a beat on the input port of a
machine in READ, an event in the state that presents it; and both handshakes granted, so that the
very next edge runs it (log 18). -/
def State.withFetchWord (s : State) (nbits w : Nat) : State :=
  match tableFormat nbits w with
  | .state => (s.withRegs { s.regs with state := BitVec.ofNat 4 w }).grant (.byte 0x0A)
  | .statePhase =>
    (s.withRegs { s.regs with state := BitVec.ofNat 4 (w / 4), rdPhase := BitVec.ofNat 2 w }).grant
      (.byte 0x0A)
  | .byteClass => s.placeBeat (.byte (BitVec.ofNat 8 w))
  | .beat => s.placeBeat (if w / 256 % 2 = 1 then .eof else .byte (BitVec.ofNat 8 w))
  | .event => s.placeEvent (BitVec.ofNat 3 (w / 2 ^ 64)) (BitVec.ofNat 64 w)

end Sys2Proof.Machine
end

