-- ==== Sys2Proof/Safety.lean ====
section
/-! DEFINITION. What the claims are stated in: the invariant over the reachable states (10_state.md
R40, with the facts it rests on), what an environment does over several edges, and the contribution
of an edge to the running sum (00_scope.md R17). -/

namespace Sys2Proof.Machine

/-- The invariant of 10_state.md R40 and the facts about single states that make every step keep it. -/
structure Inv (s : State) : Prop where
  /-- N_ITER ≥ 1 (00_scope.md R8). -/
  iterations : s.cfg.nIter ≠ 0
  /-- No reserved state code (42_retry_fsm.md R152). -/
  legalState : s.regs.state.toNat ≤ 0xB
  /-- rd_phase is never 3 (30_encoding.md R73). -/
  legalPhase : s.regs.rdPhase ≠ 3
  /-- 1 ≤ iter ≤ N_ITER except in FINAL and DONE (R40). -/
  iterRunning : s.regs.state ≠ stFinal → s.regs.state ≠ stDone →
    1 ≤ s.regs.iter.toNat ∧ s.regs.iter.toNat ≤ s.cfg.nIter
  /-- iter = 0 in FINAL and DONE (R40). -/
  iterEnded : s.regs.state = stFinal ∨ s.regs.state = stDone → s.regs.iter = 0
  /-- budget ≤ N_ATTEMPTS (R40). -/
  budgetBound : s.regs.budget.toNat ≤ s.cfg.nAttempts
  /-- Outside READ the reader registers are LEAD, 0 and 0 (R40). -/
  readerIdle : s.regs.state ≠ stRead →
    s.regs.rdPhase = phLead ∧ s.regs.rdNeg = false ∧ s.regs.rdMag = 0
  /-- Before a token nothing has been read (43_token_reader.md R180). -/
  leadClear : s.regs.rdPhase = phLead → s.regs.rdNeg = false ∧ s.regs.rdMag = 0
  /-- After a sign no digit has been read (43_token_reader.md R184). -/
  signClear : s.regs.rdPhase = phSign → s.regs.rdMag = 0
  /-- rd_mag ≤ 2^63 - 1 + rd_neg (R40). -/
  magBound : s.regs.rdMag.toNat ≤ limit s.regs.rdNeg
  /-- After EOF every read is decided in LEAD (43_token_reader.md R189). -/
  eofLead : s.regs.eofSeen = true → s.regs.rdPhase = phLead
  /-- READ is entered only with a budget (42_retry_fsm.md R144). -/
  readBudget : s.regs.state = stRead → s.regs.budget ≠ 0
  /-- VERR never runs with budget = 0 (10_state.md R23). -/
  verrBudget : s.regs.state = stVerr → s.regs.budget ≠ 0
  /-- In DISCARD, rd_disc = 1 and eof_seen = 0 (R40). -/
  discardPending : s.regs.state = stDiscard → s.regs.rdDisc = true ∧ s.regs.eofSeen = false
  /-- VERR follows a failed verdict (43_token_reader.md R188). -/
  verrFailed : s.regs.state = stVerr → s.regs.rdOk = false
  /-- A failed read with bytes left to discard has met no EOF (43_token_reader.md R188). -/
  verrPending : s.regs.state = stVerr → s.regs.rdDisc = true → s.regs.eofSeen = false
  /-- COMPUTE follows the acceptance of the second operand (42_retry_fsm.md R145). -/
  computeSlot : s.regs.state = stCompute → s.regs.slot = .second

/-- The coming edges the script speaks of, the next one first (log 3). -/
def State.edges (s : State) : List Pins := s.pins :: s.script

/-- At the next edges the environment offers the beats `bs`, one an edge, without reset. -/
abbrev OffersBeats (bs : List Beat) (s : State) : Prop :=
  (s.edges.take bs.length).map (fun p => (p.rst, p.offered)) = bs.map fun b => (false, some b)

/-- At the next `n` edges the environment offers the beats `bs` in order, each one until it is
transferred, and accepts every event, without reset (20_memory.md R52, R55). -/
def feeds : Nat → List Beat → State → Bool
  | 0, _, _ => true
  | n + 1, bs, s =>
    !s.pins.rst && (s.pins.evReady || (presented s.regs).isNone) &&
      (bs.isEmpty || s.pins.offered == bs.head?) &&
      match step s with
      | .next t => feeds n (if (inputTransfer s).isSome then bs.tail else bs) t
      | .fault _ => true
      | .refused _ => true

/-- At the next `n` edges the environment accepts every event, without reset. -/
abbrev AcceptsFor (n : Nat) (s : State) : Prop :=
  n ≤ s.edges.length ∧ ∀ p ∈ s.edges.take n, p.rst = false ∧ p.evReady = true

/-- None of the next `n` edges is a reset edge. -/
abbrev NoResetFor (n : Nat) (s : State) : Prop :=
  ∀ p ∈ s.edges.take n, p.rst = false

/-- A read begins: READ in phase LEAD with nothing read and no EOF seen (43_token_reader.md R180). -/
abbrev ReadStarts {c : Params} (r : Regs c) : Prop :=
  r.state = stRead ∧ r.rdPhase = phLead ∧ r.rdNeg = false ∧ r.rdMag = 0 ∧ r.eofSeen = false

/-- A blank ends the line's token, so the rest of the line is still to be discarded
(43_token_reader.md R188). -/
def blankEndsToken (line : List Byte) : Bool := (line.dropWhile isBlank).any isBlank

/-- A read of the line fails at its terminator only: the line is blank, or has a lone sign for its token
with nothing after it (43_token_reader.md R183, R184). -/
def failsAtTerminator (line : List Byte) : Bool :=
  decide (line.dropWhile isBlank ∈ [[], [0x2B], [0x2D]])

/-- COMPUTE's step runs at this edge (42_retry_fsm.md R141, R146). -/
def computes (s : State) : Bool :=
  !s.pins.rst && s.regs.state == stCompute && (!addOvf s.regs.opA s.regs.opB || s.pins.evReady)

/-- What this edge adds to the contributions: the ADD value if COMPUTE runs (00_scope.md R17). A
skipped iteration contributes 0. -/
def contribution (s : State) : Int :=
  if computes s then (addValue s.regs.opA s.regs.opB).toInt else 0

/-- The sum of the contributions of the next `n` edges (41_accumulator.md R124). -/
def contributions : Nat → State → Int
  | 0, _ => 0
  | n + 1, s =>
    contribution s +
      match step s with
      | .next t => contributions n t
      | .fault _ => 0
      | .refused _ => 0

/-- The edges that finish a session once end-of-input was seen and every event is accepted: each
iteration takes at most ITER_BEGIN, AWAIT, READ, VERR for each attempt of a slot, and ACCEPT or the
exhausted AWAIT with SKIP, REPORT and ITER_DONE; then FINAL (42_retry_fsm.md R155). -/
def eofBound (c : Params) : Nat := c.nIter * (3 * c.nAttempts + 5) + 1

/-- The edges still to come from here, under the same conditions: three for each attempt left, then
SKIP or COMPUTE, REPORT and ITER_DONE; the later iterations; and FINAL. -/
def edgesLeft {c : Params} (r : Regs c) : Nat :=
  let later := (r.iter.toNat - 1) * (3 * c.nAttempts + 5) + 1
  match decodeState r.state with
  | .iterBegin => 3 * c.nAttempts + 5 + later
  | .await => 3 * r.budget.toNat + 4 + later
  | .read => 3 * r.budget.toNat + 3 + later
  | .verr => 3 * r.budget.toNat + 2 + later
  | .accept => (if r.slot = .first then 3 * c.nAttempts + 5 else 4) + later
  | .compute => 3 + later
  | .skip => 3 + later
  | .report => 2 + later
  | .iterDone => 1 + later
  | .final => 1
  | _ => 0

/-! What the words of the streams carry. -/

/-- The beat an instruction of the formats beat and byte_class carries (30_encoding.md R71, R76). -/
def carriedBeat : Instr → Option Beat
  | .beatByte b => some (.byte b)
  | .beatEof => some .eof
  | .lf => some (.byte 0x0A)
  | .wsTab => some (.byte 0x09)
  | .wsVt => some (.byte 0x0B)
  | .wsFfCr low => some (.byte (BitVec.ofNat 8 (0x0C + low.toNat)))
  | .wsSpace => some (.byte 0x20)
  | .digitLow value => some (.byte (BitVec.ofNat 8 (0x30 + value.toNat)))
  | .digitHigh low => some (.byte (BitVec.ofNat 8 (0x38 + low.toNat)))
  | .plus => some (.byte 0x2B)
  | .minus => some (.byte 0x2D)
  | .other b => some (.byte b)
  | _ => none

/-- The event an instruction of the format event carries; the reserved code carries none
(30_encoding.md R74, R78). -/
def carriedEvent : Instr → Option Event
  | .evAttempt data => some ⟨.attempt, data⟩
  | .evPrompt data => some ⟨.prompt, data⟩
  | .evVerrNotice data => some ⟨.verrNotice, data⟩
  | .evOverflow data => some ⟨.overflow, data⟩
  | .evSkipNotice data => some ⟨.skipNotice, data⟩
  | .evRunningSum data => some ⟨.runningSum, data⟩
  | .evFinalSum data => some ⟨.finalSum, data⟩
  | _ => none

/-- A step that calls Take gets the beat `b` at this edge, and `taken` is the transfer log after it:
the sticky EOF without a transfer, or the beat transferred (20_memory.md R54). -/
abbrev Takes (s : State) (b : Beat) (taken : List Beat) : Prop :=
  (s.regs.eofSeen = true ∧ b = .eof ∧ taken = s.taken) ∨
    (s.regs.eofSeen = false ∧ s.pins.offered = some b ∧ taken = s.taken ++ [b])

/-- The instruction is a READ step, or a beat that may be one. -/
def isReaderInstr (i : Instr) : Bool :=
  i == .read || i == .readLead || i == .readSign || i == .readDigits || (carriedBeat i).isSome

/-! The event sequence of a session (42_retry_fsm.md R153). -/

/-- (PROMPT VERR_NOTICE)^j: `j` failed reads. -/
def failedReads (j : Nat) : List Event :=
  (List.replicate j [(⟨.prompt, 0⟩ : Event), ⟨.verrNotice, 0⟩]).flatten

/-- ok: `j` failed reads and a successful one. -/
def okReads (j : Nat) : List Event := failedReads j ++ [⟨.prompt, 0⟩]

/-- body: ok ok [OVERFLOW], or fail SKIP_NOTICE, or ok fail SKIP_NOTICE, taking the running sum from
`before` to `after`, which an overflow and a skip leave alone (R146, R147). -/
def IsBody (attempts : Nat) (before after : Word) (l : List Event) : Prop :=
  (∃ j k, j < attempts ∧ k < attempts ∧
    (l = okReads j ++ okReads k ∨
      (l = okReads j ++ okReads k ++ [⟨.overflow, 0⟩] ∧ after = before))) ∨
  (after = before ∧
    (l = failedReads attempts ++ [⟨.skipNotice, 0⟩] ∨
      ∃ j, j < attempts ∧ l = okReads j ++ failedReads attempts ++ [⟨.skipNotice, 0⟩]))

/-- The event of ITER_BEGIN in the iteration before which `n` are complete: ATTEMPT(N_ITER - n). -/
def attemptEvent (c : Params) (n : Nat) : Event :=
  ⟨.attempt, zext64 (BitVec.ofNat c.wIter (c.nIter - n))⟩

/-- iteration(N_ITER) and so on: the first `n` iterations, where iteration(k) is
ATTEMPT(k) body RUNNING_SUM(s_k), and `sum` is the running sum after them. -/
def IsIterations (c : Params) : Nat → Word → List Event → Prop
  | 0, sum, l => sum = 0 ∧ l = []
  | n + 1, sum, l => ∃ before earlier body, IsIterations c n before earlier ∧
      IsBody c.nAttempts before sum body ∧
      l = earlier ++ attemptEvent c n :: body ++ [⟨.runningSum, sum⟩]

/-- session: iteration(N_ITER) … iteration(1) FINAL_SUM(s), with the last running sum for s (R150). -/
def IsSession (c : Params) (l : List Event) : Prop :=
  ∃ sum earlier, IsIterations c c.nIter sum earlier ∧ l = earlier ++ [⟨.finalSum, sum⟩]

/-- The events of the current iteration after ATTEMPT, in its slots: `here` is what the current slot
has sent, and in the second slot an ok of the first one stands before it. -/
def IsSlotPrefix (attempts : Nat) (slot : Slot) (here l : List Event) : Prop :=
  match slot with
  | .first => l = here
  | .second => ∃ j, j < attempts ∧ l = okReads j ++ here

/-- What an iteration in progress has sent after ATTEMPT, by the state it is in: the failed reads of the
slot, and the prompt of a read that is going on or has succeeded. -/
def IsBodyPrefix {c : Params} (r : Regs c) (l : List Event) : Prop :=
  let failed := failedReads (c.nAttempts - r.budget.toNat)
  let prompted := failed ++ [⟨.prompt, 0⟩]
  match decodeState r.state with
  | .await => IsSlotPrefix c.nAttempts r.slot failed l
  | .read => r.budget ≠ 0 ∧ IsSlotPrefix c.nAttempts r.slot prompted l
  | .verr => r.budget ≠ 0 ∧ IsSlotPrefix c.nAttempts r.slot prompted l
  | .discard =>
    if r.rdOk then r.budget ≠ 0 ∧ IsSlotPrefix c.nAttempts r.slot prompted l
    else IsSlotPrefix c.nAttempts r.slot failed l
  | .accept => r.budget ≠ 0 ∧ IsSlotPrefix c.nAttempts r.slot prompted l
  | .compute => r.budget ≠ 0 ∧ IsSlotPrefix c.nAttempts .second prompted l
  | .skip => r.budget = 0 ∧ IsSlotPrefix c.nAttempts r.slot failed l
  | _ => False

/-- The events delivered are the part of a session that the block's state, slot, budget and iter say
it has come through. -/
def SessionSoFar (s : State) : Prop :=
  let n := s.cfg.nIter - s.regs.iter.toNat
  match decodeState s.regs.state with
  | .iterBegin => IsIterations s.cfg n s.regs.sum s.delivered
  | .report => ∃ before earlier body, IsIterations s.cfg n before earlier ∧
      IsBody s.cfg.nAttempts before s.regs.sum body ∧
      s.delivered = earlier ++ attemptEvent s.cfg n :: body
  | .iterDone => IsIterations s.cfg (n + 1) s.regs.sum s.delivered
  | .final => IsIterations s.cfg n s.regs.sum s.delivered
  | .done => IsSession s.cfg s.delivered
  | _ => ∃ earlier body, IsIterations s.cfg n s.regs.sum earlier ∧ IsBodyPrefix s.regs body ∧
      s.delivered = earlier ++ attemptEvent s.cfg n :: body

/-! The events of a session as a function of its input: R153 with the lines of 43_token_reader.md R181
and R191, the overflow test of R107 and the sums of 41_accumulator.md R120. -/

/-- The next line of the input without its terminator, and what follows it: nothing follows EOF, and
where the input has ended the line is empty (20_memory.md R54, 43_token_reader.md R191). -/
def nextLine : List Beat → List Byte × List Beat
  | [] => ([], [])
  | .eof :: _ => ([], [])
  | .byte b :: rest =>
    if b = 0x0A then ([], rest) else (b :: (nextLine rest).1, (nextLine rest).2)

/-- One slot with this many attempts: its events, its operand if a line gives one, and the input left. -/
def slotSession : Nat → List Beat → List Event × Option Int × List Beat
  | 0, input => ([], none, input)
  | attempts + 1, input =>
    let (line, rest) := nextLine input
    match lineValue line with
    | some v => ([⟨.prompt, 0⟩], some v, rest)
    | none =>
      let (events, v, left) := slotSession attempts rest
      (⟨.prompt, 0⟩ :: ⟨.verrNotice, 0⟩ :: events, v, left)

/-- The body of one iteration: its events, the running sum after it, and the input left. -/
def bodySession (attempts : Nat) (sum : Word) (input : List Beat) : List Event × Word × List Beat :=
  match slotSession attempts input with
  | (first, none, left) => (first ++ [⟨.skipNotice, 0⟩], sum, left)
  | (first, some a, rest) =>
    match slotSession attempts rest with
    | (second, none, left) => (first ++ second ++ [⟨.skipNotice, 0⟩], sum, left)
    | (second, some b, left) =>
      if InInt64 (a + b) then (first ++ second, BitVec.ofInt 64 (sum.toInt + (a + b)), left)
      else (first ++ second ++ [⟨.overflow, 0⟩], sum, left)

/-- The events of the last `n` iterations and the end of a session. -/
def sessionEvents (c : Params) : Nat → Word → List Beat → List Event
  | 0, sum, _ => [⟨.finalSum, sum⟩]
  | n + 1, sum, input =>
    let (body, after, left) := bodySession c.nAttempts sum input
    ⟨.attempt, zext64 (BitVec.ofNat c.wIter (n + 1))⟩ :: body ++
      ⟨.runningSum, after⟩ :: sessionEvents c n after left

/-! Operands of an earlier iteration (10_state.md R25). -/

/-- opA has been written in this iteration: COMPUTE, or the second slot, or the first one's success. -/
def holdsFirst {c : Params} (r : Regs c) : Prop :=
  match decodeState r.state with
  | .await => r.slot = .second
  | .read => r.slot = .second
  | .verr => r.slot = .second
  | .discard => r.slot = .second ∨ r.rdOk = true
  | .accept => True
  | .compute => True
  | _ => False

/-- opB has been written in this iteration: COMPUTE, or the second slot's success. -/
def holdsSecond {c : Params} (r : Regs c) : Prop :=
  match decodeState r.state with
  | .discard => r.slot = .second ∧ r.rdOk = true
  | .accept => r.slot = .second
  | .compute => True
  | _ => False

/-- The second state is the first but for operands that this iteration has not written. -/
def AgreeButStaleOperands (s s' : State) : Prop :=
  ∃ a b : Word, s' = { s with regs := { s.regs with opA := a, opB := b } } ∧
    (holdsFirst s.regs → a = s.regs.opA) ∧ (holdsSecond s.regs → b = s.regs.opB)

/-- The machine right after a reset edge, in any environment, with nothing delivered yet
(70_reset_and_hazards.md R240, R241). -/
abbrev SessionStarts (s : State) : Prop :=
  s.cfg.nIter ≠ 0 ∧ s.regs = Regs.reset s.cfg ∧ s.delivered = []

/-! A bound on the events still to come (42_retry_fsm.md R154). -/

/-- The most events of one iteration: 4 · N_ATTEMPTS + 2, and 3 when N_ATTEMPTS = 0. -/
def iterationEvents (c : Params) : Nat := if c.nAttempts = 0 then 3 else 4 * c.nAttempts + 2

/-- The most events from AWAIT to the end of the iteration, with this budget in this slot. -/
def slotEvents (c : Params) (slot : Slot) (budget : Nat) : Nat :=
  match slot with
  | .first => if budget = 0 then 2 else 2 * budget + 2 * c.nAttempts + 1
  | .second => 2 * budget + 2

/-- The most events from ACCEPT to the end of the iteration. -/
def acceptedEvents (c : Params) : Slot → Nat
  | .first => 2 * c.nAttempts + 2
  | .second => 2

/-- The most events the session can still emit. -/
def eventsLeft {c : Params} (r : Regs c) : Nat :=
  let later := (r.iter.toNat - 1) * iterationEvents c + 1
  match decodeState r.state with
  | .iterBegin => iterationEvents c + later
  | .await => slotEvents c r.slot r.budget.toNat + later
  | .read => slotEvents c r.slot r.budget.toNat - 1 + later
  | .verr => slotEvents c r.slot r.budget.toNat - 1 + later
  | .discard =>
    (if r.rdOk then acceptedEvents c r.slot else slotEvents c r.slot r.budget.toNat) + later
  | .accept => acceptedEvents c r.slot + later
  | .compute => 2 + later
  | .skip => 2 + later
  | .report => 1 + later
  | .iterDone => later
  | .final => 1
  | _ => 0

end Sys2Proof.Machine
end

