-- ==== Sys2Proof/Certificates/Slice0/Obligations.lean ====
section
/-! DEFINITION. The statements for the provers. Each formalises what a numbered rule of spec/ says the
block does, in the terms of Machine and Safety. -/

open Sys2Proof Sys2Proof.Machine

/-! Encodings. -/

/-- 30_encoding.md R70 to R76: every well-formed instruction but ADD and ACCUM is read back from its
word. ADD and ACCUM have no word of their own (40_adder.md R100, 41_accumulator.md R120: "Encoding:
none"): that they encode to COMPUTE's word, which decodes to COMPUTE, is the model's choice (log 12). -/
def Obligations.DecodeEncodeAgree : Prop :=
  (∀ i : Instr, i.wellFormed = true → i ≠ .add → i ≠ .accum → decode (encode i) = .ok i) ∧
  decode (encode .add) = .ok .compute ∧ decode (encode .accum) = .ok .compute

/-- The other direction: a word that decodes is the encoding of what it decodes to, but that every EOF
beat is the same beat (30_encoding.md R71), and that a state_phase word outside READ is the step its
state code selects (R70). That the one EOF beat is written with in_data 0, that such a step is written
in the format state, and that an event word decodes by its code alone, whatever data it carries, are the
model's choices (log 20). -/
def Obligations.EncodeDecodeAgree : Prop :=
  ∀ (w : CodeWord) (i : Instr), decode w = .ok i →
    encode i =
      if i = .beatEof then ⟨.beat, 0x100⟩
      else if w.format = .statePhase ∧ w.bits / 4 ≠ 0x2 then ⟨.state, w.bits / 4⟩
      else w

/-- 30_encoding.md R70: every word that fits its format decodes, the steps are selected by the state
code and, in READ, by rd_phase, and a number too wide for its format is rejected. -/
def Obligations.EveryWordOfAFormatDecodes : Prop :=
  ∀ w : CodeWord,
    (w.bits < 2 ^ w.format.width → ∃ i, decode w = .ok i) ∧
    (2 ^ w.format.width ≤ w.bits → decode w = .error (.tooWide w.format)) ∧
    (w.format = .statePhase → w.bits / 4 ≠ 0x2 → w.bits < 2 ^ 6 →
      decode w = decode ⟨.state, w.bits / 4⟩)

/-- 30_encoding.md R76: the classes, by their bytes, in the token reader and in the decoder. -/
def Obligations.ByteClassesAreTheTable : Prop :=
  ∀ b : Byte,
    let lf := b = 0x0A
    let ws := b = 0x09 ∨ b = 0x0B ∨ b = 0x0C ∨ b = 0x0D ∨ b = 0x20
    let digit := 0x30 ≤ b.toNat ∧ b.toNat ≤ 0x39
    let other := ¬lf ∧ ¬ws ∧ ¬digit ∧ b ≠ 0x2B ∧ b ≠ 0x2D
    (classify b = .lf ↔ lf) ∧ (classify b = .ws ↔ ws) ∧
    (∀ d, classify b = .digit d ↔ digit ∧ d = b.toNat - 0x30) ∧
    (classify b = .plus ↔ b = 0x2B) ∧ (classify b = .minus ↔ b = 0x2D) ∧
    (classify b = .other ↔ other) ∧
    (decodeByteClass b = .lf ↔ lf) ∧
    (decodeByteClass b ∈ [.wsTab, .wsVt, .wsFfCr 0, .wsFfCr 1, .wsSpace] ↔ ws) ∧
    ((∃ v, decodeByteClass b = .digitLow v ∧ b.toNat = 0x30 + v.toNat) ∨
      (∃ v, decodeByteClass b = .digitHigh v ∧ b.toNat = 0x38 + v.toNat) ↔ digit) ∧
    (decodeByteClass b = .plus ↔ b = 0x2B) ∧ (decodeByteClass b = .minus ↔ b = 0x2D) ∧
    (decodeByteClass b = .other b ↔ other)

/-- Words written out from 30_encoding.md R71 to R76 (95_test_vectors.md §3), one or two a format. -/
def Obligations.WrittenOutWordsDecode : Prop :=
  decode ⟨.state, 0b0010⟩ = .ok .read ∧ decode ⟨.state, 0b1011⟩ = .ok .done ∧
  decode ⟨.state, 0b1100⟩ = .ok (.reservedState 0) ∧
  decode ⟨.statePhase, 0b001010⟩ = .ok .readDigits ∧
  decode ⟨.statePhase, 0b001100⟩ = .ok .verr ∧
  decode ⟨.event, 0x5FFFFFFFFFFFFFFFF⟩ = .ok (.evRunningSum 0xFFFFFFFFFFFFFFFF) ∧
  decode ⟨.beat, 0b100110101⟩ = .ok .beatEof ∧
  decode ⟨.beat, 0b000110101⟩ = .ok (.beatByte 0x35) ∧
  decode ⟨.byteClass, 0b00110101⟩ = .ok (.digitLow 5) ∧
  decode ⟨.byteClass, 0b10110000⟩ = .ok (.other 0xB0)

/-! The edge. -/

/-- 10_state.md R21, 42_retry_fsm.md R141: with rst = 0 the step of the instruction that `state`
decodes to runs, and then the environment's next edge is at the ports; a stop is the step's stop. -/
def Obligations.StepRunsTheSelectedInstruction : Prop :=
  ∀ (s : State) (i : Instr), s.cfg.nIter ≠ 0 → s.pins.rst = false →
    decode ⟨.state, s.regs.state.toNat⟩ = .ok i →
    step s = match exec i s with
      | .next t => .next { t with pins := t.script.headD Pins.idle, script := t.script.tail }
      | .fault r => .fault r
      | .refused r => .refused r

/-- 70_reset_and_hazards.md R240 with the table of 10_state.md R39: at an edge with rst = 1 every
register takes its reset value in every state, the counters hold N_ITER and N_ATTEMPTS exactly, nothing
is transferred, a second reset edge changes no register further, and in_ready and ev_valid are 0. -/
def Obligations.ResetEdgeWritesResetValues : Prop :=
  (∀ s : State, s.cfg.nIter ≠ 0 → s.pins.rst = true →
    ∃ (iter : BitVec s.cfg.wIter) (budget : BitVec s.cfg.wBud),
      iter.toNat = s.cfg.nIter ∧ budget.toNat = s.cfg.nAttempts ∧
      step s = .next { s with
        regs := ⟨0x0, iter, budget, .first, 0, 0, 0, false, 0, false, 0, false, false, false⟩
        pins := s.script.headD Pins.idle, script := s.script.tail }) ∧
  (∀ s t : State, step s = .next t → s.pins.rst = true → t.pins.rst = true →
    step t = .next { t with pins := t.script.headD Pins.idle, script := t.script.tail }) ∧
  ∀ (c : Params) (r : Regs c), (outputs true r).inReady = false ∧ (outputs true r).evValid = false

/-- 10_state.md R39 for the default block (00_scope.md R8, R9): the state after reset. -/
def Obligations.ResetStateOfTheDefaultBlock : Prop :=
  State.reset.regs =
    ⟨0x0, 3, 3, .first, 0, 0, 0, false, 0, false, 0, false, false, false⟩

/-- 00_scope.md R8: N_ITER is 3 by default, and a configuration with N_ITER = 0 is refused. -/
def Obligations.NoIterationsIsRefused : Prop :=
  State.reset.cfg.nIter = 3 ∧ ∀ s : State, s.cfg.nIter = 0 → step s = .refused .noIterations

/-! The steps of the iteration. -/

/-- 42_retry_fsm.md R142. The data is zext_64(iter), stated where that is defined (iter below 2^64);
the budget register holds N_ATTEMPTS exactly. -/
def Obligations.IterBeginStartsAnIteration : Prop :=
  ∀ s : State, s.pins.evReady = true →
    ∃ (data : Word) (full : BitVec s.cfg.wBud),
      (s.regs.iter.toNat < 2 ^ 64 → data.toNat = s.regs.iter.toNat) ∧ full.toNat = s.cfg.nAttempts ∧
      exec .iterBegin s = .next { s with
        regs := { s.regs with budget := full, slot := .first, state := 0x1 }
        delivered := s.delivered ++ [⟨.attempt, data⟩] }

/-- 42_retry_fsm.md R143: the exhausted budget needs no handshake and no event; a prompt does. -/
def Obligations.AwaitTestsTheBudget : Prop :=
  ∀ s : State,
    (s.regs.budget = 0 → exec .await s = .next { s with regs := { s.regs with state := 0x7 } }) ∧
    (s.regs.budget ≠ 0 → s.pins.evReady = true →
      exec .await s = .next { s with
        regs := { s.regs with state := 0x2 }
        delivered := s.delivered ++ [⟨.prompt, 0⟩] })

/-- 42_retry_fsm.md R144: one notice, one attempt charged (budget ≥ 1 "here"; at 0, where the rule
states no value, some value of the register: log 11), then the discard if bytes are left. -/
def Obligations.VerrChargesTheBudget : Prop :=
  ∀ s : State, s.pins.evReady = true →
    ∃ left : BitVec s.cfg.wBud,
      (1 ≤ s.regs.budget.toNat → left.toNat = s.regs.budget.toNat - 1) ∧
      exec .verr s = .next { s with
        regs := { s.regs with
          budget := left
          state := if s.regs.rdDisc = true then 0x4 else 0x1 }
        delivered := s.delivered ++ [⟨.verrNotice, 0⟩] }

/-- 42_retry_fsm.md R145: a full budget for the second slot, whatever the first used; then COMPUTE. -/
def Obligations.AcceptAdvancesTheSlot : Prop :=
  ∀ s : State,
    (s.regs.slot = .first → ∃ full : BitVec s.cfg.wBud, full.toNat = s.cfg.nAttempts ∧
      exec .accept s = .next { s with
        regs := { s.regs with budget := full, slot := .second, state := 0x1 } }) ∧
    (s.regs.slot = .second → exec .accept s = .next { s with
      regs := { s.regs with state := 0x6 } })

/-- 42_retry_fsm.md R146 with ADD (40_adder.md R100, R102) and ACCUM (41_accumulator.md R120) in exact
integers: an in-range pair sum is added with wrap-around and the sticky flag and needs no handshake;
an out-of-range one is reported once, leaves the sum alone, and waits for ev_ready. -/
def Obligations.ComputeAccumulatesThePair : Prop :=
  ∀ s : State,
    let pair := s.regs.opA.toInt + s.regs.opB.toInt
    let total := s.regs.sum.toInt + pair
    (InInt64 pair → exec .compute s = .next { s with
      regs := { s.regs with
        sum := BitVec.ofInt 64 total
        accWrap := s.regs.accWrap || !decide (InInt64 total)
        state := 0x8 } }) ∧
    (¬InInt64 pair → s.pins.evReady = true → exec .compute s = .next { s with
      regs := { s.regs with state := 0x8 }
      delivered := s.delivered ++ [⟨.overflow, 0⟩] }) ∧
    (¬InInt64 pair → s.pins.evReady = false → exec .compute s = .next s)

/-- 42_retry_fsm.md R147, R148, R150: SKIP, REPORT and FINAL send their event and write `state` only. -/
def Obligations.SkipReportAndFinalSendTheirEvent : Prop :=
  ∀ s : State, s.pins.evReady = true →
    exec .skip s = .next { s with
      regs := { s.regs with state := 0x8 }, delivered := s.delivered ++ [⟨.skipNotice, 0⟩] } ∧
    exec .report s = .next { s with
      regs := { s.regs with state := 0x9 }
      delivered := s.delivered ++ [⟨.runningSum, s.regs.sum⟩] } ∧
    exec .final s = .next { s with
      regs := { s.regs with state := 0xB }
      delivered := s.delivered ++ [⟨.finalSum, s.regs.sum⟩] }

/-- 42_retry_fsm.md R149: iter counts down and 0 ends the session (iter ≥ 1 "here"). At 0 the rule
states no value: that the step then leaves some value of the register, which the end test reads, is the
model's choice (log 11). -/
def Obligations.IterDoneCountsDown : Prop :=
  ∀ s : State,
    ∃ left : BitVec s.cfg.wIter,
      (1 ≤ s.regs.iter.toNat → left.toNat = s.regs.iter.toNat - 1) ∧
      exec .iterDone s = .next { s with
        regs := { s.regs with iter := left, state := if left = 0 then 0xA else 0x0 } }

/-- 42_retry_fsm.md R151: DONE holds every register at every edge with rst = 0 whatever is offered,
with done = 1, exit_status = 0, in_ready = 0 and ev_valid = 0. -/
def Obligations.DoneHoldsEverything : Prop :=
  ∀ s : State,
    exec .done s = .next s ∧
    (s.cfg.nIter ≠ 0 → s.regs.state = 0xB → s.pins.rst = false →
      step s = .next { s with pins := s.script.headD Pins.idle, script := s.script.tail } ∧
      (outputs false s.regs).done = true ∧ (outputs false s.regs).exitStatus = 0x00 ∧
      (outputs false s.regs).inReady = false ∧ (outputs false s.regs).evValid = false)

/-- 42_retry_fsm.md R152, 30_encoding.md R78: the reserved state codes and the reserved phase are
stuck, with rst = 0. The model's choices: that READ in the reserved phase is stuck whether or not a beat
is offered, and a beat or byte row arriving there too (log 9); and that the reserved event, which a
consumer "may refuse", is refused (log 10). -/
def Obligations.ReservedCodesAreStuck : Prop :=
  ∀ s : State,
    (∀ low, exec (.reservedState low) s = .fault .reservedState) ∧
    exec .readReserved s = .fault .reservedPhase ∧
    (s.regs.rdPhase = 3 → exec .read s = .fault .reservedPhase) ∧
    (∀ i b, carriedBeat i = some b → s.regs.state = 0x2 → s.regs.rdPhase = 3 →
      s.regs.eofSeen = false → exec i s = .fault .reservedPhase) ∧
    (∀ data, exec (.evReserved data) s = .refused .reservedEvent) ∧
    (0xC ≤ s.regs.state.toNat → (outputs false s.regs).done = false ∧
      (s.cfg.nIter ≠ 0 → s.pins.rst = false → step s = .fault .reservedState)) ∧
    (s.cfg.nIter ≠ 0 → s.pins.rst = false → s.regs.state = 0x2 → s.regs.rdPhase = 3 →
      step s = .fault .reservedPhase)

/-- 20_memory.md R55, 42_retry_fsm.md R141: with ev_ready = 0 an emitting step holds all of the
block's state. (COMPUTE's wait is in ComputeAccumulatesThePair.) -/
def Obligations.EmittingStepsWait : Prop :=
  ∀ s : State, s.pins.evReady = false →
    (∀ i ∈ [Instr.iterBegin, .verr, .skip, .report, .final], exec i s = .next s) ∧
    (s.regs.budget ≠ 0 → exec .await s = .next s)

/-! The token reader. -/

/-- 43_token_reader.md R183 (with R188 for the verdicts): READ.LEAD, and READ in phase LEAD, on every
beat it can take. -/
def Obligations.ReadLeadOnEveryBeat : Prop :=
  ∀ (i : Instr) (s : State) (b : Beat) (taken : List Beat),
    i = .readLead ∨ (i = .read ∧ s.regs.rdPhase = 0) → Takes s b taken →
    let fail (disc eof : Bool) : Regs s.cfg := { s.regs with
      rdOk := false, rdDisc := disc, rdPhase := 0, rdNeg := false, rdMag := 0, state := 0x3
      eofSeen := eof }
    (b = .eof → exec i s = .next { s with taken := taken, regs := fail false true }) ∧
    ∀ c : Byte, b = .byte c →
      (classify c = .ws → exec i s = .next { s with taken := taken }) ∧
      (c = 0x0A → exec i s = .next { s with taken := taken, regs := fail false false }) ∧
      (c = 0x2B → exec i s = .next { s with
        taken := taken, regs := { s.regs with rdPhase := 1, rdNeg := false } }) ∧
      (c = 0x2D → exec i s = .next { s with
        taken := taken, regs := { s.regs with rdPhase := 1, rdNeg := true } }) ∧
      (∀ d, classify c = .digit d → exec i s = .next { s with
        taken := taken, regs := { s.regs with rdPhase := 2, rdMag := BitVec.ofNat 64 d } }) ∧
      (classify c = .other → exec i s = .next { s with taken := taken, regs := fail true false })

/-- 43_token_reader.md R184 (with R188 for the verdicts): READ.SIGN, and READ in phase SIGN, on every
beat it can take. -/
def Obligations.ReadSignOnEveryBeat : Prop :=
  ∀ (i : Instr) (s : State) (b : Beat) (taken : List Beat),
    i = .readSign ∨ (i = .read ∧ s.regs.rdPhase = 1) → Takes s b taken →
    let fail (disc eof : Bool) : Regs s.cfg := { s.regs with
      rdOk := false, rdDisc := disc, rdPhase := 0, rdNeg := false, rdMag := 0, state := 0x3
      eofSeen := eof }
    (b = .eof → exec i s = .next { s with taken := taken, regs := fail false true }) ∧
    ∀ c : Byte, b = .byte c →
      (∀ d, classify c = .digit d → exec i s = .next { s with
        taken := taken, regs := { s.regs with rdPhase := 2, rdMag := BitVec.ofNat 64 d } }) ∧
      (c = 0x0A → exec i s = .next { s with taken := taken, regs := fail false false }) ∧
      (classify c ∈ [.ws, .plus, .minus, .other] →
        exec i s = .next { s with taken := taken, regs := fail true false })

/-- 43_token_reader.md R185 to R188: READ.DIGITS, and READ in phase DIGITS, on every beat it can take.
A magnitude above LIMIT, which no run reaches, has no stated VALUE; the other fields are as for every
magnitude. -/
def Obligations.ReadDigitsOnEveryBeat : Prop :=
  ∀ (i : Instr) (s : State) (b : Beat) (taken : List Beat),
    i = .readDigits ∨ (i = .read ∧ s.regs.rdPhase = 2) → Takes s b taken →
    let mag := s.regs.rdMag.toNat
    let bound := if s.regs.rdNeg = true then 2 ^ 63 else 2 ^ 63 - 1
    let fail : Regs s.cfg := { s.regs with
      rdOk := false, rdDisc := true, rdPhase := 0, rdNeg := false, rdMag := 0, state := 0x3 }
    let succeed (v : Word) (disc eof : Bool) : Regs s.cfg := { s.regs with
      opA := if s.regs.slot = .first then v else s.regs.opA
      opB := if s.regs.slot = .first then s.regs.opB else v
      rdOk := true, rdDisc := disc, rdPhase := 0, rdNeg := false, rdMag := 0
      state := if disc then 0x4 else 0x5
      eofSeen := eof }
    ∃ v : Word,
      (mag ≤ bound → v = BitVec.ofInt 64 (if s.regs.rdNeg = true then -(mag : Int) else mag)) ∧
      (b = .eof → exec i s = .next { s with taken := taken, regs := succeed v false true }) ∧
      ∀ c : Byte, b = .byte c →
        (∀ d, classify c = .digit d → mag * 10 + d ≤ bound → exec i s = .next { s with
          taken := taken, regs := { s.regs with rdMag := BitVec.ofNat 64 (mag * 10 + d) } }) ∧
        (∀ d, classify c = .digit d → bound < mag * 10 + d →
          exec i s = .next { s with taken := taken, regs := fail }) ∧
        (classify c = .ws → exec i s = .next { s with
          taken := taken, regs := succeed v true false }) ∧
        (c = 0x0A → exec i s = .next { s with taken := taken, regs := succeed v false false }) ∧
        (classify c ∈ [.plus, .minus, .other] →
          exec i s = .next { s with taken := taken, regs := fail })

/-- 43_token_reader.md R190: DISCARD on every beat it can take. -/
def Obligations.DiscardOnEveryBeat : Prop :=
  ∀ (s : State) (b : Beat) (taken : List Beat), Takes s b taken →
    let after : BitVec 4 := if s.regs.rdOk = true then 0x5 else 0x1
    (b = .eof → exec .discard s = .next { s with
      taken := taken, regs := { s.regs with state := after, eofSeen := true } }) ∧
    (b = .byte 0x0A → exec .discard s = .next { s with
      taken := taken, regs := { s.regs with state := after } }) ∧
    (∀ c : Byte, b = .byte c → c ≠ 0x0A → exec .discard s = .next { s with taken := taken })

/-- 20_memory.md R54: without a beat, and with eof_seen = 0, a step that takes holds all of the
block's state. -/
def Obligations.TakingStepsWait : Prop :=
  ∀ s : State, s.regs.eofSeen = false → s.pins.inValid = false →
    (∀ i ∈ [Instr.readLead, .readSign, .readDigits, .discard], exec i s = .next s) ∧
    (s.regs.rdPhase ≠ 3 → exec .read s = .next s)

/-- 43_token_reader.md R187: VALUE of every magnitude within LIMIT is a signed 64-bit integer, and the
operand register then holds exactly it. -/
def Obligations.OperandValueIsExact : Prop :=
  (∀ (neg : Bool) (mag : Word), mag.toNat ≤ limit neg →
    InInt64 (value neg mag) ∧ (enc64 (value neg mag)).toInt = value neg mag) ∧
  value true (BitVec.ofNat 64 (2 ^ 63)) = int64Min ∧ value true 0 = 0

/-! The arithmetic. -/

/-- 40_adder.md R102: the flag form of ovf is the range test, and without overflow the raw sum is the
exact one. -/
def Obligations.OverflowIsTheRangeTest : Prop :=
  ∀ a b : Word,
    (addOvf a b = true ↔
      a.toInt + b.toInt > int64Max ∨ a.toInt + b.toInt < int64Min) ∧
    (addOvf a b = false → addRaw a b = BitVec.ofInt 64 (a.toInt + b.toInt) ∧
      (addRaw a b).toInt = a.toInt + b.toInt)

/-- 40_adder.md R103: the flag form of ovf is the pre-check, and the pre-check's bounds are
representable where it evaluates them. -/
def Obligations.OverflowIsThePreCheck : Prop :=
  ∀ a b : Word,
    (addOvf a b = true ↔ AddPreCheck a b) ∧
    (b.toInt > 0 → InInt64 (int64Max - b.toInt)) ∧ (b.toInt < 0 → InInt64 (int64Min - b.toInt)) ∧
    addOvf a 0 = false

/-- 40_adder.md R106: the four laws of ADD. -/
def Obligations.AddLawsHold : Prop :=
  ∀ a b : Word,
    (InInt64 (a.toInt + b.toInt) →
      (addValue a b).toInt = a.toInt + b.toInt ∧ addOvf a b = false) ∧
    (¬InInt64 (a.toInt + b.toInt) → addValue a b = 0 ∧ addOvf a b = true) ∧
    (addValue a b = addValue b a ∧ addOvf a b = addOvf b a) ∧
    (addValue a 0 = a ∧ addOvf a 0 = false)

/-- 40_adder.md R100, R105: ADD returns (ovf, value) of opA and opB in exact integers and changes
nothing of the block. That the pair is kept in `ret` is the model's choice (log 5). -/
def Obligations.AddReturnsTheCheckedSum : Prop :=
  ∀ s : State,
    let pair := s.regs.opA.toInt + s.regs.opB.toInt
    (InInt64 pair → exec .add s = .next { s with ret := .add false (BitVec.ofInt 64 pair) }) ∧
    (¬InInt64 pair → exec .add s = .next { s with ret := .add true 0 })

/-- 41_accumulator.md R120: ACCUM returns the wrapped sum and whether it wrapped, in exact integers,
and writes neither `sum` nor `acc_wrap` (R121, R122). That the pair is kept in `ret` is the model's
choice (log 5). -/
def Obligations.AccumReturnsTheWrappedSum : Prop :=
  ∀ s : State,
    let pair := s.regs.opA.toInt + s.regs.opB.toInt
    let total := s.regs.sum.toInt + if InInt64 pair then pair else 0
    exec .accum s = .next { s with ret := .accum (BitVec.ofInt 64 total) (!decide (InInt64 total)) }

/-! The streams. -/

/-- 30_encoding.md R74, 20_memory.md R55, R56: where the block presents an event, the event's transfer
is the step of the current state: delivered once with ev_ready = 1, held with ev_ready = 0. That an
event word is run as this transfer is the model's choice (log 7). -/
def Obligations.EventTransferIsItsEmittersStep : Prop :=
  ∀ (i : Instr) (e : Event) (s : State), carriedEvent i = some e → presented s.regs = some e →
    (s.pins.evReady = true → ∃ t, exec i s = .next t ∧
      exec (decodeState s.regs.state) s = .next t ∧
      t.delivered = s.delivered ++ [e] ∧ t.taken = s.taken) ∧
    (s.pins.evReady = false → exec i s = .next s)

/-- 20_memory.md R55, R56: an event the block does not present is not transferred. That the word then
changes nothing is the model's choice (log 7). -/
def Obligations.EventNotPresentedIsNotTransferred : Prop :=
  ∀ (i : Instr) (e : Event) (s : State), carriedEvent i = some e → presented s.regs ≠ some e →
    exec i s = .next s

/-- 20_memory.md R52, R54, 30_encoding.md R71, R76: a beat that arrives while READ or DISCARD wants one
is taken, and what follows is the step of the current state with that beat on the input port. That a
beat or byte word is run as this transfer is the model's choice (log 6). -/
def Obligations.BeatTransferIsTheTakingStep : Prop :=
  ∀ (i : Instr) (b : Beat) (s : State) (p : Pins), carriedBeat i = some b → p.offered = some b →
    s.regs.eofSeen = false → s.regs.state = 0x4 ∨ (s.regs.state = 0x2 ∧ s.regs.rdPhase ≠ 3) →
    ∃ t, exec i s = .next t ∧ t.taken = s.taken ++ [b] ∧ t.delivered = s.delivered ∧
      exec (decodeState s.regs.state) { s with pins := p } = .next { t with pins := p }

/-- 20_memory.md R52, R53: outside READ and DISCARD, and after EOF, no beat is consumed. That the word
then changes nothing is the model's choice (log 6). -/
def Obligations.BeatNotWantedIsNotTaken : Prop :=
  ∀ (i : Instr) (b : Beat) (s : State), carriedBeat i = some b →
    (s.regs.state ≠ 0x2 ∧ s.regs.state ≠ 0x4) ∨ s.regs.eofSeen = true → exec i s = .next s

/-- 20_memory.md R53, R57, 10_state.md R36: in_ready, done, exit_status and the status outputs. That
all but in_ready follow the registers while rst = 1 too is the model's reading (log 25). -/
def Obligations.ReadyDoneAndStatusOutputs : Prop :=
  ∀ (c : Params) (rst : Bool) (r : Regs c),
    ((outputs rst r).inReady = true ↔
      rst = false ∧ (r.state = 0x2 ∨ r.state = 0x4) ∧ r.eofSeen = false) ∧
    ((outputs rst r).done = true ↔ r.state = 0xB) ∧ (outputs rst r).exitStatus = 0x00 ∧
    (outputs rst r).stState = r.state ∧ (outputs rst r).stIter = r.iter ∧
    (outputs rst r).stBudget = r.budget ∧
    ((outputs rst r).stSlot = 0 ↔ r.slot = .first) ∧ ((outputs rst r).stSlot = 1 ↔ r.slot = .second) ∧
    (outputs rst r).stSum = r.sum ∧ (outputs rst r).stAccWrap = r.accWrap ∧
    (outputs rst r).stEof = r.eofSeen

/-- 20_memory.md R56: the table of ev_valid, ev_code and ev_data, and ev_valid = 0 while rst = 1. -/
def Obligations.EventOutputsAreTheTable : Prop :=
  ∀ (c : Params) (r : Regs c),
    let shows (code : BitVec 3) (data : Word) : Prop :=
      (outputs false r).evValid = true ∧ (outputs false r).evCode = code ∧
        (outputs false r).evData = data
    (r.state = 0x0 → r.iter.toNat < 2 ^ 64 → shows 0 (BitVec.ofNat 64 r.iter.toNat)) ∧
    (r.state = 0x0 → (outputs false r).evValid = true ∧ (outputs false r).evCode = 0) ∧
    (r.state = 0x1 → r.budget ≠ 0 → shows 1 0) ∧
    (r.state = 0x1 → r.budget = 0 → (outputs false r).evValid = false) ∧
    (r.state = 0x3 → shows 2 0) ∧
    (r.state = 0x6 → addOvf r.opA r.opB = true → shows 3 0) ∧
    (r.state = 0x6 → addOvf r.opA r.opB = false → (outputs false r).evValid = false) ∧
    (r.state = 0x7 → shows 4 0) ∧ (r.state = 0x8 → shows 5 r.sum) ∧ (r.state = 0xA → shows 6 r.sum) ∧
    (r.state ∈ [0x2#4, 0x4#4, 0x5#4, 0x9#4, 0xB#4] → (outputs false r).evValid = false) ∧
    (outputs true r).evValid = false

/-- 20_memory.md R52, R55, R60, R62: an edge consumes the beat of its input transfer and delivers the
event of its output transfer, never both, and appends them in order. -/
def Obligations.EdgeMakesItsOneTransfer : Prop :=
  ∀ s t : State, step s = .next t →
    t.taken = s.taken ++ (inputTransfer s).toList ∧
    t.delivered = s.delivered ++ (outputTransfer s).toList ∧
    (inputTransfer s = none ∨ outputTransfer s = none)

/-- 70_reset_and_hazards.md R247: an event that is not accepted is held: no register changes, so the
block presents the same event at the next edge. -/
def Obligations.PresentedEventIsHeld : Prop :=
  ∀ (s : State) (e : Event), s.cfg.nIter ≠ 0 → s.pins.rst = false → s.pins.evReady = false →
    presented s.regs = some e →
    ∃ t, step s = .next t ∧ presented t.regs = some e ∧
      t = { s with pins := s.script.headD Pins.idle, script := s.script.tail }

/-- 70_reset_and_hazards.md R248, 30_encoding.md R71: in_eof and in_data matter only where a beat is
transferred, and in_data not even there under EOF. -/
def Obligations.UntransferredInputHasNoEffect : Prop :=
  ∀ (s : State) (eof : Bool) (data : Byte),
    (inputTransfer s = none →
      step { s with pins := { s.pins with inEof := eof, inData := data } } = step s) ∧
    (s.pins.inEof = true → step { s with pins := { s.pins with inData := data } } = step s)

/-! The whole machine. -/

/-- 10_state.md R21 to R33: which instructions may write each register, in terms of their unsigned
values for the counters. ADD, ACCUM and DONE leave `state` alone, and what the others write to it is a
used code (30_encoding.md R72). No instruction changes the parameters or what the environment drives. -/
def Obligations.OnlyTheNamedStepsWriteEachRegister : Prop :=
  ∀ (i : Instr) (s t : State), exec i s = .next t →
    (t.regs.state ≠ s.regs.state →
      i ≠ .add ∧ i ≠ .accum ∧ i ≠ .done ∧ t.regs.state.toNat ≤ 0xB) ∧
    (t.regs.iter.toNat ≠ s.regs.iter.toNat → i = .iterDone) ∧
    (t.regs.budget.toNat ≠ s.regs.budget.toNat →
      i ∈ [.iterBegin, .verr, .accept] ∨ ∃ d, i = .evAttempt d ∨ i = .evVerrNotice d) ∧
    (t.regs.slot ≠ s.regs.slot → i ∈ [.iterBegin, .accept] ∨ ∃ d, i = .evAttempt d) ∧
    (t.regs.opA ≠ s.regs.opA → isReaderInstr i = true ∧ s.regs.slot = .first) ∧
    (t.regs.opB ≠ s.regs.opB → isReaderInstr i = true ∧ s.regs.slot = .second) ∧
    (t.regs.sum ≠ s.regs.sum → i = .compute) ∧
    (t.regs.accWrap ≠ s.regs.accWrap → i = .compute) ∧
    (t.regs.rdPhase ≠ s.regs.rdPhase ∨ t.regs.rdNeg ≠ s.regs.rdNeg ∨ t.regs.rdMag ≠ s.regs.rdMag ∨
      t.regs.rdOk ≠ s.regs.rdOk ∨ t.regs.rdDisc ≠ s.regs.rdDisc → isReaderInstr i = true) ∧
    (t.regs.eofSeen ≠ s.regs.eofSeen → isReaderInstr i = true ∨ i = .discard) ∧
    (t.ret ≠ s.ret → i = .add ∨ i = .accum) ∧
    t.cfg = s.cfg ∧ t.pins = s.pins ∧ t.script = s.script

/-- 10_state.md R27, R33: only reset clears `acc_wrap` and `eof_seen`. -/
def Obligations.StickyFlagsStaySet : Prop :=
  ∀ s t : State, s.pins.rst = false → step s = .next t →
    (s.regs.accWrap = true → t.regs.accWrap = true) ∧
    (s.regs.eofSeen = true → t.regs.eofSeen = true)

/-- 10_state.md R40: every edge of every state that meets the invariant, a reset edge too, keeps it. -/
def Obligations.EveryEdgeKeepsTheInvariant : Prop :=
  ∀ s t : State, Inv s → step s = .next t → Inv t

/-- 10_state.md R40: the reset state of every block meets the invariant, in every environment. -/
def Obligations.ResetMeetsTheInvariant : Prop :=
  ∀ s : State, s.cfg.nIter ≠ 0 → s.regs = Regs.reset s.cfg → Inv s

/-- 60_exceptions.md R210, 42_retry_fsm.md R152: no error is fatal and no reserved code is reached: a
state that meets the invariant always has a next state. -/
def Obligations.ReachableEdgesNeverStop : Prop :=
  ∀ s : State, Inv s → ∃ t, step s = .next t

/-- 41_accumulator.md R124: without a reset edge the running sum is the wrapped sum of the
contributions, and exactly their sum while acc_wrap = 0. -/
def Obligations.RunningSumIsTheContributions : Prop :=
  ∀ (n : Nat) (s t : State), NoResetFor n s → Host.Core.run Sys2Proof.core n s = .next t →
    t.regs.sum = BitVec.ofInt 64 (s.regs.sum.toInt + contributions n s) ∧
    (t.regs.accWrap = false → t.regs.sum.toInt = s.regs.sum.toInt + contributions n s)

/-- 43_token_reader.md R181, R191, R192: a read of any line, ended by LF or EOF. With a well-formed
token and a beat at every edge it takes one edge a beat and ends in ACCEPT with the token's value in the
slot's operand, and rd_disc = 1 exactly if a blank ended the token (R188). Without one it reaches VERR
after a prefix of the beats, with the operands unchanged and rd_disc = 1 exactly if the terminator is
unread; and where the notice is accepted, VERR's edge and the discard of the rest bring it to AWAIT with
one attempt charged (of a budget of 0, which no run has here, log 11 leaves some value). Either way the
read consumes the line's beats, all of them and nothing after them. -/
def Obligations.ReadDecidesItsLine : Prop :=
  ∀ (s : State) (line : List Byte) (last : Beat), s.cfg.nIter ≠ 0 → ReadStarts s.regs →
    (0x0A : Byte) ∉ line → last = .byte 0x0A ∨ last = .eof →
    let beats := line.map Beat.byte ++ [last]
    (∀ v, lineValue line = some v → OffersBeats beats s →
      ∃ t : State,
        Host.Core.run Sys2Proof.core (line.length + 1) s = .next t ∧
        t = { s with
          regs := { s.regs with
            state := 0x5
            opA := if s.regs.slot = .first then BitVec.ofInt 64 v else s.regs.opA
            opB := if s.regs.slot = .first then s.regs.opB else BitVec.ofInt 64 v
            rdOk := true, rdDisc := blankEndsToken line, eofSeen := decide (last = .eof) }
          taken := s.taken ++ beats, pins := t.pins, script := t.script }) ∧
    (lineValue line = none → OffersBeats beats s →
      ∃ (n : Nat) (t : State), n ≤ line.length + 1 ∧
        (n = line.length + 1 ↔ failsAtTerminator line = true) ∧
        Host.Core.run Sys2Proof.core n s = .next t ∧
        t = { s with
          regs := { s.regs with
            state := 0x3, rdOk := false, rdDisc := !failsAtTerminator line
            eofSeen := failsAtTerminator line && decide (last = .eof) }
          taken := s.taken ++ beats.take n, pins := t.pins, script := t.script }) ∧
    (lineValue line = none → feeds (line.length + 2) beats s = true →
      ∃ (u : State) (left : BitVec s.cfg.wBud),
        Host.Core.run Sys2Proof.core (line.length + 2) s = .next u ∧
        (1 ≤ s.regs.budget.toNat → left.toNat = s.regs.budget.toNat - 1) ∧
        u = { s with
          regs := { s.regs with
            state := 0x1, budget := left, rdOk := false, rdDisc := !failsAtTerminator line
            eofSeen := decide (last = .eof) }
          taken := s.taken ++ beats, delivered := s.delivered ++ [⟨.verrNotice, 0⟩]
          pins := u.pins, script := u.script })

/-- 42_retry_fsm.md R153: in states that meet the invariant, no edge without reset takes the events off
the session grammar: if they were the part of a session that the registers say, they are again. -/
def Obligations.EveryEdgeKeepsTheSessionSoFar : Prop :=
  ∀ s t : State, Inv s → SessionSoFar s → s.pins.rst = false → step s = .next t → SessionSoFar t

/-- 42_retry_fsm.md R153: after a reset edge, with nothing delivered, the session so far is empty. -/
def Obligations.ResetStartsTheSession : Prop :=
  ∀ s : State, SessionStarts s → SessionSoFar s

/-- 42_retry_fsm.md R153, R150: the events of a complete session follow the grammar, whatever the input
and the waits. Stated of the kinds of events in their order, of the counts, and of the sums as far as the
grammar alone determines them: skips and overflows leave the running sum as it was, and FINAL_SUM is the
last RUNNING_SUM. Which bodies have an OVERFLOW, and the sums, are in SessionIsAFunctionOfItsInput. -/
def Obligations.SessionEventsFollowTheGrammar : Prop :=
  ∀ (n : Nat) (s t : State), SessionStarts s → NoResetFor n s →
    Host.Core.run Sys2Proof.core n s = .next t → t.regs.state = 0xB → IsSession t.cfg t.delivered

/-- 42_retry_fsm.md R153 and 40_adder.md R107 with the operands of the lines read (43_token_reader.md
R181, R191): the events of a complete session, with every value, are a function of the beats consumed.
OVERFLOW appears exactly in the iterations whose two operands have a sum outside the range, and every
RUNNING_SUM and the FINAL_SUM is the sum of the contributions, whatever the waits. -/
def Obligations.SessionIsAFunctionOfItsInput : Prop :=
  ∀ (n : Nat) (s t : State), SessionStarts s → s.taken = [] → NoResetFor n s →
    Host.Core.run Sys2Proof.core n s = .next t → t.regs.state = 0xB →
    t.delivered = sessionEvents s.cfg s.cfg.nIter 0 t.taken

/-- 42_retry_fsm.md R154: no edge of a reachable state lets the events sent and the most still to come
add up to more. -/
def Obligations.EventBudgetNeverGrows : Prop :=
  ∀ s t : State, Inv s → s.pins.rst = false → step s = .next t →
    t.delivered.length + eventsLeft t.regs ≤ s.delivered.length + eventsLeft s.regs

/-- 42_retry_fsm.md R154: at most N_ITER · (4 · N_ATTEMPTS + 2) + 1 events a session, with
N_ATTEMPTS ≥ 1; with N_ATTEMPTS = 0 three an iteration and the final one. That the rule's last clause is
read for N_ATTEMPTS ≥ 1 is the model's reading (log 27). -/
def Obligations.SessionEventsAreBounded : Prop :=
  ∀ (n : Nat) (s t : State), SessionStarts s → NoResetFor n s →
    Host.Core.run Sys2Proof.core n s = .next t →
    (1 ≤ s.cfg.nAttempts → t.delivered.length ≤ s.cfg.nIter * (4 * s.cfg.nAttempts + 2) + 1) ∧
    (s.cfg.nAttempts = 0 → t.delivered.length ≤ s.cfg.nIter * 3 + 1)

/-- 42_retry_fsm.md R155, 20_memory.md R54: once EOF was seen no beat is needed. Every edge at which the
event presented, if any, is accepted brings DONE one edge nearer, and EOF stays seen. -/
def Obligations.EveryEdgeAfterEndOfInputCountsDown : Prop :=
  ∀ s t : State, Inv s → s.regs.eofSeen = true → s.regs.state ≠ 0xB → s.pins.rst = false →
    (presented s.regs ≠ none → s.pins.evReady = true) → step s = .next t →
    edgesLeft t.regs + 1 = edgesLeft s.regs ∧ t.regs.eofSeen = true ∧ t.taken = s.taken

/-- 42_retry_fsm.md R155: once EOF was seen, and with every event accepted, the session reaches DONE
after a number of edges that only N_ITER and N_ATTEMPTS bound. -/
def Obligations.EndOfInputEndsTheSession : Prop :=
  ∀ s : State, Inv s → s.regs.eofSeen = true → AcceptsFor (eofBound s.cfg) s →
    ∃ (n : Nat) (t : State), n ≤ eofBound s.cfg ∧ Host.Core.run Sys2Proof.core n s = .next t ∧
      t.regs.state = 0xB

/-- 10_state.md R25, R38: two states that agree but for operands that this iteration has not written
present the same event, and after any edge they agree so again. -/
def Obligations.EveryEdgeKeepsStaleOperandsUnread : Prop :=
  ∀ s s' t : State, Inv s → AgreeButStaleOperands s s' → step s = .next t →
    presented s'.regs = presented s.regs ∧
      ∃ t', step s' = .next t' ∧ AgreeButStaleOperands t t'

/-- 10_state.md R25, R38: an iteration never reads the operands an earlier one left: two machines at
ITER_BEGIN that differ in opA and opB only stay alike, at every later edge, in everything but opA and
opB, and present the same event. -/
def Obligations.StaleOperandsAreNeverRead : Prop :=
  ∀ (n : Nat) (s t : State) (a b : Word), Inv s → s.regs.state = 0x0 →
    Host.Core.run Sys2Proof.core n s = .next t →
    ∃ a' b' : Word,
      Host.Core.run Sys2Proof.core n { s with regs := { s.regs with opA := a, opB := b } } =
        .next { t with regs := { t.regs with opA := a', opB := b' } } ∧
      presented { t.regs with opA := a', opB := b' } = presented t.regs

/-- 00_scope.md R10: each counter register has the smallest width, at least 1, that holds its
parameter; 2 bits each with the defaults. -/
def Obligations.CounterWidthsAreSmallest : Prop :=
  (∀ c : Params, c.nIter < 2 ^ c.wIter ∧ c.nAttempts < 2 ^ c.wBud ∧ 1 ≤ c.wIter ∧ 1 ≤ c.wBud ∧
    (∀ w, 1 ≤ w → c.nIter < 2 ^ w → c.wIter ≤ w) ∧
    (∀ w, 1 ≤ w → c.nAttempts < 2 ^ w → c.wBud ≤ w)) ∧
  ({} : Params).wIter = 2 ∧ ({} : Params).wBud = 2
end

