-- ==== Sys2Proof/Laws/State.lean ====
section
/-! SUPPORT. One lemma per field per update of the state, each true by rfl, and what the reset state
holds. -/

namespace Sys2Proof.Machine

@[simp] theorem State.withRegs_cfg (s : State) (r : Regs s.cfg) : (s.withRegs r).cfg = s.cfg := rfl
@[simp] theorem State.withRegs_regs (s : State) (r : Regs s.cfg) : (s.withRegs r).regs = r := rfl
@[simp] theorem State.withRegs_pins (s : State) (r : Regs s.cfg) : (s.withRegs r).pins = s.pins := rfl
@[simp] theorem State.withRegs_script (s : State) (r : Regs s.cfg) : (s.withRegs r).script = s.script := rfl
@[simp] theorem State.withRegs_taken (s : State) (r : Regs s.cfg) : (s.withRegs r).taken = s.taken := rfl
@[simp] theorem State.withRegs_delivered (s : State) (r : Regs s.cfg) : (s.withRegs r).delivered = s.delivered := rfl
@[simp] theorem State.withRegs_ret (s : State) (r : Regs s.cfg) : (s.withRegs r).ret = s.ret := rfl

@[simp] theorem State.logEvent_cfg (s : State) (e : Event) : (s.logEvent e).cfg = s.cfg := rfl
@[simp] theorem State.logEvent_regs (s : State) (e : Event) : (s.logEvent e).regs = s.regs := rfl
@[simp] theorem State.logEvent_pins (s : State) (e : Event) : (s.logEvent e).pins = s.pins := rfl
@[simp] theorem State.logEvent_script (s : State) (e : Event) : (s.logEvent e).script = s.script := rfl
@[simp] theorem State.logEvent_taken (s : State) (e : Event) : (s.logEvent e).taken = s.taken := rfl
@[simp] theorem State.logEvent_delivered (s : State) (e : Event) : (s.logEvent e).delivered = s.delivered ++ [e] := rfl
@[simp] theorem State.logEvent_ret (s : State) (e : Event) : (s.logEvent e).ret = s.ret := rfl

@[simp] theorem State.logBeat_cfg (s : State) (b : Beat) : (s.logBeat b).cfg = s.cfg := rfl
@[simp] theorem State.logBeat_regs (s : State) (b : Beat) : (s.logBeat b).regs = s.regs := rfl
@[simp] theorem State.logBeat_pins (s : State) (b : Beat) : (s.logBeat b).pins = s.pins := rfl
@[simp] theorem State.logBeat_script (s : State) (b : Beat) : (s.logBeat b).script = s.script := rfl
@[simp] theorem State.logBeat_taken (s : State) (b : Beat) : (s.logBeat b).taken = s.taken ++ [b] := rfl
@[simp] theorem State.logBeat_delivered (s : State) (b : Beat) : (s.logBeat b).delivered = s.delivered := rfl
@[simp] theorem State.logBeat_ret (s : State) (b : Beat) : (s.logBeat b).ret = s.ret := rfl

@[simp] theorem State.withRet_cfg (s : State) (v : Returned) : (s.withRet v).cfg = s.cfg := rfl
@[simp] theorem State.withRet_regs (s : State) (v : Returned) : (s.withRet v).regs = s.regs := rfl
@[simp] theorem State.withRet_pins (s : State) (v : Returned) : (s.withRet v).pins = s.pins := rfl
@[simp] theorem State.withRet_script (s : State) (v : Returned) : (s.withRet v).script = s.script := rfl
@[simp] theorem State.withRet_taken (s : State) (v : Returned) : (s.withRet v).taken = s.taken := rfl
@[simp] theorem State.withRet_delivered (s : State) (v : Returned) : (s.withRet v).delivered = s.delivered := rfl
@[simp] theorem State.withRet_ret (s : State) (v : Returned) : (s.withRet v).ret = v := rfl

@[simp] theorem State.advance_cfg (s : State) : (s.advance).cfg = s.cfg := rfl
@[simp] theorem State.advance_regs (s : State) : (s.advance).regs = s.regs := rfl
@[simp] theorem State.advance_pins (s : State) : (s.advance).pins = s.script.headD Pins.idle := rfl
@[simp] theorem State.advance_script (s : State) : (s.advance).script = s.script.tail := rfl
@[simp] theorem State.advance_taken (s : State) : (s.advance).taken = s.taken := rfl
@[simp] theorem State.advance_delivered (s : State) : (s.advance).delivered = s.delivered := rfl
@[simp] theorem State.advance_ret (s : State) : (s.advance).ret = s.ret := rfl

@[simp] theorem State.resetRegs_cfg (s : State) : (s.resetRegs).cfg = s.cfg := rfl
@[simp] theorem State.resetRegs_regs (s : State) : (s.resetRegs).regs = Regs.reset s.cfg := rfl
@[simp] theorem State.resetRegs_pins (s : State) : (s.resetRegs).pins = s.pins := rfl
@[simp] theorem State.resetRegs_script (s : State) : (s.resetRegs).script = s.script := rfl
@[simp] theorem State.resetRegs_taken (s : State) : (s.resetRegs).taken = s.taken := rfl
@[simp] theorem State.resetRegs_delivered (s : State) : (s.resetRegs).delivered = s.delivered := rfl
@[simp] theorem State.resetRegs_ret (s : State) : (s.resetRegs).ret = s.ret := rfl

@[simp] theorem Regs.reset_state (c : Params) : (Regs.reset c).state = 0x0 := rfl
@[simp] theorem Regs.reset_iter (c : Params) : (Regs.reset c).iter = BitVec.ofNat _ c.nIter := rfl
@[simp] theorem Regs.reset_budget (c : Params) : (Regs.reset c).budget = BitVec.ofNat _ c.nAttempts := rfl
@[simp] theorem Regs.reset_slot (c : Params) : (Regs.reset c).slot = .first := rfl
@[simp] theorem Regs.reset_opA (c : Params) : (Regs.reset c).opA = 0 := rfl
@[simp] theorem Regs.reset_opB (c : Params) : (Regs.reset c).opB = 0 := rfl
@[simp] theorem Regs.reset_sum (c : Params) : (Regs.reset c).sum = 0 := rfl
@[simp] theorem Regs.reset_accWrap (c : Params) : (Regs.reset c).accWrap = false := rfl
@[simp] theorem Regs.reset_rdPhase (c : Params) : (Regs.reset c).rdPhase = 0 := rfl
@[simp] theorem Regs.reset_rdNeg (c : Params) : (Regs.reset c).rdNeg = false := rfl
@[simp] theorem Regs.reset_rdMag (c : Params) : (Regs.reset c).rdMag = 0 := rfl
@[simp] theorem Regs.reset_rdOk (c : Params) : (Regs.reset c).rdOk = false := rfl
@[simp] theorem Regs.reset_rdDisc (c : Params) : (Regs.reset c).rdDisc = false := rfl
@[simp] theorem Regs.reset_eofSeen (c : Params) : (Regs.reset c).eofSeen = false := rfl

theorem State.reset_regs : State.reset.regs = Regs.reset State.reset.cfg := rfl

end Sys2Proof.Machine
end

