-- ==== Sys2Proof/Laws/Ops.lean ====
section
/-! SUPPORT. For each shared operation, once, everything it can do; cited instead of unfolding it. -/

namespace Sys2Proof.Machine

/-! Numbers. -/

theorem enc64_of_inInt64 {n : Int} (h : InInt64 n) : enc64 n = BitVec.ofInt 64 n := if_pos h

theorem wrap64_eq_ofInt (n : Int) : wrap64 n = BitVec.ofInt 64 n := by
  unfold wrap64
  rw [enc64_of_inInt64 (by constructor <;> simp only [int64Min, int64Max] <;> omega)]
  apply BitVec.eq_of_toInt_eq
  simp only [BitVec.toInt_ofInt, Int.bmod_def]
  split <;> split <;> omega

theorem zext64_of_lt {w : Nat} {v : BitVec w} (h : v.toNat < 2 ^ 64) : zext64 v = v.setWidth 64 :=
  if_pos h

theorem decrement_of_ne_zero {w : Nat} {v : BitVec w} (h : v ≠ 0) : decrement v = v - 1 := if_neg h

/-- A register that is not 0 counts down by exactly one. -/
theorem decrement_toNat {w : Nat} {v : BitVec w} (h : v ≠ 0) : (decrement v).toNat = v.toNat - 1 := by
  have hv : v.toNat ≠ 0 := fun h0 => h (BitVec.eq_of_toNat_eq (by simpa using h0))
  have hlt := v.isLt
  rw [decrement_of_ne_zero h, BitVec.toNat_sub]
  obtain rfl | hw := Nat.eq_zero_or_pos w
  · omega
  · rw [show (1 : BitVec w).toNat = 1 from by simpa using hw]
    rw [show 2 ^ w - 1 + v.toNat = (v.toNat - 1) + 2 ^ w by omega, Nat.add_mod_right,
      Nat.mod_eq_of_lt (by omega)]

theorem regWidth_pos (n : Nat) : 0 < regWidth n := by
  unfold regWidth; split <;> omega

/-! Outcomes and the handshakes. -/

theorem onNext_eq_next {f : State → State} {o : Outcome} {t : State} :
    onNext f o = .next t ↔ ∃ u, o = .next u ∧ t = f u := by
  cases o <;> simp [onNext, eq_comm]

/-- Emit delivers and writes, or waits. -/
theorem emit_eq_next {s t : State} {e : Event} {r : Regs s.cfg} :
    emit s e r = .next t ↔
      (s.pins.evReady = true ∧ t = (s.withRegs r).logEvent e) ∨ (s.pins.evReady = false ∧ t = s) := by
  unfold emit
  cases s.pins.evReady <;> simp [eq_comm]

/-- Emit always answers a next state. -/
theorem emit_completes (s : State) (e : Event) (r : Regs s.cfg) : ∃ t, emit s e r = .next t := by
  unfold emit; split <;> exact ⟨_, rfl⟩

/-- A step that takes: the sticky EOF, a wait, or a transfer. -/
theorem take_eq_next {s t : State} {f : Beat → Regs s.cfg → Regs s.cfg} :
    take s f = .next t ↔
      (s.regs.eofSeen = true ∧ t = s.withRegs (f .eof s.regs)) ∨
      (s.regs.eofSeen = false ∧ s.pins.offered = none ∧ t = s) ∨
      (s.regs.eofSeen = false ∧ ∃ b, s.pins.offered = some b ∧
        t = (s.withRegs (f b s.regs)).logBeat b) := by
  unfold take
  cases s.regs.eofSeen <;> cases s.pins.offered <;> simp [eq_comm]

theorem take_completes (s : State) (f : Beat → Regs s.cfg → Regs s.cfg) : ∃ t, take s f = .next t := by
  unfold take
  split
  · exact ⟨_, rfl⟩
  · split <;> exact ⟨_, rfl⟩

/-- An event transfer is its emitter's step where the event is presented, and nothing elsewhere. -/
theorem transferEvent_eq {e : Event} {f : State → Outcome} {s : State} :
    (presented s.regs = some e ∧ transferEvent e f s = f s) ∨
      (presented s.regs ≠ some e ∧ transferEvent e f s = .next s) := by
  unfold transferEvent
  split <;> simp_all

theorem wantsBeat_eq_true {c : Params} {r : Regs c} :
    wantsBeat r = true ↔ (r.state = stRead ∨ r.state = stDiscard) ∧ r.eofSeen = false := by
  simp [wantsBeat]

/-- A beat arriving: nothing, a byte dropped or a discard ended, or a READ step. -/
theorem receive_eq_next {b : Beat} {s t : State} :
    receive b s = .next t ↔
      (wantsBeat s.regs = false ∧ t = s) ∨
      (wantsBeat s.regs = true ∧ s.regs.state = stDiscard ∧
        t = (s.withRegs (discardWith b s.regs)).logBeat b) ∨
      (wantsBeat s.regs = true ∧ s.regs.state ≠ stDiscard ∧ ∃ act, phaseAction s.regs = some act ∧
        t = (s.withRegs (readWith act b s.regs)).logBeat b) := by
  unfold receive
  by_cases hw : wantsBeat s.regs = true
  · by_cases hd : s.regs.state = stDiscard
    · simp [hw, hd, eq_comm]
    · cases hp : phaseAction s.regs <;> simp only [hw, hd, if_true, if_false] <;>
        simp [hd, eq_comm]
  · simp [hw, eq_comm]

/-- The phases READ dispatches on. -/
theorem phaseAction_eq_some {c : Params} {r : Regs c} {act : Beat → ReadAction} (h : phaseAction r = some act) :
    (r.rdPhase = phLead ∧ act = leadAction) ∨ (r.rdPhase = phSign ∧ act = signAction) ∨
      (r.rdPhase = phDigits ∧ act = digitsAction r.rdNeg r.rdMag) := by
  unfold phaseAction at h
  split at h
  · exact .inl ⟨‹_›, by simpa using h.symm⟩
  · split at h
    · exact .inr (.inl ⟨‹_›, by simpa using h.symm⟩)
    · split at h
      · exact .inr (.inr ⟨‹_›, by simpa using h.symm⟩)
      · cases h

theorem phaseAction_isSome {c : Params} {r : Regs c} (h : r.rdPhase ≠ 3) : ∃ act, phaseAction r = some act := by
  unfold phaseAction
  have : r.rdPhase = 0 ∨ r.rdPhase = 1 ∨ r.rdPhase = 2 := by
    revert h; generalize r.rdPhase = p; revert p; decide
  rcases this with h | h | h <;> rw [h] <;> exact ⟨_, rfl⟩

/-! Register writes. -/

@[simp] theorem noteEof_byte (b : Byte) {c : Params} (r : Regs c) : noteEof (.byte b) r = r := by simp [noteEof]

@[simp] theorem noteEof_eof {c : Params} (r : Regs c) : noteEof .eof r = { r with eofSeen := true } := by
  simp [noteEof]

@[simp] theorem writeOperand_first {v : Int} {c : Params} {r : Regs c} (h : r.slot = .first) :
    writeOperand v r = { r with opA := enc64 v } := by simp [writeOperand, h]

@[simp] theorem writeOperand_second {v : Int} {c : Params} {r : Regs c} (h : r.slot = .second) :
    writeOperand v r = { r with opB := enc64 v } := by simp [writeOperand, h]

/-- What a READ step can do to the registers: EOF is noted, and one of the six actions follows. -/
theorem readWith_cases (act : Beat → ReadAction) {c : Params} (b : Beat) (r : Regs c) :
    (act b = .stay ∧ readWith act b r = noteEof b r) ∨
    (∃ neg, act b = .sign neg ∧
      readWith act b r = { noteEof b r with rdPhase := phSign, rdNeg := neg }) ∨
    (∃ d, act b = .firstDigit d ∧
      readWith act b r = { noteEof b r with rdPhase := phDigits, rdMag := BitVec.ofNat 64 d }) ∨
    (∃ m, act b = .nextDigit m ∧
      readWith act b r = { noteEof b r with rdMag := BitVec.ofNat 64 m }) ∨
    (∃ disc v, act b = .succeed disc v ∧
      readWith act b r = closeRead true disc (writeOperand v (noteEof b r))) ∨
    (∃ cause disc, act b = .fail cause disc ∧
      readWith act b r = closeRead false disc (noteEof b r)) := by
  unfold readWith applyAction
  cases h : act b with
  | stay => exact .inl ⟨rfl, rfl⟩
  | sign neg => exact .inr (.inl ⟨neg, rfl, rfl⟩)
  | firstDigit d => exact .inr (.inr (.inl ⟨d, rfl, rfl⟩))
  | nextDigit m => exact .inr (.inr (.inr (.inl ⟨m, rfl, rfl⟩)))
  | succeed disc v => exact .inr (.inr (.inr (.inr (.inl ⟨disc, v, rfl, rfl⟩))))
  | fail cause disc => exact .inr (.inr (.inr (.inr (.inr ⟨cause, disc, rfl, rfl⟩))))

/-- The registers no READ step writes (10_state.md R22, R23, R24, R26, R27). -/
theorem readWith_frame (act : Beat → ReadAction) {c : Params} (b : Beat) (r : Regs c) :
    (readWith act b r).iter = r.iter ∧ (readWith act b r).budget = r.budget ∧
      (readWith act b r).slot = r.slot ∧ (readWith act b r).sum = r.sum ∧
      (readWith act b r).accWrap = r.accWrap := by
  unfold readWith applyAction noteEof closeRead writeOperand
  cases act b <;> cases hb : r.slot <;> by_cases h : b = .eof <;> simp [h, hb]

/-- DISCARD writes `state` and `eof_seen` only (43_token_reader.md R190). -/
theorem discardWith_eq {c : Params} (b : Beat) (r : Regs c) :
    discardWith b r = { r with
      state := (discardWith b r).state
      eofSeen := (discardWith b r).eofSeen } := by
  unfold discardWith noteEof
  split
  · split <;> rfl
  · rfl

/-- The classes of bytes, by their values. -/
theorem classify_digit {b : Byte} {d : Nat} (h : classify b = .digit d) :
    d = b.toNat - 0x30 ∧ d ≤ 9 := by
  unfold classify at h
  repeat' split at h
  all_goals cases h
  omega

/-- The event presented, by state. -/
theorem presented_eq_some {c : Params} {r : Regs c} {e : Event} (h : presented r = some e) :
    (r.state = stIterBegin ∧ e = ⟨.attempt, zext64 r.iter⟩) ∨
    (r.state = stAwait ∧ r.budget ≠ 0 ∧ e = ⟨.prompt, 0⟩) ∨
    (r.state = stVerr ∧ e = ⟨.verrNotice, 0⟩) ∨
    (r.state = stCompute ∧ addOvf r.opA r.opB = true ∧ e = ⟨.overflow, 0⟩) ∨
    (r.state = stSkip ∧ e = ⟨.skipNotice, 0⟩) ∨
    (r.state = stReport ∧ e = ⟨.runningSum, r.sum⟩) ∨
    (r.state = stFinal ∧ e = ⟨.finalSum, r.sum⟩) := by
  unfold presented at h
  repeat' split at h
  all_goals simp_all

/-! The step. -/

/-- One edge of an existing block: reset, or the current state's step and the environment moving on. -/
theorem step_eq_next {s t : State} :
    step s = .next t ↔
      s.cfg.nIter ≠ 0 ∧
        ((s.pins.rst = true ∧ t = s.resetRegs.advance) ∨
         (s.pins.rst = false ∧ ∃ u, exec (fetch s) s = .next u ∧ t = u.advance)) := by
  unfold step
  by_cases hn : s.cfg.nIter = 0
  · simp [hn]
  · cases hr : s.pins.rst
    · simp [hn, onNext_eq_next]
    · simp [hn, eq_comm]

end Sys2Proof.Machine
end

