-- ==== Sys2Proof/Laws/Exec.lean ====
section
/-! SUPPORT. What an instruction leaves alone of the model's own fields: the parameters and what the
environment drives. -/

namespace Sys2Proof.Machine

/-- An outcome that, if it is a next state, keeps the parameters and the environment's edges of `s`. -/
def KeepsEnvironment (s : State) (o : Outcome) : Prop :=
  ∀ t, o = .next t → t.cfg = s.cfg ∧ t.pins = s.pins ∧ t.script = s.script

theorem emit_keepsEnvironment (s : State) (e : Event) (r : Regs s.cfg) :
    KeepsEnvironment s (emit s e r) := by
  intro t h
  obtain ⟨-, rfl⟩ | ⟨-, rfl⟩ := emit_eq_next.1 h <;> exact ⟨rfl, rfl, rfl⟩

theorem take_keepsEnvironment (s : State) (f : Beat → Regs s.cfg → Regs s.cfg) :
    KeepsEnvironment s (take s f) := by
  intro t h
  obtain ⟨-, rfl⟩ | ⟨-, -, rfl⟩ | ⟨-, b, -, rfl⟩ := take_eq_next.1 h <;> exact ⟨rfl, rfl, rfl⟩

theorem receive_keepsEnvironment (b : Beat) (s : State) : KeepsEnvironment s (receive b s) := by
  intro t h
  obtain ⟨-, rfl⟩ | ⟨-, -, rfl⟩ | ⟨-, -, act, -, rfl⟩ := receive_eq_next.1 h <;>
    exact ⟨rfl, rfl, rfl⟩

theorem next_keepsEnvironment {s u : State} (h : u.cfg = s.cfg ∧ u.pins = s.pins ∧ u.script = s.script) :
    KeepsEnvironment s (.next u) := by
  intro t ht
  cases ht
  exact h

theorem ite_keepsEnvironment {s : State} {p : Prop} [Decidable p] {o o' : Outcome}
    (h : KeepsEnvironment s o) (h' : KeepsEnvironment s o') :
    KeepsEnvironment s (if p then o else o') := by
  split <;> assumption

theorem transferEvent_keepsEnvironment {e : Event} {f : State → Outcome} {s : State}
    (h : KeepsEnvironment s (f s)) : KeepsEnvironment s (transferEvent e f s) :=
  ite_keepsEnvironment h (next_keepsEnvironment ⟨rfl, rfl, rfl⟩)

/-- No instruction changes the parameters, or what the environment drives. -/
theorem exec_keepsEnvironment (i : Instr) (s : State) : KeepsEnvironment s (exec i s) := by
  have stop : ∀ r, KeepsEnvironment s (.fault r) := fun _ _ h => by cases h
  have refusal : ∀ r, KeepsEnvironment s (.refused r) := fun _ _ h => by cases h
  have regs : ∀ r, KeepsEnvironment s (.next (s.withRegs r)) :=
    fun _ => next_keepsEnvironment ⟨rfl, rfl, rfl⟩
  have ret : ∀ v, KeepsEnvironment s (.next (s.withRet v)) :=
    fun _ => next_keepsEnvironment ⟨rfl, rfl, rfl⟩
  have hAwait : KeepsEnvironment s (awaitStep s) :=
    ite_keepsEnvironment (regs _) (emit_keepsEnvironment _ _ _)
  have hCompute : KeepsEnvironment s (computeStep s) :=
    ite_keepsEnvironment (emit_keepsEnvironment _ _ _) (regs _)
  cases i with
  | iterBegin => exact emit_keepsEnvironment _ _ _
  | await => exact hAwait
  | read =>
    show KeepsEnvironment s (execRead s)
    unfold execRead
    split
    · exact stop _
    · exact take_keepsEnvironment _ _
  | verr => exact emit_keepsEnvironment _ _ _
  | discard => exact take_keepsEnvironment _ _
  | accept =>
    show KeepsEnvironment s (execAccept s)
    unfold execAccept
    split <;> exact regs _
  | compute => exact hCompute
  | skip => exact emit_keepsEnvironment _ _ _
  | report => exact emit_keepsEnvironment _ _ _
  | iterDone => exact regs _
  | final => exact emit_keepsEnvironment _ _ _
  | done => exact next_keepsEnvironment ⟨rfl, rfl, rfl⟩
  | reservedState low => exact stop _
  | readLead => exact take_keepsEnvironment _ _
  | readSign => exact take_keepsEnvironment _ _
  | readDigits => exact take_keepsEnvironment _ _
  | readReserved => exact stop _
  | evAttempt data => exact transferEvent_keepsEnvironment (emit_keepsEnvironment _ _ _)
  | evPrompt data => exact transferEvent_keepsEnvironment hAwait
  | evVerrNotice data => exact transferEvent_keepsEnvironment (emit_keepsEnvironment _ _ _)
  | evOverflow data => exact transferEvent_keepsEnvironment hCompute
  | evSkipNotice data => exact transferEvent_keepsEnvironment (emit_keepsEnvironment _ _ _)
  | evRunningSum data => exact transferEvent_keepsEnvironment (emit_keepsEnvironment _ _ _)
  | evFinalSum data => exact transferEvent_keepsEnvironment (emit_keepsEnvironment _ _ _)
  | evReserved data => exact refusal _
  | beatByte b => exact receive_keepsEnvironment _ _
  | beatEof => exact receive_keepsEnvironment _ _
  | lf => exact receive_keepsEnvironment _ _
  | wsTab => exact receive_keepsEnvironment _ _
  | wsVt => exact receive_keepsEnvironment _ _
  | wsFfCr low => exact receive_keepsEnvironment _ _
  | wsSpace => exact receive_keepsEnvironment _ _
  | digitLow value => exact receive_keepsEnvironment _ _
  | digitHigh low => exact receive_keepsEnvironment _ _
  | plus => exact receive_keepsEnvironment _ _
  | minus => exact receive_keepsEnvironment _ _
  | other b => exact receive_keepsEnvironment _ _
  | add => exact ret _
  | accum => exact ret _

end Sys2Proof.Machine
end

