-- ==== Sys2Proof/Laws/PerInstr.lean ====
section
/-! SUPPORT. Per instruction: the word it encodes to fits in its format (30_encoding.md R70). -/

namespace Sys2Proof.Laws

/-- The encoder's word fits in the width of its format. -/
def EncodeFits.Statement (i : Instr) : Prop := (encode i).bits < 2 ^ (encode i).format.width

theorem eventWord_fits (c : EventCode) (data : Word) :
    (eventWord c data).bits < 2 ^ (eventWord c data).format.width := by
  have h := data.isLt
  cases c <;> simp only [eventWord, EventCode.toBits, Format.width] <;> simp <;> omega

theorem EncodeFits.iterBegin : EncodeFits.Statement .iterBegin := by
  simp [EncodeFits.Statement, encode, Format.width]

theorem EncodeFits.await : EncodeFits.Statement .await := by
  simp [EncodeFits.Statement, encode, Format.width]

theorem EncodeFits.read : EncodeFits.Statement .read := by
  simp [EncodeFits.Statement, encode, Format.width]

theorem EncodeFits.verr : EncodeFits.Statement .verr := by
  simp [EncodeFits.Statement, encode, Format.width]

theorem EncodeFits.discard : EncodeFits.Statement .discard := by
  simp [EncodeFits.Statement, encode, Format.width]

theorem EncodeFits.accept : EncodeFits.Statement .accept := by
  simp [EncodeFits.Statement, encode, Format.width]

theorem EncodeFits.compute : EncodeFits.Statement .compute := by
  simp [EncodeFits.Statement, encode, Format.width]

theorem EncodeFits.skip : EncodeFits.Statement .skip := by
  simp [EncodeFits.Statement, encode, Format.width]

theorem EncodeFits.report : EncodeFits.Statement .report := by
  simp [EncodeFits.Statement, encode, Format.width]

theorem EncodeFits.iterDone : EncodeFits.Statement .iterDone := by
  simp [EncodeFits.Statement, encode, Format.width]

theorem EncodeFits.final : EncodeFits.Statement .final := by
  simp [EncodeFits.Statement, encode, Format.width]

theorem EncodeFits.done : EncodeFits.Statement .done := by
  simp [EncodeFits.Statement, encode, Format.width]

theorem EncodeFits.reservedState (low : BitVec 2) : EncodeFits.Statement (.reservedState low) := by
  have h := low.isLt
  simp only [EncodeFits.Statement, encode, Format.width]
  omega

theorem EncodeFits.readLead : EncodeFits.Statement .readLead := by
  simp [EncodeFits.Statement, encode, Format.width]

theorem EncodeFits.readSign : EncodeFits.Statement .readSign := by
  simp [EncodeFits.Statement, encode, Format.width]

theorem EncodeFits.readDigits : EncodeFits.Statement .readDigits := by
  simp [EncodeFits.Statement, encode, Format.width]

theorem EncodeFits.readReserved : EncodeFits.Statement .readReserved := by
  simp [EncodeFits.Statement, encode, Format.width]

theorem EncodeFits.evAttempt (data : Word) : EncodeFits.Statement (.evAttempt data) := eventWord_fits _ _

theorem EncodeFits.evPrompt (data : Word) : EncodeFits.Statement (.evPrompt data) := eventWord_fits _ _

theorem EncodeFits.evVerrNotice (data : Word) : EncodeFits.Statement (.evVerrNotice data) := eventWord_fits _ _

theorem EncodeFits.evOverflow (data : Word) : EncodeFits.Statement (.evOverflow data) := eventWord_fits _ _

theorem EncodeFits.evSkipNotice (data : Word) : EncodeFits.Statement (.evSkipNotice data) := eventWord_fits _ _

theorem EncodeFits.evRunningSum (data : Word) : EncodeFits.Statement (.evRunningSum data) := eventWord_fits _ _

theorem EncodeFits.evFinalSum (data : Word) : EncodeFits.Statement (.evFinalSum data) := eventWord_fits _ _

theorem EncodeFits.evReserved (data : Word) : EncodeFits.Statement (.evReserved data) := eventWord_fits _ _

theorem EncodeFits.beatByte (b : Byte) : EncodeFits.Statement (.beatByte b) := by
  have h := b.isLt
  simp only [EncodeFits.Statement, encode, Format.width]
  omega

theorem EncodeFits.beatEof : EncodeFits.Statement .beatEof := by
  simp [EncodeFits.Statement, encode, Format.width]

theorem EncodeFits.lf : EncodeFits.Statement .lf := by
  simp [EncodeFits.Statement, encode, Format.width]

theorem EncodeFits.wsTab : EncodeFits.Statement .wsTab := by
  simp [EncodeFits.Statement, encode, Format.width]

theorem EncodeFits.wsVt : EncodeFits.Statement .wsVt := by
  simp [EncodeFits.Statement, encode, Format.width]

theorem EncodeFits.wsFfCr (low : BitVec 1) : EncodeFits.Statement (.wsFfCr low) := by
  have h := low.isLt
  simp only [EncodeFits.Statement, encode, Format.width]
  omega

theorem EncodeFits.wsSpace : EncodeFits.Statement .wsSpace := by
  simp [EncodeFits.Statement, encode, Format.width]

theorem EncodeFits.digitLow (value : BitVec 3) : EncodeFits.Statement (.digitLow value) := by
  have h := value.isLt
  simp only [EncodeFits.Statement, encode, Format.width]
  omega

theorem EncodeFits.digitHigh (low : BitVec 1) : EncodeFits.Statement (.digitHigh low) := by
  have h := low.isLt
  simp only [EncodeFits.Statement, encode, Format.width]
  omega

theorem EncodeFits.plus : EncodeFits.Statement .plus := by
  simp [EncodeFits.Statement, encode, Format.width]

theorem EncodeFits.minus : EncodeFits.Statement .minus := by
  simp [EncodeFits.Statement, encode, Format.width]

theorem EncodeFits.other (b : Byte) : EncodeFits.Statement (.other b) := by
  have h := b.isLt
  simp only [EncodeFits.Statement, encode, Format.width]
  omega

theorem EncodeFits.add : EncodeFits.Statement .add := by
  simp [EncodeFits.Statement, encode, Format.width]

theorem EncodeFits.accum : EncodeFits.Statement .accum := by
  simp [EncodeFits.Statement, encode, Format.width]

end Sys2Proof.Laws
end

