-- ==== Sys2Proof/Tests/Slice0.lean ====
section
/-! SUPPORT. Checks of our own. Words are written out from spec/30_encoding.md; steps are the vectors
of spec/95_test_vectors.md (named in the comments); the test_witness_ theorems show, for each statement
with hypotheses, states that meet them, clause by clause. -/

namespace Sys2Proof.Tests
open Sys2Proof.Machine

/-! Ill-formed terms, one for each check of WellFormed. -/

theorem test_illFormed_prompt : (Instr.evPrompt 5).wellFormed = false := by decide
theorem test_illFormed_verrNotice : (Instr.evVerrNotice 1).wellFormed = false := by decide
theorem test_illFormed_overflow : (Instr.evOverflow 0x8000000000000000).wellFormed = false := by decide
theorem test_illFormed_skipNotice : (Instr.evSkipNotice 1).wellFormed = false := by decide
theorem test_illFormed_other :
    ∀ b ∈ [0x0A, 0x09, 0x0B, 0x0C, 0x0D, 0x20, 0x30, 0x37, 0x38, 0x39, 0x2B, 0x2D],
      (Instr.other b).wellFormed = false := by decide

/-! Decoding: words written out from R70 to R76 (E1 to E16 of §3 among them). -/

theorem test_decode_state :
    [0b0000, 0b0001, 0b0010, 0b0011, 0b0100, 0b0101, 0b0110, 0b0111, 0b1000, 0b1001, 0b1010, 0b1011,
      0b1100, 0b1111].map (fun w => (decode ⟨.state, w⟩).toOption) =
    [.iterBegin, .await, .read, .verr, .discard, .accept, .compute, .skip, .report, .iterDone, .final,
      .done, .reservedState 0, .reservedState 3].map some := by decide

theorem test_decode_statePhase :
    [0b001000, 0b001001, 0b001010, 0b001011].map (fun w => (decode ⟨.statePhase, w⟩).toOption) =
    [.readLead, .readSign, .readDigits, .readReserved].map some := by decide

/-- E16, and other state_phase words outside READ: the state code selects the step. -/
theorem test_decode_statePhase_outside_read :
    [0b001100, 0b000000, 0b010000, 0b101100, 0b110000].map
      (fun w => (decode ⟨.statePhase, w⟩).toOption) =
    [.verr, .iterBegin, .discard, .done, .reservedState 0].map some := by decide

theorem test_decode_tooWide : decode ⟨.beat, 0x200⟩ = .error (.tooWide .beat) := rfl

theorem test_decode_event :
    [0x00000000000000003, 0x10000000000000000, 0x20000000000000000, 0x30000000000000000,
      0x40000000000000000, 0x5FFFFFFFFFFFFFFFF, 0x68000000000000000, 0x70000000000000001].map
      (fun w => (decode ⟨.event, w⟩).toOption) =
    [.evAttempt 3, .evPrompt 0, .evVerrNotice 0, .evOverflow 0, .evSkipNotice 0,
      .evRunningSum 0xFFFFFFFFFFFFFFFF, .evFinalSum 0x8000000000000000, .evReserved 1].map some := by
  decide

theorem test_decode_beat :
    [0b000110101, 0b101000001, 0b100000000, 0b000001010].map
      (fun w => (decode ⟨.beat, w⟩).toOption) =
    [.beatByte 0x35, .beatEof, .beatEof, .beatByte 0x0A].map some := by decide

theorem test_decode_byteClass :
    [0x0A, 0x09, 0x0B, 0x0C, 0x0D, 0x20, 0x30, 0x37, 0x38, 0x39, 0x2B, 0x2D, 0x00, 0x2C, 0x3A, 0xB0].map
      (fun w => (decode ⟨.byteClass, w⟩).toOption) =
    [.lf, .wsTab, .wsVt, .wsFfCr 0, .wsFfCr 1, .wsSpace, .digitLow 0, .digitLow 7, .digitHigh 0,
      .digitHigh 1, .plus, .minus, .other 0x00, .other 0x2C, .other 0x3A, .other 0xB0].map some := by
  decide

/-- ADD and ACCUM are invoked by COMPUTE's code (R100, R120). -/
theorem test_encode_operations : encode .add = ⟨.state, 0x6⟩ ∧ encode .accum = ⟨.state, 0x6⟩ := by
  decide

theorem test_decodeTableWord :
    decodeTableWord 8 0x2 = some .read ∧ decodeTableWord 8 0x20 = some .wsSpace ∧
    decodeTableWord 16 0x100 = some .beatEof ∧
    decodeTableWord 72 0x10000000000000000 = some (.evPrompt 0) ∧ decodeTableWord 16 0x200 = none := by
  decide

theorem test_witness_EveryWordOfAFormatDecodes :
    0b111111 < 2 ^ Format.statePhase.width ∧ 2 ^ Format.statePhase.width ≤ 0b1000000 ∧
    0b001111 / 4 ≠ 0x2 := by decide

/-! Small states. -/

/-- The default block after reset with other registers and ports. -/
def mk (r : Regs {}) (p : Pins) : State :=
  { cfg := {}, regs := r, pins := p, script := [], taken := [], delivered := [], ret := .none }

def regs0 : Regs {} := Regs.reset {}

def accepting : Pins := { Pins.idle with evReady := true }

def offering (b : Byte) : Pins := { Pins.idle with inValid := true, inData := b }

/-- An EOF beat; in_data 0x41 is ignored (E2). -/
def offeringEof : Pins := { Pins.idle with inValid := true, inEof := true, inData := 0x41 }

def resetting : Pins := { Pins.idle with rst := true }

def after (o : Outcome) : Option State :=
  match o with
  | .next t => some t
  | .fault _ => none
  | .refused _ => none

/-- The registers of a default block. -/
def defaultRegs (t : State) : Option (Regs {}) := if h : t.cfg = {} then some (h ▸ t.regs) else none

def regsAfter (o : Outcome) : Option (Regs {}) := (after o).bind defaultRegs

def maxWord : Word := 0x7FFFFFFFFFFFFFFF

def minWord : Word := 0x8000000000000000

/-! ADD and ACCUM (§2.1, §2.2). -/

theorem test_add_vectors :
    [(maxWord, (1 : Word)), (minWord, -1), (maxWord, minWord), (minWord, minWord), (-1, -1),
      (0xC000000000000000, 0xC000000000000000), (0xC000000000000000, 0xBFFFFFFFFFFFFFFF)].map
      (fun p => (addOvf p.1 p.2, addValue p.1 p.2)) =
    [(true, 0), (true, 0), (false, -1), (true, 0), (false, -2), (false, minWord), (true, 0)] := by
  decide

theorem test_accum_vectors :
    [((300 : Word), (-200 : Word)), (maxWord, 1), (minWord, -1), (maxWord, 0), (minWord, minWord)].map
      (fun p => (accumSum p.1 p.2, accumWrapped p.1 p.2)) =
    [(100, false), (minWord, true), (maxWord, true), (maxWord, false), (0, true)] := by decide

/-- A3 as a row of its own: the pair (1, 0) is returned, and no register changes. -/
theorem test_exec_add :
    after (exec .add (mk { regs0 with opA := maxWord, opB := 1 } .idle)) =
      some { mk { regs0 with opA := maxWord, opB := 1 } .idle with ret := .add true 0 } := by decide

/-- C3 as a row of its own. -/
theorem test_exec_accum :
    after (exec .accum (mk { regs0 with opA := 1, sum := maxWord } .idle)) =
      some { mk { regs0 with opA := 1, sum := maxWord } .idle with ret := .accum minWord true } := by
  decide

/-! IVR-FSM steps (§5, F1 to F23). -/

theorem test_iterBegin_F1 :
    (after (exec .iterBegin (mk { regs0 with budget := 0, slot := .second } accepting))).map
      (fun t => (defaultRegs t, t.delivered)) =
    some (some { regs0 with state := 0x1, budget := 3, slot := .first }, [⟨.attempt, 3⟩]) := by decide

theorem test_iterBegin_F2 :
    after (exec .iterBegin (mk { regs0 with iter := 2 } .idle)) =
      some (mk { regs0 with iter := 2 } .idle) ∧
    (outputs false { regs0 with iter := 2 }).evValid = true ∧
    (outputs false { regs0 with iter := 2 }).evData = 2 := by decide

theorem test_await_F3_F5 :
    (after (exec .await (mk { regs0 with state := 0x1, budget := 2 } accepting))).map
      (fun t => (t.regs.state, t.delivered)) = some (0x2, [⟨.prompt, 0⟩]) ∧
    regsAfter (exec .await (mk { regs0 with state := 0x1, budget := 1 } .idle)) =
      some { regs0 with state := 0x1, budget := 1 } := by decide

theorem test_await_F4 :
    (after (exec .await (mk { regs0 with state := 0x1, budget := 0 } .idle))).map
      (fun t => (t.regs.state, t.delivered)) = some (0x7, []) := by decide

theorem test_verr_F6_F7 :
    regsAfter (exec .verr (mk { regs0 with state := 0x3, budget := 1 } accepting)) =
      some { regs0 with state := 0x1, budget := 0 } ∧
    regsAfter (exec .verr (mk { regs0 with state := 0x3, rdDisc := true } accepting)) =
      some { regs0 with state := 0x4, budget := 2, rdDisc := true } := by decide

theorem test_accept_F8_F9 :
    regsAfter (exec .accept (mk { regs0 with state := 0x5, budget := 1 } .idle)) =
      some { regs0 with state := 0x1, slot := .second, budget := 3 } ∧
    regsAfter (exec .accept (mk { regs0 with state := 0x5, slot := .second, budget := 2 } .idle)) =
      some { regs0 with state := 0x6, slot := .second, budget := 2 } := by decide

theorem test_compute_F11 :
    (after (exec .compute (mk { regs0 with opA := maxWord, opB := 1, sum := 7 } accepting))).map
      (fun t => (t.regs.state, t.regs.sum, t.delivered)) = some (0x8, 7, [⟨.overflow, 0⟩]) := by decide

theorem test_compute_F13_F14 :
    (regsAfter (exec .compute (mk { regs0 with opA := -5, opB := 5, sum := 9 } .idle))).map
      (fun r => (r.state, r.sum, r.accWrap)) = some (0x8, 9, false) ∧
    (regsAfter (exec .compute (mk { regs0 with opA := 1, sum := maxWord } .idle))).map
      (fun r => (r.state, r.sum, r.accWrap)) = some (0x8, minWord, true) := by decide

theorem test_skip_F16 :
    (after (exec .skip (mk { regs0 with state := 0x7, sum := 4 } accepting))).map
      (fun t => (t.regs.state, t.regs.sum, t.delivered)) = some (0x8, 4, [⟨.skipNotice, 0⟩]) := by decide

theorem test_report_F17 :
    (after (exec .report (mk { regs0 with state := 0x8, sum := -5 } accepting))).map
      (fun t => (t.regs.state, t.delivered)) =
    some (0x9, [⟨.runningSum, 0xFFFFFFFFFFFFFFFB⟩]) := by decide

theorem test_iterDone_F18_F19 :
    (regsAfter (exec .iterDone (mk { regs0 with state := 0x9 } .idle))).map
      (fun r => (r.state, r.iter)) = some (0x0, 2) ∧
    (regsAfter (exec .iterDone (mk { regs0 with state := 0x9, iter := 1 } .idle))).map
      (fun r => (r.state, r.iter)) = some (0xA, 0) := by decide

theorem test_final_F20 :
    (after (exec .final (mk { regs0 with state := 0xA, sum := 15 } accepting))).map
      (fun t => (t.regs.state, t.delivered)) = some (0xB, [⟨.finalSum, 15⟩]) := by decide

theorem test_done_F21 :
    regsAfter (step (mk { regs0 with state := 0xB } { offering 0x35 with evReady := true })) =
      some { regs0 with state := 0xB } ∧ (outputs false { regs0 with state := 0xB }).done = true := by
  decide

theorem test_reservedState_F22 :
    step (mk { regs0 with state := 0xC } accepting) = .fault .reservedState := rfl

theorem test_reset_F23 :
    regsAfter (step (mk { regs0 with state := 0xF, sum := 9, eofSeen := true } resetting)) =
      some regs0 := by decide

/-! READ and DISCARD steps (§4.2, R1 to R27). -/

def lead : Regs {} := { regs0 with state := 0x2 }
def signed : Regs {} := { regs0 with state := 0x2, rdPhase := 1, rdNeg := true }
def digits (neg : Bool) (mag : Word) : Regs {} :=
  { regs0 with state := 0x2, rdPhase := 2, rdNeg := neg, rdMag := mag }

theorem test_readLead_R1_R2_R4 :
    [0x20, 0x2D, 0x35].map (fun b => regsAfter (exec .readLead (mk lead (offering b)))) =
    [lead, signed, digits false 5].map some := by decide

theorem test_readLead_R6_R8 :
    (after (exec .readLead (mk lead offeringEof))).map (fun t => (defaultRegs t, t.taken)) =
      some (some { lead with state := 0x3, eofSeen := true }, [.eof]) ∧
    regsAfter (exec .readLead (mk lead (offering 0x61))) =
      some { lead with state := 0x3, rdDisc := true } := by decide

theorem test_read_R7_R9 :
    (after (exec .read (mk { lead with eofSeen := true } .idle))).map
      (fun t => (t.regs.state, t.regs.rdDisc, t.taken)) = some (0x3, false, []) ∧
    after (exec .read (mk lead .idle)) = some (mk lead .idle) := by decide

theorem test_readSign_R10_R11 :
    [0x37, 0x20].map (fun b => regsAfter (exec .readSign (mk signed (offering b)))) =
    [digits true 7, { lead with state := 0x3, rdDisc := true }].map some := by decide

theorem test_readDigits_R13_R14_R15 :
    [(false, (0x37 : Byte)), (false, 0x38), (true, 0x38)].map
      (fun p => regsAfter (exec .readDigits (mk (digits p.1 922337203685477580) (offering p.2)))) =
    [digits false maxWord, { lead with state := 0x3, rdDisc := true }, digits true minWord].map some := by
  decide

theorem test_readDigits_R16_R18 :
    regsAfter (exec .readDigits (mk (digits true minWord) (offering 0x0A))) =
      some { lead with state := 0x5, opA := minWord, rdOk := true } ∧
    regsAfter (exec .readDigits (mk { digits true 1 with slot := .second } (offering 0x20))) =
      some { lead with state := 0x4, slot := .second, opB := -1, rdOk := true, rdDisc := true } := by
  decide

def discarding (ok : Bool) : Regs {} := { regs0 with state := 0x4, rdOk := ok, rdDisc := true }

theorem test_discard_R22_R24 :
    regsAfter (exec .discard (mk (discarding false) (offering 0x62))) = some (discarding false) ∧
    regsAfter (exec .discard (mk (discarding true) (offering 0x0A))) =
      some { discarding true with state := 0x5 } := by decide

theorem test_discard_R25_R23 :
    regsAfter (exec .discard (mk (discarding true) offeringEof)) =
      some { discarding true with state := 0x5, eofSeen := true } ∧
    regsAfter (exec .discard (mk (discarding false) (offering 0x0A))) =
      some { discarding false with state := 0x1 } := by decide

theorem test_readReserved_R27 :
    exec .read (mk { lead with rdPhase := 3 } (offering 0x35)) = .fault .reservedPhase := rfl

/-! Words of the streams: a beat is the READ step that takes it, an event its emitter's step. -/

theorem test_beatByte_is_read :
    (after (exec (.beatByte 0x35) (mk lead .idle))).map (fun t => (defaultRegs t, t.taken)) =
      some (some (digits false 5), [.byte 0x35]) := by decide

theorem test_beatEof_in_digits :
    (after (exec .beatEof (mk (digits false 5) .idle))).map (fun t => (t.regs.state, t.regs.opA)) =
      some (0x5, 5) := by decide

theorem test_byte_rows_in_digits :
    [Instr.lf, .wsTab, .wsVt, .wsFfCr 1, .wsSpace, .digitLow 7, .digitHigh 1, .plus, .minus,
      .other 0x61].map (fun i => (regsAfter (exec i (mk (digits false 1) .idle))).map
        fun r => (r.state, r.rdMag, r.opA)) =
    [(0x5, 0, 1), (0x4, 0, 1), (0x4, 0, 1), (0x4, 0, 1), (0x4, 0, 1), (0x2, 17, 0), (0x2, 19, 0),
      (0x3, 0, 0), (0x3, 0, 0), (0x3, 0, 0)].map some := by decide

theorem test_events_delivered :
    [(0x0#4, Instr.evAttempt 3), (0x1#4, .evPrompt 0), (0x3#4, .evVerrNotice 0),
      (0x6#4, .evOverflow 0), (0x7#4, .evSkipNotice 0), (0x8#4, .evRunningSum 7),
      (0xA#4, .evFinalSum 7)].map (fun p =>
        (after (exec p.2 (mk { regs0 with state := p.1, opA := maxWord, opB := 1, sum := 7 }
          accepting))).map (fun t => (t.regs.state, t.delivered.map Event.data))) =
    [(0x1#4, [(3 : Word)]), (0x2#4, [0]), (0x1#4, [0]), (0x8#4, [0]), (0x8#4, [0]), (0x9#4, [7]),
      (0xB#4, [7])].map some := by decide

/-- A running sum of 8 is not presented, so it is not transferred. -/
theorem test_event_not_presented :
    after (exec (.evRunningSum 8) (mk { regs0 with state := 0x8, sum := 7 } accepting)) =
      some (mk { regs0 with state := 0x8, sum := 7 } accepting) := by decide

/-! A word placed by withFetchWord is run by the very next edge. -/

/-- The very next edge runs what the decoder reads from the placed word. -/
abbrev FetchWordRuns (nbits w : Nat) (i : Instr) : Prop :=
  decodeTableWord nbits w = some i ∧
    after (step (State.reset.withFetchWord nbits w)) =
      (after (exec i (State.reset.withFetchWord nbits w))).map State.advance

theorem test_fetchWord_state : FetchWordRuns 8 0x0 .iterBegin := by decide
theorem test_fetchWord_read : FetchWordRuns 8 0x2 .read := by decide
theorem test_fetchWord_done : FetchWordRuns 8 0xB .done := by decide
theorem test_fetchWord_digit : FetchWordRuns 8 0x35 (.digitLow 5) := by decide
theorem test_fetchWord_minus : FetchWordRuns 8 0x2D .minus := by decide
theorem test_fetchWord_beat : FetchWordRuns 16 0x020 (.beatByte 0x20) := by decide
theorem test_fetchWord_eof : FetchWordRuns 16 0x141 .beatEof := by decide
theorem test_fetchWord_attempt : FetchWordRuns 72 0x00000000000000003 (.evAttempt 3) := by decide
theorem test_fetchWord_overflow : FetchWordRuns 72 0x30000000000000000 (.evOverflow 0) := by decide

/-! Lines (§4.1): the line-level value of T4, T7, T12, T14, T17, T26 and T33. -/

theorem test_lineValue :
    [[0x20, 0x20, 0x34, 0x32], [0x31, 0x32, 0x20, 0x33, 0x34],
      [0x2D, 0x39, 0x32, 0x32, 0x33, 0x33, 0x37, 0x32, 0x30, 0x33, 0x36, 0x38, 0x35, 0x34, 0x37, 0x37,
        0x35, 0x38, 0x30, 0x38],
      [0x2D, 0x30], [0x34, 0x32, 0x61, 0x62, 0x63], [0x2D, 0x20, 0x35],
      [0x2D, 0x39, 0x32, 0x32, 0x33, 0x33, 0x37, 0x32, 0x30, 0x33, 0x36, 0x38, 0x35, 0x34, 0x37, 0x37,
        0x35, 0x38, 0x30, 0x39]].map lineValue =
    [some 42, some 12, some int64Min, some 0, none, none, none] := by decide

/-! Witnesses: for each statement with hypotheses, states and operands that meet them. -/

theorem test_witness_DecodeEncodeAgree :
    (Instr.other 0xFF).wellFormed = true ∧ Instr.other 0xFF ≠ .add ∧ Instr.other 0xFF ≠ .accum ∧
    (Instr.evFinalSum minWord).wellFormed = true := by decide

theorem test_witness_EncodeDecodeAgree :
    decode ⟨.beat, 0x1FF⟩ = .ok .beatEof ∧ decode ⟨.event, 2 ^ 67 - 1⟩ = .ok (.evReserved (-1)) :=
  ⟨rfl, rfl⟩

theorem test_witness_StepRunsTheSelectedInstruction :
    (mk regs0 accepting).cfg.nIter ≠ 0 ∧ (mk regs0 accepting).pins.rst = false ∧
    decode ⟨.state, (mk regs0 accepting).regs.state.toNat⟩ = .ok .iterBegin :=
  ⟨by decide, rfl, rfl⟩

theorem test_witness_ResetEdgeWritesResetValues :
    (mk { regs0 with state := 0xF } resetting).cfg.nIter ≠ 0 ∧
    (mk { regs0 with state := 0xF } resetting).pins.rst = true ∧
    (after (step { mk { regs0 with state := 0xF } resetting with script := [resetting] })).map
      (fun t => t.pins.rst) = some true := by decide

theorem test_witness_NoIterationsIsRefused :
    ({ State.reset with cfg := { nIter := 0 }, regs := Regs.reset _ } : State).cfg.nIter = 0 := rfl

theorem test_witness_SkipReportAndFinalSendTheirEvent : (mk regs0 accepting).pins.evReady = true := rfl

theorem test_witness_IterBeginStartsAnIteration :
    (mk regs0 accepting).pins.evReady = true ∧ (mk regs0 accepting).regs.iter.toNat < 2 ^ 64 := by
  decide

theorem test_witness_AwaitTestsTheBudget :
    (mk { regs0 with budget := 0 } .idle).regs.budget = 0 ∧
    (mk { regs0 with budget := 1 } accepting).regs.budget ≠ 0 ∧
    (mk { regs0 with budget := 1 } accepting).pins.evReady = true := by decide

theorem test_witness_VerrChargesTheBudget :
    (mk regs0 accepting).pins.evReady = true ∧
    1 ≤ (mk { regs0 with budget := 1 } accepting).regs.budget.toNat := by decide

theorem test_witness_AcceptAdvancesTheSlot :
    (mk regs0 .idle).regs.slot = .first ∧ (mk { regs0 with slot := .second } .idle).regs.slot = .second :=
  ⟨rfl, rfl⟩

/-- The pair sum at INT64_MAX and one above it. -/
theorem test_witness_ComputeAccumulatesThePair :
    InInt64 ((0x7FFFFFFFFFFFFFFE : Word).toInt + (1 : Word).toInt) ∧
    ¬InInt64 (maxWord.toInt + (1 : Word).toInt) ∧ ¬InInt64 (minWord.toInt + (-1 : Word).toInt) ∧
    (mk regs0 accepting).pins.evReady = true ∧ (mk regs0 .idle).pins.evReady = false := by decide

theorem test_witness_IterDoneCountsDown :
    1 ≤ (mk { regs0 with iter := 1 } .idle).regs.iter.toNat := by decide

theorem test_witness_DoneHoldsEverything :
    (mk { regs0 with state := 0xB } accepting).cfg.nIter ≠ 0 ∧
    (mk { regs0 with state := 0xB } accepting).regs.state = 0xB ∧
    (mk { regs0 with state := 0xB } accepting).pins.rst = false := by decide

theorem test_witness_ReservedCodesAreStuck :
    0xC ≤ (mk { regs0 with state := 0xC } .idle).regs.state.toNat ∧
    (mk { lead with rdPhase := 3 } .idle).regs.rdPhase = 3 ∧
    (mk { lead with rdPhase := 3 } .idle).regs.state = 0x2 ∧
    (mk { lead with rdPhase := 3 } .idle).regs.eofSeen = false ∧
    carriedBeat .plus = some (.byte 0x2B) ∧
    (mk { lead with rdPhase := 3 } .idle).pins.rst = false ∧ State.reset.cfg.nIter ≠ 0 := by decide

theorem test_witness_EmittingStepsWait :
    (mk { regs0 with budget := 1 } .idle).pins.evReady = false ∧
    (mk { regs0 with budget := 1 } .idle).regs.budget ≠ 0 := by decide

/-- Both ways to take a beat, and the bytes at the ends of the classes. -/
theorem test_witness_ReadLeadOnEveryBeat :
    Takes (mk { lead with eofSeen := true } .idle) .eof [] ∧ Takes (mk lead offeringEof) .eof [.eof] ∧
    (∀ c ∈ [0x09, 0x20, 0x0A, 0x2B, 0x2D, 0x30, 0x39, 0x2F, 0x3A],
      Takes (mk lead (offering c)) (.byte c) [.byte c]) ∧
    (mk lead .idle).regs.rdPhase = 0 ∧
    classify 0x09 = .ws ∧ classify 0x20 = .ws ∧ classify 0x30 = .digit 0 ∧ classify 0x39 = .digit 9 ∧
    classify 0x2F = .other ∧ classify 0x3A = .other := by decide

theorem test_witness_ReadSignOnEveryBeat :
    Takes (mk signed offeringEof) .eof [.eof] ∧ (mk signed .idle).regs.rdPhase = 1 ∧
    (∀ c ∈ [0x30, 0x39, 0x0A, 0x20, 0x2B, 0x2D, 0xFF],
      Takes (mk signed (offering c)) (.byte c) [.byte c]) ∧
    classify 0x30 = .digit 0 ∧
    ∀ c ∈ [(0x20 : Byte), 0x2B, 0x2D, 0xFF], classify c ∈ [.ws, .plus, .minus, .other] := by decide

/-- The magnitudes where the range clauses meet, in both signs. -/
theorem test_witness_ReadDigitsOnEveryBeat :
    Takes (mk (digits true minWord) offeringEof) .eof [.eof] ∧
    (mk (digits true minWord) .idle).regs.rdPhase = 2 ∧
    (digits true minWord).rdMag.toNat ≤ 2 ^ 63 ∧
    922337203685477580 * 10 + 7 ≤ 2 ^ 63 - 1 ∧ 2 ^ 63 - 1 < 922337203685477580 * 10 + 8 ∧
    922337203685477580 * 10 + 8 ≤ 2 ^ 63 ∧ 2 ^ 63 < 922337203685477580 * 10 + 9 ∧
    (∀ c ∈ [0x37, 0x38, 0x39, 0x20, 0x0A, 0x2B, 0x2D, 0x61],
      Takes (mk (digits false 922337203685477580) (offering c)) (.byte c) [.byte c]) ∧
    classify 0x37 = .digit 7 ∧ classify 0x38 = .digit 8 ∧ classify 0x20 = .ws ∧
    ∀ c ∈ [(0x2B : Byte), 0x2D, 0x61], classify c ∈ [.plus, .minus, .other] := by decide

theorem test_witness_DiscardOnEveryBeat :
    Takes (mk (discarding true) offeringEof) .eof [.eof] ∧
    Takes (mk (discarding true) (offering 0x0A)) (.byte 0x0A) [.byte 0x0A] ∧
    Takes (mk (discarding false) (offering 0x0B)) (.byte 0x0B) [.byte 0x0B] := by decide

theorem test_witness_TakingStepsWait :
    (mk lead .idle).regs.eofSeen = false ∧ (mk lead .idle).pins.inValid = false ∧
    (mk lead .idle).regs.rdPhase ≠ 3 := by decide

theorem test_witness_OperandValueIsExact :
    minWord.toNat ≤ limit true ∧ maxWord.toNat ≤ limit false ∧ ¬minWord.toNat ≤ limit false := by decide

theorem test_witness_OverflowIsTheRangeTest : addOvf maxWord 0 = false := by decide

theorem test_witness_OverflowIsThePreCheck : (1 : Word).toInt > 0 ∧ (-1 : Word).toInt < 0 := by decide

/-- The sums INT64_MAX and INT64_MIN - 1. -/
theorem test_witness_AddLawsHold :
    InInt64 (maxWord.toInt + (0 : Word).toInt) ∧ ¬InInt64 (minWord.toInt + (-1 : Word).toInt) := by decide

/-- 2^63 - 1 + 0 is in range, 2^63 - 1 + 1 is not. -/
theorem test_witness_AddReturnsTheCheckedSum :
    InInt64 ((mk { regs0 with opA := maxWord } .idle).regs.opA.toInt +
      (mk { regs0 with opA := maxWord } .idle).regs.opB.toInt) ∧
    ¬InInt64 ((mk { regs0 with opA := maxWord, opB := 1 } .idle).regs.opA.toInt +
      (mk { regs0 with opA := maxWord, opB := 1 } .idle).regs.opB.toInt) := by decide

theorem test_witness_EventTransferIsItsEmittersStep :
    carriedEvent (.evRunningSum 7) = some ⟨.runningSum, 7⟩ ∧
    presented (mk { regs0 with state := 0x8, sum := 7 } accepting).regs = some ⟨.runningSum, 7⟩ ∧
    (mk regs0 accepting).pins.evReady = true ∧ (mk regs0 .idle).pins.evReady = false ∧
    presented (mk { regs0 with state := 0x6, opA := maxWord, opB := 1 } .idle).regs =
      some ⟨.overflow, 0⟩ := by decide

theorem test_witness_EventNotPresentedIsNotTransferred :
    carriedEvent (.evRunningSum 8) = some ⟨.runningSum, 8⟩ ∧
    presented (mk { regs0 with state := 0x8, sum := 7 } accepting).regs ≠ some ⟨.runningSum, 8⟩ := by
  decide

theorem test_witness_BeatTransferIsTheTakingStep :
    carriedBeat (.digitHigh 1) = some (.byte 0x39) ∧ (offering 0x39).offered = some (.byte 0x39) ∧
    carriedBeat .beatEof = some .eof ∧ offeringEof.offered = some .eof ∧ lead.eofSeen = false ∧
    lead.state = 0x2 ∧ lead.rdPhase ≠ 3 ∧ (discarding true).state = 0x4 := by decide

theorem test_witness_BeatNotWantedIsNotTaken :
    carriedBeat .lf = some (.byte 0x0A) ∧ regs0.state ≠ 0x2 ∧ regs0.state ≠ 0x4 ∧
    ({ lead with eofSeen := true } : Regs {}).eofSeen = true := by decide

theorem test_witness_EventOutputsAreTheTable :
    regs0.state = 0x0 ∧ regs0.iter.toNat < 2 ^ 64 ∧ ({ regs0 with budget := 0 } : Regs {}).budget = 0 ∧
    addOvf maxWord 1 = true ∧ addOvf maxWord 0 = false := by decide

/-- One edge that takes a beat, and one that delivers an event. -/
theorem test_witness_EdgeMakesItsOneTransfer :
    (∃ t, step (mk lead (offering 0x35)) = .next t) ∧
    inputTransfer (mk lead (offering 0x35)) = some (.byte 0x35) ∧
    (∃ t, step (mk regs0 accepting) = .next t) ∧
    outputTransfer (mk regs0 accepting) = some ⟨.attempt, 3⟩ :=
  ⟨⟨_, rfl⟩, by decide, ⟨_, rfl⟩, by decide⟩

theorem test_witness_PresentedEventIsHeld :
    (mk regs0 .idle).cfg.nIter ≠ 0 ∧ (mk regs0 .idle).pins.rst = false ∧
    (mk regs0 .idle).pins.evReady = false ∧ presented (mk regs0 .idle).regs = some ⟨.attempt, 3⟩ := by
  decide

theorem test_witness_UntransferredInputHasNoEffect :
    inputTransfer (mk regs0 (offering 0x35)) = none ∧ (mk lead offeringEof).pins.inEof = true := by decide

/-- One instruction for each clause: the field it changes. -/
theorem test_witness_OnlyTheNamedStepsWriteEachRegister :
    (∃ t, exec .iterDone (mk { regs0 with state := 0x9 } .idle) = .next t ∧ t.regs.iter.toNat ≠ 3) ∧
    (∃ t, exec .verr (mk { regs0 with state := 0x3 } accepting) = .next t ∧ t.regs.budget.toNat ≠ 3) ∧
    (∃ t, exec .accept (mk regs0 .idle) = .next t ∧ t.regs.slot ≠ .first) ∧
    (∃ t, exec .readDigits (mk (digits false 7) (offering 0x0A)) = .next t ∧ t.regs.opA ≠ 0) ∧
    (∃ t, exec .lf (mk { digits false 7 with slot := .second } .idle) = .next t ∧ t.regs.opB ≠ 0) ∧
    (∃ t, exec .compute (mk { regs0 with opA := 1, sum := maxWord } .idle) = .next t ∧
      t.regs.sum ≠ maxWord ∧ t.regs.accWrap ≠ false) ∧
    (∃ t, exec .readLead (mk lead (offering 0x2D)) = .next t ∧ t.regs.rdPhase ≠ 0) ∧
    (∃ t, exec .discard (mk (discarding true) offeringEof) = .next t ∧ t.regs.eofSeen ≠ false) ∧
    ∃ t, exec .add (mk regs0 .idle) = .next t ∧ t.ret ≠ .none :=
  ⟨⟨_, rfl, by decide⟩, ⟨_, rfl, by decide⟩, ⟨_, rfl, by decide⟩, ⟨_, rfl, by decide⟩,
    ⟨_, rfl, by decide⟩, ⟨_, rfl, by decide, by decide⟩, ⟨_, rfl, by decide⟩, ⟨_, rfl, by decide⟩,
    ⟨_, rfl, by decide⟩⟩

theorem test_witness_StickyFlagsStaySet :
    (mk { regs0 with accWrap := true, eofSeen := true } accepting).pins.rst = false ∧
    (∃ t, step (mk { regs0 with accWrap := true, eofSeen := true } accepting) = .next t) ∧
    (mk { regs0 with accWrap := true, eofSeen := true } accepting).regs.accWrap = true ∧
    (mk { regs0 with accWrap := true, eofSeen := true } accepting).regs.eofSeen = true :=
  ⟨rfl, ⟨_, rfl⟩, rfl, rfl⟩

/-- A state in the middle of a read of a negative number, at the limit of the magnitude. Witness for
the statements whose hypothesis is the invariant. -/
theorem test_witness_Inv_reading : Inv (mk (digits true minWord) (offering 0x0A)) := by
  constructor <;> decide

theorem test_witness_EveryEdgeKeepsTheInvariant :
    Inv (mk (digits true minWord) (offering 0x0A)) ∧
    (mk (digits true minWord) (offering 0x0A)).pins.rst = false ∧
    ∃ t, step (mk (digits true minWord) (offering 0x0A)) = .next t :=
  ⟨test_witness_Inv_reading, rfl, ⟨_, rfl⟩⟩

theorem test_witness_ReachableEdgesNeverStop : Inv (mk (digits true minWord) (offering 0x0A)) :=
  test_witness_Inv_reading

/-- An edge that sends an event, at the bound: the last attempt of the first slot. -/
theorem test_witness_EventBudgetNeverGrows :
    Inv (mk { regs0 with state := 0x1, budget := 1 } accepting) ∧
    (mk { regs0 with state := 0x1, budget := 1 } accepting).pins.rst = false ∧
    ∃ t, step (mk { regs0 with state := 0x1, budget := 1 } accepting) = .next t :=
  ⟨by constructor <;> decide, rfl, ⟨_, rfl⟩⟩

theorem test_witness_ResetMeetsTheInvariant :
    State.reset.cfg.nIter ≠ 0 ∧ State.reset.regs = Regs.reset State.reset.cfg := by decide

/-- One COMPUTE edge without a wrap, and one with. -/
theorem test_witness_RunningSumIsTheContributions :
    NoResetFor 1 (mk { regs0 with state := 0x6, opA := 5 } .idle) ∧
    (∃ t, Host.Core.run Sys2Proof.core 1 (mk { regs0 with state := 0x6, opA := 5 } .idle) = .next t ∧
      t.regs.accWrap = false) ∧
    contributions 1 (mk { regs0 with state := 0x6, opA := 5 } .idle) = 5 ∧
    ∃ t, Host.Core.run Sys2Proof.core 1
      (mk { regs0 with state := 0x6, opA := 1, sum := maxWord } .idle) = .next t ∧
      t.regs.accWrap = true :=
  ⟨by decide, ⟨_, rfl, by decide⟩, by decide, ⟨_, rfl, by decide⟩⟩

/-- The lines "5 " LF, "x" LF with the notice accepted, and the empty line ended by EOF. -/
theorem test_witness_ReadDecidesItsLine :
    ReadStarts lead ∧ (0x0A : Byte) ∉ [(0x35 : Byte), 0x20] ∧ lineValue [0x35, 0x20] = some 5 ∧
    OffersBeats [.byte 0x35, .byte 0x20, .byte 0x0A]
      { mk lead (offering 0x35) with script := [offering 0x20, offering 0x0A] } ∧
    lineValue [0x78] = none ∧
    feeds 3 [.byte 0x78, .byte 0x0A]
      { mk lead (offering 0x78) with
        script := [{ offering 0x0A with evReady := true }, offering 0x0A] } = true ∧
    lineValue [] = none ∧ OffersBeats [.eof] (mk lead offeringEof) ∧
    feeds 2 [.eof] { mk lead offeringEof with script := [accepting] } = true := by decide

/-- R188, R183, R184: which lines leave bytes to discard. -/
theorem test_rest_of_line :
    [[0x35, 0x20], [0x20, 0x35], [0x35, 0x20, 0x36]].map blankEndsToken = [true, false, true] ∧
    [[], [0x20], [0x20, 0x2D], [0x2D, 0x20], [0x2B, 0x2B]].map failsAtTerminator =
      [true, true, true, false, false] := by decide

/-- A block of one iteration without attempts, accepted at every edge (program P8 of §7). -/
def shortSession : State :=
  { cfg := { nIter := 1, nAttempts := 0 }, regs := Regs.reset _, pins := accepting
    script := List.replicate 5 accepting, taken := [], delivered := [], ret := .none }

theorem test_witness_SessionEventsFollowTheGrammar :
    SessionStarts shortSession ∧ NoResetFor 6 shortSession ∧
    ∃ t, Host.Core.run Sys2Proof.core 6 shortSession = .next t ∧ t.regs.state = 0xB :=
  ⟨by decide, by decide, ⟨_, rfl, by decide⟩⟩

theorem test_witness_SessionIsAFunctionOfItsInput :
    shortSession.taken = [] ∧ SessionStarts shortSession ∧ NoResetFor 6 shortSession ∧
    ∃ t, Host.Core.run Sys2Proof.core 6 shortSession = .next t ∧ t.regs.state = 0xB :=
  ⟨rfl, test_witness_SessionEventsFollowTheGrammar⟩

/-- P1 of §7: "5", "10", "0", "0", "-5", "5", each ended by LF. -/
theorem test_sessionEvents_P1 :
    (sessionEvents {} 3 0 ([0x35, 0x0A, 0x31, 0x30, 0x0A, 0x30, 0x0A, 0x30, 0x0A, 0x2D, 0x35, 0x0A,
      0x35, 0x0A].map Beat.byte)).map (fun e => (e.code.toBits, e.data)) =
    [(0, 3), (1, 0), (1, 0), (5, 15), (0, 2), (1, 0), (1, 0), (5, 15), (0, 1), (1, 0), (1, 0), (5, 15),
      (6, 15)] := by decide

theorem test_witness_ResetStartsTheSession : SessionStarts (mk regs0 accepting) := by decide

/-- The first AWAIT of a session, in which ATTEMPT(3) has been delivered. -/
def promptDue : State :=
  { mk { regs0 with state := 0x1 } accepting with delivered := [⟨.attempt, 3⟩] }

theorem test_witness_EveryEdgeKeepsTheSessionSoFar :
    Inv promptDue ∧ SessionSoFar promptDue ∧ promptDue.pins.rst = false ∧
    ∃ t, step promptDue = .next t :=
  ⟨by constructor <;> decide, ⟨[], [], ⟨rfl, rfl⟩, rfl, by decide⟩, rfl, ⟨_, rfl⟩⟩

theorem test_witness_SessionEventsAreBounded :
    shortSession.cfg.nAttempts = 0 ∧ SessionStarts (mk regs0 accepting) ∧
    NoResetFor 1 (mk regs0 accepting) ∧ 1 ≤ (mk regs0 accepting).cfg.nAttempts ∧
    ∃ t, Host.Core.run Sys2Proof.core 1 (mk regs0 accepting) = .next t :=
  ⟨rfl, by decide, by decide, by decide, ⟨_, rfl⟩⟩

/-- The read that meets the sticky EOF, in a block with three attempts. -/
def readAfterEof : State :=
  { mk { lead with eofSeen := true } accepting with script := List.replicate 42 accepting }

theorem test_witness_EveryEdgeAfterEndOfInputCountsDown :
    Inv readAfterEof ∧ readAfterEof.regs.eofSeen = true ∧ readAfterEof.regs.state ≠ 0xB ∧
    readAfterEof.pins.rst = false ∧ readAfterEof.pins.evReady = true ∧
    ∃ t, step readAfterEof = .next t :=
  ⟨by constructor <;> decide, rfl, by decide, rfl, rfl, ⟨_, rfl⟩⟩

theorem test_witness_EndOfInputEndsTheSession :
    Inv readAfterEof ∧ readAfterEof.regs.eofSeen = true ∧
    AcceptsFor (eofBound readAfterEof.cfg) readAfterEof :=
  ⟨test_witness_EveryEdgeAfterEndOfInputCountsDown.1, rfl, by decide⟩

/-- The second iteration begins, with operands of the first one left. -/
def secondIteration : State :=
  { mk { regs0 with iter := 2, opA := 5, opB := 7, slot := .second } accepting with
    script := [accepting, offering 0x35, offering 0x0A] }

theorem test_witness_StaleOperandsAreNeverRead :
    Inv secondIteration ∧ secondIteration.regs.state = 0x0 ∧
    ∃ t, Host.Core.run Sys2Proof.core 4 secondIteration = .next t ∧ t.taken.length = 2 :=
  ⟨by constructor <;> decide, rfl, ⟨_, rfl, by decide⟩⟩

/-- In READ of the first slot both operands may differ; in COMPUTE neither. -/
theorem test_witness_EveryEdgeKeepsStaleOperandsUnread :
    Inv (mk lead (offering 0x35)) ∧
    AgreeButStaleOperands (mk lead (offering 0x35)) (mk { lead with opA := 5, opB := 7 } (offering 0x35)) ∧
    ∃ t, step (mk lead (offering 0x35)) = .next t :=
  ⟨by constructor <;> decide,
    ⟨5, 7, rfl, fun h => absurd (show Slot.first = .second from h) (by decide),
      fun h => False.elim h⟩, ⟨_, rfl⟩⟩

/-- The smallest width that holds 3. -/
theorem test_witness_CounterWidthsAreSmallest :
    1 ≤ 2 ∧ ({} : Params).nIter < 2 ^ 2 ∧ ({} : Params).nAttempts < 2 ^ 2 := by decide

end Sys2Proof.Tests
end

/-! The parameters (00_scope.md R8 to R10): the widths of the counter registers, and the configuration
that does not exist. -/

namespace Sys2Proof.Machine

/-- `regWidth n` is the least of the widths, from 1 up, that hold `n` (00_scope.md R10): "holds",
"at least 1" and "smallest" are its two directions. -/
theorem regWidth_le_iff {n w : Nat} : regWidth n ≤ w ↔ 1 ≤ w ∧ n < 2 ^ w := by
  unfold regWidth
  split
  case isTrue hn => simp [hn]
  case isFalse hn =>
    rw [Nat.add_one_le_iff, Nat.log2_lt hn, iff_and_self]
    intro hlt
    by_contra hw
    obtain rfl : w = 0 := by omega
    omega

theorem lt_two_pow_regWidth (n : Nat) : n < 2 ^ regWidth n := (regWidth_le_iff.mp le_rfl).2

theorem regWidth_three : regWidth 3 = 2 := by decide

/-- Settles O51: `regWidth_le_iff`, read at each of the two parameters. -/
theorem counterWidthsAreSmallest : Obligations.CounterWidthsAreSmallest :=
  ⟨fun c => ⟨lt_two_pow_regWidth c.nIter, lt_two_pow_regWidth c.nAttempts,
      regWidth_pos c.nIter, regWidth_pos c.nAttempts,
      fun _ hw hlt => regWidth_le_iff.mpr ⟨hw, hlt⟩,
      fun _ hw hlt => regWidth_le_iff.mpr ⟨hw, hlt⟩⟩,
    regWidth_three, regWidth_three⟩

/-- The refusal comes before the reset edge and before every step (00_scope.md R8). -/
theorem step_of_nIter_eq_zero {s : State} (h : s.cfg.nIter = 0) : step s = .refused .noIterations :=
  if_pos h

/-- Settles O8: the default is a field of the reset state's parameters, the refusal the first test of
`step`. -/
theorem noIterationsIsRefused : Obligations.NoIterationsIsRefused :=
  ⟨rfl, fun _ => step_of_nIter_eq_zero⟩

end Sys2Proof.Machine

/-! One edge (10_state.md R21, R39; 70_reset_and_hazards.md R240): what `step` is with and without
reset, and the step that each used state code selects. -/

namespace Sys2Proof.Machine

/-! Reset. -/

theorem iter_full_toNat (c : Params) : (BitVec.ofNat c.wIter c.nIter).toNat = c.nIter :=
  (BitVec.toNat_ofNat _ _).trans (Nat.mod_eq_of_lt (lt_two_pow_regWidth c.nIter))

theorem budget_full_toNat (c : Params) : (BitVec.ofNat c.wBud c.nAttempts).toNat = c.nAttempts :=
  (BitVec.toNat_ofNat _ _).trans (Nat.mod_eq_of_lt (lt_two_pow_regWidth c.nAttempts))

theorem step_of_rst {s : State} (hn : s.cfg.nIter ≠ 0) (hr : s.pins.rst = true) :
    step s = .next s.resetRegs.advance := by
  simp [step, hn, hr]

theorem step_of_not_rst {s : State} (hn : s.cfg.nIter ≠ 0) (hr : s.pins.rst = false) :
    step s = onNext State.advance (exec (fetch s) s) := by
  simp [step, hn, hr]

theorem resetRegs_of_regs {s : State} (h : s.regs = Regs.reset s.cfg) : s.resetRegs = s := by
  rw [State.resetRegs, ← h]
  rfl

/-- With rst = 1 the block shows no event and asks for no beat (20_memory.md R53, R56). -/
theorem outputs_of_rst {c : Params} (r : Regs c) :
    (outputs true r).inReady = false ∧ (outputs true r).evValid = false := ⟨rfl, rfl⟩

/-- Settles O6: a reset edge is `step_of_rst`; one that follows it finds the reset values in place. -/
theorem resetEdgeWritesResetValues : Obligations.ResetEdgeWritesResetValues := by
  refine ⟨fun s hn hr => ?writes, fun s t hstep hs ht => ?again, fun c r => outputs_of_rst r⟩
  case writes =>
    exact ⟨_, _, iter_full_toNat s.cfg, budget_full_toNat s.cfg, step_of_rst hn hr⟩
  case again =>
    obtain ⟨hn, ⟨-, rfl⟩ | ⟨hs', -⟩⟩ := step_eq_next.1 hstep
    · rw [step_of_rst (s := s.resetRegs.advance) hn ht, resetRegs_of_regs rfl]
      rfl
    · simp [hs] at hs'

/-- Settles O7: the reset values at N_ITER = N_ATTEMPTS = 3, whose counters are 2 bits wide. -/
theorem resetStateOfTheDefaultBlock : Obligations.ResetStateOfTheDefaultBlock := by
  unfold Obligations.ResetStateOfTheDefaultBlock
  rw [State.reset_regs]
  rfl

/-! The selected step. -/

/-- A state register's content is always a word of the state format. -/
theorem decode_state (w : BitVec 4) : decode ⟨.state, w.toNat⟩ = .ok (decodeState w) := by
  simp [decode, Format.width, w.isLt]

/-- Settles O5: the decoder reads in the state register what `fetch` does. -/
theorem stepRunsTheSelectedInstruction : Obligations.StepRunsTheSelectedInstruction := by
  intro s i hn hr hdec
  rw [decode_state, Except.ok.injEq] at hdec
  subst hdec
  rw [step_of_not_rst hn hr]
  change onNext State.advance (exec (decodeState s.regs.state) s) = _
  cases exec (decodeState s.regs.state) s <;> rfl

/-- The codes in use (30_encoding.md R72). -/
theorem usedState_cases {w : BitVec 4} (h : w.toNat ≤ 0xB) :
    w = stIterBegin ∨ w = stAwait ∨ w = stRead ∨ w = stVerr ∨ w = stDiscard ∨ w = stAccept ∨
      w = stCompute ∨ w = stSkip ∨ w = stReport ∨ w = stIterDone ∨ w = stFinal ∨ w = stDone := by
  revert w
  decide

/-- What holds of the step of each used state code holds of the step selected. -/
theorem fetch_cases {P : Instr → Prop} {s : State} (used : s.regs.state.toNat ≤ 0xB)
    (iterBegin : s.regs.state = stIterBegin → P .iterBegin)
    (await : s.regs.state = stAwait → P .await)
    (read : s.regs.state = stRead → P .read)
    (verr : s.regs.state = stVerr → P .verr)
    (discard : s.regs.state = stDiscard → P .discard)
    (accept : s.regs.state = stAccept → P .accept)
    (compute : s.regs.state = stCompute → P .compute)
    (skip : s.regs.state = stSkip → P .skip)
    (report : s.regs.state = stReport → P .report)
    (iterDone : s.regs.state = stIterDone → P .iterDone)
    (final : s.regs.state = stFinal → P .final)
    (done : s.regs.state = stDone → P .done) : P (fetch s) := by
  unfold fetch
  obtain h | h | h | h | h | h | h | h | h | h | h | h := usedState_cases used
  · rw [h]; exact iterBegin h
  · rw [h]; exact await h
  · rw [h]; exact read h
  · rw [h]; exact verr h
  · rw [h]; exact discard h
  · rw [h]; exact accept h
  · rw [h]; exact compute h
  · rw [h]; exact skip h
  · rw [h]; exact report h
  · rw [h]; exact iterDone h
  · rw [h]; exact final h
  · rw [h]; exact done h

end Sys2Proof.Machine

/-! Rules for a property of the next state: one for each shared operation. -/

namespace Sys2Proof.Machine

/-- An outcome whose next state, if there is one, has the property. -/
def Ensures (P : State → Prop) (o : Outcome) : Prop := ∀ t, o = .next t → P t

theorem ensures_next {P : State → Prop} {s : State} (h : P s) : Ensures P (.next s) := by
  rintro t ⟨⟩
  exact h

theorem ensures_fault {P : State → Prop} (r : Fault) : Ensures P (.fault r) :=
  fun _ h => by cases h

theorem ensures_refused {P : State → Prop} (r : Refusal) : Ensures P (.refused r) :=
  fun _ h => by cases h

theorem ensures_ite {P : State → Prop} {p : Prop} [Decidable p] {o o' : Outcome}
    (h : p → Ensures P o) (h' : ¬p → Ensures P o') : Ensures P (if p then o else o') := by
  split
  case isTrue hp => exact h hp
  case isFalse hp => exact h' hp

theorem emit_ensures {P : State → Prop} {s : State} {e : Event} {r : Regs s.cfg}
    (hold : P s) (sent : P ((s.withRegs r).logEvent e)) : Ensures P (emit s e r) := by
  intro t h
  obtain ⟨-, rfl⟩ | ⟨-, rfl⟩ := emit_eq_next.1 h
  · exact sent
  · exact hold

theorem take_ensures {P : State → Prop} {s : State} {f : Beat → Regs s.cfg → Regs s.cfg}
    (hold : P s) (sticky : s.regs.eofSeen = true → P (s.withRegs (f .eof s.regs)))
    (beat : s.regs.eofSeen = false → ∀ b, P ((s.withRegs (f b s.regs)).logBeat b)) :
    Ensures P (take s f) := by
  intro t h
  obtain ⟨heof, rfl⟩ | ⟨-, -, rfl⟩ | ⟨heof, b, -, rfl⟩ := take_eq_next.1 h
  · exact sticky heof
  · exact hold
  · exact beat heof b

theorem receive_ensures {P : State → Prop} {s : State} {b : Beat} (hold : P s)
    (discard : P ((s.withRegs (discardWith b s.regs)).logBeat b))
    (read : ∀ act, P ((s.withRegs (readWith act b s.regs)).logBeat b)) :
    Ensures P (receive b s) := by
  intro t h
  obtain ⟨-, rfl⟩ | ⟨-, -, rfl⟩ | ⟨-, -, act, -, rfl⟩ := receive_eq_next.1 h
  · exact hold
  · exact discard
  · exact read act

theorem transferEvent_ensures {P : State → Prop} {e : Event} {f : State → Outcome} {s : State}
    (hold : P s) (sent : presented s.regs = some e → Ensures P (f s)) :
    Ensures P (transferEvent e f s) := by
  obtain ⟨hp, h⟩ | ⟨-, h⟩ := transferEvent_eq (e := e) (f := f) (s := s)
  · rw [h]
    exact sent hp
  · rw [h]
    exact ensures_next hold

/-- READ is one of its phases' steps, or stuck (43_token_reader.md R182). -/
theorem execRead_ensures {P : State → Prop} {s : State}
    (phase : ∀ act, phaseAction s.regs = some act → Ensures P (take s (readWith act))) :
    Ensures P (execRead s) := by
  unfold execRead
  cases hp : phaseAction s.regs with
  | none => exact ensures_fault _
  | some act => exact phase act hp

end Sys2Proof.Machine

/-! The invariant of the reachable states (10_state.md R40), taken apart by the registers its clauses
speak of. A step that leaves the reader registers alone keeps their clauses because it starts outside
READ, where they are idle; a verdict keeps them because it makes them idle. -/

namespace Sys2Proof.Machine

/-- The clauses on `state`, `iter` and `budget`. -/
structure CounterInv {c : Params} (r : Regs c) : Prop where
  legalState : r.state.toNat ≤ 0xB
  iterRunning : r.state ≠ stFinal → r.state ≠ stDone → 1 ≤ r.iter.toNat ∧ r.iter.toNat ≤ c.nIter
  iterEnded : r.state = stFinal ∨ r.state = stDone → r.iter = 0
  budgetBound : r.budget.toNat ≤ c.nAttempts

/-- The clauses on the reader registers. -/
structure ReaderInv {c : Params} (r : Regs c) : Prop where
  legalPhase : r.rdPhase ≠ 3
  readerIdle : r.state ≠ stRead → r.rdPhase = phLead ∧ r.rdNeg = false ∧ r.rdMag = 0
  leadClear : r.rdPhase = phLead → r.rdNeg = false ∧ r.rdMag = 0
  signClear : r.rdPhase = phSign → r.rdMag = 0
  magBound : r.rdMag.toNat ≤ limit r.rdNeg
  eofLead : r.eofSeen = true → r.rdPhase = phLead

/-- The clauses on what has been established when a state is entered. -/
structure EntryInv {c : Params} (r : Regs c) : Prop where
  readBudget : r.state = stRead → r.budget ≠ 0
  verrBudget : r.state = stVerr → r.budget ≠ 0
  discardPending : r.state = stDiscard → r.rdDisc = true ∧ r.eofSeen = false
  verrFailed : r.state = stVerr → r.rdOk = false
  verrPending : r.state = stVerr → r.rdDisc = true → r.eofSeen = false
  computeSlot : r.state = stCompute → r.slot = .second

theorem inv_iff {s : State} :
    Inv s ↔ s.cfg.nIter ≠ 0 ∧ CounterInv s.regs ∧ ReaderInv s.regs ∧ EntryInv s.regs := by
  constructor
  · intro h
    exact ⟨h.iterations, { h with }, { h with }, { h with }⟩
  · rintro ⟨hn, hc, hr, he⟩
    exact { hc, hr, he with iterations := hn }

/-! The invariant reads the parameters and the registers only. -/

theorem Inv.logEvent {s : State} (h : Inv s) (e : Event) : Inv (s.logEvent e) := { h with }

theorem Inv.logBeat {s : State} (h : Inv s) (b : Beat) : Inv (s.logBeat b) := { h with }

theorem Inv.advance {s : State} (h : Inv s) : Inv s.advance := { h with }

/-! Where the clauses hold for a plain reason. -/

/-- The reader between two reads (43_token_reader.md R180). -/
abbrev ReaderIdle {c : Params} (r : Regs c) : Prop :=
  r.rdPhase = phLead ∧ r.rdNeg = false ∧ r.rdMag = 0

theorem ReaderInv.of_idle {c : Params} {r : Regs c} (h : ReaderIdle r) : ReaderInv r := by
  obtain ⟨hphase, hneg, hmag⟩ := h
  constructor <;> simp [hphase, hneg, hmag]

theorem Inv.idle {s : State} (hs : Inv s) (h : s.regs.state ≠ stRead) : ReaderIdle s.regs :=
  hs.readerIdle h

/-- Most states ask for nothing when they are entered. -/
theorem EntryInv.of_unconditional {c : Params} {r : Regs c}
    (h : r.state ∉ [stRead, stVerr, stDiscard, stCompute]) : EntryInv r := by
  simp only [List.mem_cons, List.not_mem_nil, not_or, or_false] at h
  obtain ⟨hread, hverr, hdiscard, hcompute⟩ := h
  constructor <;> intro <;> contradiction

theorem EntryInv.of_read {c : Params} {r : Regs c} (h : r.state = stRead) (budget : r.budget ≠ 0) :
    EntryInv r where
  readBudget _ := budget
  verrBudget := by simp [h]
  discardPending := by simp [h]
  verrFailed := by simp [h]
  verrPending := by simp [h]
  computeSlot := by simp [h]

theorem EntryInv.of_verr {c : Params} {r : Regs c} (h : r.state = stVerr) (budget : r.budget ≠ 0)
    (failed : r.rdOk = false) (pending : r.rdDisc = true → r.eofSeen = false) : EntryInv r where
  readBudget := by simp [h]
  verrBudget _ := budget
  discardPending := by simp [h]
  verrFailed _ := failed
  verrPending _ := pending
  computeSlot := by simp [h]

theorem EntryInv.of_discard {c : Params} {r : Regs c} (h : r.state = stDiscard)
    (pending : r.rdDisc = true) (eof : r.eofSeen = false) : EntryInv r where
  readBudget := by simp [h]
  verrBudget := by simp [h]
  discardPending _ := ⟨pending, eof⟩
  verrFailed := by simp [h]
  verrPending := by simp [h]
  computeSlot := by simp [h]

theorem EntryInv.of_compute {c : Params} {r : Regs c} (h : r.state = stCompute)
    (slot : r.slot = .second) : EntryInv r where
  readBudget := by simp [h]
  verrBudget := by simp [h]
  discardPending := by simp [h]
  verrFailed := by simp [h]
  verrPending := by simp [h]
  computeSlot _ := slot

/-- An iteration goes on, from one of the states 0x0 to 0x9 to another: `iter` is left alone. -/
theorem CounterInv.running {c : Params} {r r' : Regs c} (h : CounterInv r)
    (hfrom : r.state.toNat ≤ 9) (hto : r'.state.toNat ≤ 9) (iter : r'.iter = r.iter)
    (budget : r'.budget.toNat ≤ c.nAttempts) : CounterInv r' := by
  have not_ended : ∀ w : BitVec 4, w.toNat ≤ 9 → w ≠ stFinal ∧ w ≠ stDone := by decide
  obtain ⟨hf, hd⟩ := not_ended _ hfrom
  obtain ⟨hf', hd'⟩ := not_ended _ hto
  exact {
    legalState := by omega
    iterRunning := fun _ _ => iter ▸ h.iterRunning hf hd
    iterEnded := fun h' => by simp [hf', hd'] at h'
    budgetBound := budget }

/-- A step within an iteration that is not READ and leaves `iter` and the reader registers alone. -/
theorem Inv.moved {s : State} (hs : Inv s) {r : Regs s.cfg} (hread : s.regs.state ≠ stRead)
    (hfrom : s.regs.state.toNat ≤ 9) (hto : r.state.toNat ≤ 9) (iter : r.iter = s.regs.iter)
    (budget : r.budget.toNat ≤ s.cfg.nAttempts)
    (phase : r.rdPhase = s.regs.rdPhase) (neg : r.rdNeg = s.regs.rdNeg)
    (mag : r.rdMag = s.regs.rdMag) (entry : EntryInv r) : Inv (s.withRegs r) := by
  obtain ⟨hn, hc, -, -⟩ := inv_iff.1 hs
  have idle : ReaderIdle r := by
    rw [ReaderIdle, phase, neg, mag]
    exact hs.idle hread
  exact inv_iff.2 ⟨hn, hc.running hfrom hto iter budget, .of_idle idle, entry⟩

/-! Reset. -/

/-- Settles O42: the reset values are those of an idle reader in ITER_BEGIN with full counters. -/
theorem resetMeetsTheInvariant : Obligations.ResetMeetsTheInvariant := by
  intro s hn hreset
  rw [inv_iff, hreset]
  refine ⟨hn, ?counters, .of_idle ⟨rfl, rfl, rfl⟩, .of_unconditional (by simp)⟩
  exact {
    legalState := by simp
    iterRunning := fun _ _ => by
      rw [Regs.reset_iter, iter_full_toNat]
      omega
    iterEnded := fun h => by simp at h
    budgetBound := (budget_full_toNat s.cfg).le }

theorem Inv.reset {s : State} (h : Inv s) : Inv s.resetRegs :=
  resetMeetsTheInvariant _ h.iterations rfl

/-! The steps without a beat. -/

theorem decrement_le {w : Nat} {v : BitVec w} (h : v ≠ 0) : (decrement v).toNat ≤ v.toNat := by
  rw [decrement_toNat h]
  exact Nat.sub_le _ _

theorem iterBegin_ensures_inv {s : State} (hs : Inv s) (h : s.regs.state = stIterBegin) :
    Ensures Inv (iterBeginStep s) := by
  refine emit_ensures hs (Inv.logEvent ?_ _)
  exact hs.moved (by simp [h]) (by simp [h]) (by simp) rfl (budget_full_toNat s.cfg).le rfl rfl rfl
    (.of_unconditional (by simp))

theorem await_ensures_inv {s : State} (hs : Inv s) (h : s.regs.state = stAwait) :
    Ensures Inv (awaitStep s) := by
  refine ensures_ite (fun _ => ensures_next ?skip) fun hb => emit_ensures hs (Inv.logEvent ?read _)
  case skip =>
    exact hs.moved (by simp [h]) (by simp [h]) (by simp) rfl hs.budgetBound rfl rfl rfl
      (.of_unconditional (by simp))
  case read =>
    exact hs.moved (by simp [h]) (by simp [h]) (by simp) rfl hs.budgetBound rfl rfl rfl
      (.of_read rfl hb)

theorem verr_ensures_inv {s : State} (hs : Inv s) (h : s.regs.state = stVerr) :
    Ensures Inv (verrStep s) := by
  have budget := (decrement_le (hs.verrBudget h)).trans hs.budgetBound
  refine emit_ensures hs (Inv.logEvent ?_ _)
  cases hdisc : s.regs.rdDisc with
  | false =>
    exact hs.moved (by simp [h]) (by simp [h]) (by simp) rfl budget rfl rfl rfl
      (.of_unconditional (by simp))
  | true =>
    exact hs.moved (by simp [h]) (by simp [h]) (by simp) rfl budget rfl rfl rfl
      (.of_discard rfl hdisc (hs.verrPending h hdisc))

theorem accept_ensures_inv {s : State} (hs : Inv s) (h : s.regs.state = stAccept) :
    Ensures Inv (execAccept s) := by
  unfold execAccept
  cases hslot : s.regs.slot with
  | first =>
    exact ensures_next (hs.moved (by simp [h]) (by simp [h]) (by simp) rfl
      (budget_full_toNat s.cfg).le rfl rfl rfl (.of_unconditional (by simp)))
  | second =>
    exact ensures_next (hs.moved (by simp [h]) (by simp [h]) (by simp) rfl hs.budgetBound rfl rfl rfl
      (.of_compute rfl hslot))

theorem compute_ensures_inv {s : State} (hs : Inv s) (h : s.regs.state = stCompute) :
    Ensures Inv (computeStep s) := by
  have computed : Inv (s.withRegs (computeRegs s.regs)) :=
    hs.moved (by simp [h]) (by simp [h]) (by simp [computeRegs]) rfl hs.budgetBound rfl rfl rfl
      (.of_unconditional (by simp [computeRegs]))
  exact ensures_ite (fun _ => emit_ensures hs (computed.logEvent _)) fun _ => ensures_next computed

theorem skip_ensures_inv {s : State} (hs : Inv s) (h : s.regs.state = stSkip) :
    Ensures Inv (skipStep s) := by
  refine emit_ensures hs (Inv.logEvent ?_ _)
  exact hs.moved (by simp [h]) (by simp [h]) (by simp) rfl hs.budgetBound rfl rfl rfl
    (.of_unconditional (by simp))

theorem report_ensures_inv {s : State} (hs : Inv s) (h : s.regs.state = stReport) :
    Ensures Inv (reportStep s) := by
  refine emit_ensures hs (Inv.logEvent ?_ _)
  exact hs.moved (by simp [h]) (by simp [h]) (by simp) rfl hs.budgetBound rfl rfl rfl
    (.of_unconditional (by simp))

/-- The last iteration ends in FINAL with iter = 0; any other one leaves at least 1. -/
theorem iterDone_ensures_inv {s : State} (hs : Inv s) (h : s.regs.state = stIterDone) :
    Ensures Inv (execIterDone s) := by
  have hidle := hs.idle (by simp [h])
  obtain ⟨hpos, hle⟩ := hs.iterRunning (by simp [h]) (by simp [h])
  have hne : s.regs.iter ≠ 0 := fun h0 => by simp [h0] at hpos
  have hleft := (decrement_le hne).trans hle
  unfold execIterDone
  by_cases h0 : decrement s.regs.iter = 0
  · simp only [h0, ↓reduceIte]
    refine ensures_next (inv_iff.2 ⟨hs.iterations, ?_, .of_idle hidle, .of_unconditional (by simp)⟩)
    constructor <;> simp [hs.budgetBound]
  · have hpos' : (decrement s.regs.iter).toNat ≠ 0 := fun hz => h0 (BitVec.eq_of_toNat_eq hz)
    simp only [h0, ↓reduceIte]
    refine ensures_next (inv_iff.2 ⟨hs.iterations, ?_, .of_idle hidle, .of_unconditional (by simp)⟩)
    constructor <;> simp [hs.budgetBound, hleft]
    omega

theorem final_ensures_inv {s : State} (hs : Inv s) (h : s.regs.state = stFinal) :
    Ensures Inv (finalStep s) := by
  have hidle := hs.idle (by simp [h])
  have hiter := hs.iterEnded (.inl h)
  refine emit_ensures hs (Inv.logEvent ?_ _)
  refine inv_iff.2 ⟨hs.iterations, ?counters, .of_idle hidle, .of_unconditional (by simp)⟩
  constructor <;> simp [hiter, hs.budgetBound]

/-! The steps that take a beat. -/

theorem noteEof_frame (b : Beat) {c : Params} (r : Regs c) :
    noteEof b r = { r with eofSeen := (noteEof b r).eofSeen } := by
  cases b <;> simp

/-- DISCARD stays as it is, or ends in a state that asks for nothing. -/
theorem discard_keeps_inv {s : State} (hs : Inv s) (h : s.regs.state = stDiscard) (b : Beat) :
    Inv (s.withRegs (discardWith b s.regs)) := by
  unfold discardWith
  split
  · rw [noteEof_frame]
    cases s.regs.rdOk <;>
      exact hs.moved (by simp [h]) (by simp [h]) (by simp) rfl hs.budgetBound rfl rfl rfl
        (.of_unconditional (by simp))
  · exact hs

/-- At EOF every phase gives a verdict with nothing left to discard (43_token_reader.md R189). -/
theorem phaseAction_eof {c : Params} {r : Regs c} {act : Beat → ReadAction}
    (h : phaseAction r = some act) :
    (∃ v, act .eof = .succeed false v) ∨ ∃ cause, act .eof = .fail cause false := by
  obtain ⟨-, rfl⟩ | ⟨-, rfl⟩ | ⟨-, rfl⟩ := phaseAction_eq_some h
  · exact .inr ⟨_, rfl⟩
  · exact .inr ⟨_, rfl⟩
  · exact .inl ⟨_, rfl⟩

theorem leadAction_byte (b : Byte) :
    (∀ d, leadAction (.byte b) = .firstDigit d → d ≤ 9) ∧
      ∀ m, leadAction (.byte b) ≠ .nextDigit m := by
  simp only [leadAction]
  cases hb : classify b with
  | digit d => simp [(classify_digit hb).2]
  | lf | ws | plus | minus | other => simp

/-- After a sign a byte is a first digit or decides the read. -/
theorem signAction_byte (b : Byte) :
    (∀ d, signAction (.byte b) = .firstDigit d → d ≤ 9) ∧
      (∀ neg, signAction (.byte b) ≠ .sign neg) ∧ ∀ m, signAction (.byte b) ≠ .nextDigit m := by
  simp only [signAction]
  cases hb : classify b with
  | digit d => simp [(classify_digit hb).2]
  | lf | ws | plus | minus | other => simp

/-- A digit is taken only while the magnitude stays within LIMIT (43_token_reader.md R186). -/
theorem digitsAction_byte (neg : Bool) (mag : Word) (b : Byte) :
    (∀ m, digitsAction neg mag (.byte b) = .nextDigit m → m ≤ limit neg) ∧
      (∀ n, digitsAction neg mag (.byte b) ≠ .sign n) ∧
      ∀ d, digitsAction neg mag (.byte b) ≠ .firstDigit d := by
  simp only [digitsAction]
  cases hb : classify b with
  | digit d =>
    by_cases hm : mag.toNat * 10 + d > limit neg
    · simp [hm]
    · simp [hm, Nat.le_of_not_lt hm]
  | lf | ws | plus | minus | other => simp

/-- What the actions of a byte keep to: a sign comes first, and the magnitude stays within LIMIT. -/
theorem phaseAction_byte {c : Params} {r : Regs c} {act : Beat → ReadAction}
    (h : phaseAction r = some act) (b : Byte) :
    (∀ neg, act (.byte b) = .sign neg → r.rdPhase = phLead) ∧
    (∀ d, act (.byte b) = .firstDigit d → d ≤ 9) ∧
    (∀ m, act (.byte b) = .nextDigit m → r.rdPhase = phDigits ∧ m ≤ limit r.rdNeg) := by
  obtain ⟨hphase, rfl⟩ | ⟨hphase, rfl⟩ | ⟨hphase, rfl⟩ := phaseAction_eq_some h
  · obtain ⟨hfirst, hnext⟩ := leadAction_byte b
    exact ⟨fun _ _ => hphase, hfirst, fun m hm => absurd hm (hnext m)⟩
  · obtain ⟨hfirst, hsign, hnext⟩ := signAction_byte b
    exact ⟨fun neg hneg => absurd hneg (hsign neg), hfirst, fun m hm => absurd hm (hnext m)⟩
  · obtain ⟨hnext, hsign, hfirst⟩ := digitsAction_byte r.rdNeg r.rdMag b
    exact ⟨fun neg hneg => absurd hneg (hsign neg), fun d hd => absurd hd (hfirst d),
      fun m hm => ⟨hphase, hnext m hm⟩⟩

theorem limit_lt (neg : Bool) : limit neg < 2 ^ 64 := by
  cases neg <;> decide

theorem nine_le_limit (neg : Bool) : 9 ≤ limit neg := by
  cases neg <;> decide

/-- A verdict leaves an idle reader; what VERR and DISCARD ask for is what the verdict and the budget
of READ give (43_token_reader.md R188). -/
theorem verdict_keeps_inv {s : State} (hs : Inv s) (h : s.regs.state = stRead) {ok disc : Bool}
    {r : Regs s.cfg} (iter : r.iter = s.regs.iter) (budget : r.budget = s.regs.budget)
    (pending : disc = true → r.eofSeen = false) : Inv (s.withRegs (closeRead ok disc r)) := by
  obtain ⟨hn, hc, -, -⟩ := inv_iff.1 hs
  have hbudget := hs.readBudget h
  refine inv_iff.2 ⟨hn, hc.running (by simp [h]) ?hto iter ?budget, .of_idle ⟨rfl, rfl, rfl⟩, ?entry⟩
  case hto => cases ok <;> cases disc <;> simp [closeRead]
  case budget => simpa [closeRead, budget] using hs.budgetBound
  case entry =>
    cases ok with
    | false => exact .of_verr rfl (budget.trans_ne hbudget) rfl pending
    | true =>
      cases disc with
      | false => exact .of_unconditional (by simp [closeRead])
      | true => exact .of_discard rfl rfl (pending rfl)

theorem writeOperand_frame {c : Params} (v : Int) (r : Regs c) :
    writeOperand v r =
      { r with opA := (writeOperand v r).opA, opB := (writeOperand v r).opB } := by
  unfold writeOperand
  split <;> rfl

theorem read_eof_keeps_inv {s : State} (hs : Inv s) (h : s.regs.state = stRead)
    {act : Beat → ReadAction} (hact : phaseAction s.regs = some act) :
    Inv (s.withRegs (readWith act .eof s.regs)) := by
  unfold readWith
  obtain ⟨v, hv⟩ | ⟨cause, hc⟩ := phaseAction_eof hact
  · rw [hv, noteEof_eof]
    exact verdict_keeps_inv hs h (by rw [writeOperand_frame]) (by rw [writeOperand_frame]) nofun
  · rw [hc, noteEof_eof]
    exact verdict_keeps_inv hs h rfl rfl nofun

theorem read_byte_keeps_inv {s : State} (hs : Inv s) (h : s.regs.state = stRead)
    (heof : s.regs.eofSeen = false) {act : Beat → ReadAction} (hact : phaseAction s.regs = some act)
    (b : Byte) : Inv (s.withRegs (readWith act (.byte b) s.regs)) := by
  obtain ⟨hsign, hfirst, hnext⟩ := phaseAction_byte hact b
  unfold readWith
  rw [noteEof_byte]
  cases ha : act (.byte b) with
  | stay => exact hs
  | sign neg =>
    obtain ⟨-, hmag⟩ := hs.leadClear (hsign neg ha)
    exact { hs with
      legalPhase := by simp [applyAction]
      readerIdle := fun h' => absurd h h'
      leadClear := by simp [applyAction]
      signClear := fun _ => hmag
      magBound := by simp [applyAction, hmag]
      eofLead := by simp [applyAction, heof] }
  | firstDigit d =>
    have hd := hfirst d ha
    exact { hs with
      legalPhase := by simp [applyAction]
      readerIdle := fun h' => absurd h h'
      leadClear := by simp [applyAction]
      signClear := by simp [applyAction]
      magBound := by
        have := nine_le_limit s.regs.rdNeg
        simp [applyAction]
        omega
      eofLead := by simp [applyAction, heof] }
  | nextDigit m =>
    obtain ⟨hphase, hm⟩ := hnext m ha
    exact { hs with
      readerIdle := fun h' => absurd h h'
      leadClear := by simp [applyAction, hphase]
      signClear := by simp [applyAction, hphase]
      magBound := by
        have := limit_lt s.regs.rdNeg
        simp [applyAction]
        omega }
  | succeed disc v =>
    exact verdict_keeps_inv hs h (by rw [writeOperand_frame]) (by rw [writeOperand_frame])
      (by rw [writeOperand_frame]; exact fun _ => heof)
  | fail cause disc => exact verdict_keeps_inv hs h rfl rfl fun _ => heof

theorem read_ensures_inv {s : State} (hs : Inv s) (h : s.regs.state = stRead) :
    Ensures Inv (execRead s) := by
  refine execRead_ensures fun act hact => take_ensures hs (fun _ => ?sticky) fun heof b => ?beat
  case sticky => exact read_eof_keeps_inv hs h hact
  case beat =>
    cases b with
    | eof => exact (read_eof_keeps_inv hs h hact).logBeat _
    | byte b => exact (read_byte_keeps_inv hs h heof hact b).logBeat _

theorem discard_ensures_inv {s : State} (hs : Inv s) (h : s.regs.state = stDiscard) :
    Ensures Inv (execDiscard s) :=
  take_ensures hs (fun _ => discard_keeps_inv hs h _) fun _ b => (discard_keeps_inv hs h b).logBeat b

/-! The edge. -/

theorem exec_fetch_ensures_inv {s : State} (hs : Inv s) : Ensures Inv (exec (fetch s) s) :=
  fetch_cases (P := fun i => Ensures Inv (exec i s)) hs.legalState
    (iterBegin := iterBegin_ensures_inv hs)
    (await := await_ensures_inv hs)
    (read := read_ensures_inv hs)
    (verr := verr_ensures_inv hs)
    (discard := discard_ensures_inv hs)
    (accept := accept_ensures_inv hs)
    (compute := compute_ensures_inv hs)
    (skip := skip_ensures_inv hs)
    (report := report_ensures_inv hs)
    (iterDone := iterDone_ensures_inv hs)
    (final := final_ensures_inv hs)
    (done := fun _ => ensures_next hs)

/-- Settles O41: a reset edge establishes the invariant, and each state's step keeps it. -/
theorem everyEdgeKeepsTheInvariant : Obligations.EveryEdgeKeepsTheInvariant := by
  intro s t hs hstep
  obtain ⟨-, ⟨-, rfl⟩ | ⟨-, u, hu, rfl⟩⟩ := step_eq_next.1 hstep
  · exact hs.reset.advance
  · exact (exec_fetch_ensures_inv hs u hu).advance

end Sys2Proof.Machine

/-! Which instructions write which registers (10_state.md R21 to R33). The table is one structure with
a clause for each register; a step's clauses are proved once and shared by its state row and its event
row, and a reader step's by the READ rows and the beats. -/

namespace Sys2Proof.Machine

/-- `t` differs from `s` only in what the instruction may write, and in no cleared sticky flag. -/
structure WritesOwn (i : Instr) (s t : State) : Prop where
  state : t.regs.state ≠ s.regs.state →
    i ≠ .add ∧ i ≠ .accum ∧ i ≠ .done ∧ t.regs.state.toNat ≤ 0xB
  iter : t.regs.iter.toNat ≠ s.regs.iter.toNat → i = .iterDone
  budget : t.regs.budget.toNat ≠ s.regs.budget.toNat →
    i ∈ [.iterBegin, .verr, .accept] ∨ ∃ d, i = .evAttempt d ∨ i = .evVerrNotice d
  slot : t.regs.slot ≠ s.regs.slot → i ∈ [.iterBegin, .accept] ∨ ∃ d, i = .evAttempt d
  opA : t.regs.opA ≠ s.regs.opA → isReaderInstr i = true ∧ s.regs.slot = .first
  opB : t.regs.opB ≠ s.regs.opB → isReaderInstr i = true ∧ s.regs.slot = .second
  sum : t.regs.sum ≠ s.regs.sum → i = .compute
  accWrap : t.regs.accWrap ≠ s.regs.accWrap → i = .compute
  reader : t.regs.rdPhase ≠ s.regs.rdPhase ∨ t.regs.rdNeg ≠ s.regs.rdNeg ∨
    t.regs.rdMag ≠ s.regs.rdMag ∨ t.regs.rdOk ≠ s.regs.rdOk ∨ t.regs.rdDisc ≠ s.regs.rdDisc →
    isReaderInstr i = true
  eofSeen : t.regs.eofSeen ≠ s.regs.eofSeen → isReaderInstr i = true ∨ i = .discard
  ret : t.ret ≠ s.ret → i = .add ∨ i = .accum
  accWrapSticky : s.regs.accWrap = true → t.regs.accWrap = true
  eofSticky : s.regs.eofSeen = true → t.regs.eofSeen = true

theorem WritesOwn.refl (i : Instr) (s : State) : WritesOwn i s s := by
  constructor <;> simp

theorem WritesOwn.logEvent {i : Instr} {s t : State} (h : WritesOwn i s t) (e : Event) :
    WritesOwn i s (t.logEvent e) := { h with }

theorem WritesOwn.logBeat {i : Instr} {s t : State} (h : WritesOwn i s t) (b : Beat) :
    WritesOwn i s (t.logBeat b) := { h with }

/-- The instruction is a step, or a transfer that a step makes: it may write `state`. -/
abbrev MayMove (i : Instr) : Prop := i ≠ .add ∧ i ≠ .accum ∧ i ≠ .done

theorem writesOwn_state {i : Instr} (hi : MayMove i) (s : State) {w : BitVec 4} (hw : w.toNat ≤ 0xB) :
    WritesOwn i s (s.withRegs { s.regs with state := w }) :=
  { WritesOwn.refl i s with state := fun _ => ⟨hi.1, hi.2.1, hi.2.2, hw⟩ }

/-! The steps without a beat, for their state row and their event row. -/

theorem iterBegin_writesOwn {i : Instr} (hi : i = .iterBegin ∨ ∃ d, i = .evAttempt d) (s : State) :
    Ensures (WritesOwn i s) (iterBeginStep s) := by
  have move : MayMove i := by obtain rfl | ⟨d, rfl⟩ := hi <;> simp [MayMove]
  refine emit_ensures (.refl i s) (.logEvent ?_ _)
  exact { writesOwn_state move s (w := stAwait) (by simp) with
    budget := fun _ => by obtain rfl | ⟨d, rfl⟩ := hi <;> simp
    slot := fun _ => by obtain rfl | ⟨d, rfl⟩ := hi <;> simp }

theorem await_writesOwn {i : Instr} (hi : MayMove i) (s : State) :
    Ensures (WritesOwn i s) (awaitStep s) :=
  ensures_ite (fun _ => ensures_next (writesOwn_state hi s (by simp)))
    fun _ => emit_ensures (.refl i s) ((writesOwn_state hi s (by simp)).logEvent _)

theorem verr_writesOwn {i : Instr} (hi : i = .verr ∨ ∃ d, i = .evVerrNotice d) (s : State) :
    Ensures (WritesOwn i s) (verrStep s) := by
  have move : MayMove i := by obtain rfl | ⟨d, rfl⟩ := hi <;> simp [MayMove]
  have used : (if s.regs.rdDisc then stDiscard else stAwait).toNat ≤ 0xB := by split <;> simp
  refine emit_ensures (.refl i s) (.logEvent ?_ _)
  exact { writesOwn_state move s used with
    budget := fun _ => by obtain rfl | ⟨d, rfl⟩ := hi <;> simp }

theorem accept_writesOwn (s : State) : Ensures (WritesOwn .accept s) (execAccept s) := by
  unfold execAccept
  cases s.regs.slot with
  | first =>
    exact ensures_next { writesOwn_state (i := .accept) (by simp [MayMove]) s (w := stAwait) (by simp) with
      budget := fun _ => by simp
      slot := fun _ => by simp }
  | second => exact ensures_next (writesOwn_state (by simp [MayMove]) s (by simp))

/-- Adding the sentinel 0 of an overflow neither changes the sum nor wraps. -/
theorem accum_zero (s : Word) : accumSum s 0 = s ∧ accumWrapped s 0 = false := by
  have hlo := BitVec.le_toInt s
  have hhi := BitVec.toInt_lt (x := s)
  constructor
  · simp [accumSum, accumExact, wrap64_eq_ofInt]
  · simp [accumWrapped, accumExact, int64Min, int64Max]
    omega

/-- On overflow COMPUTE writes `state` only (42_retry_fsm.md R146). -/
theorem computeRegs_of_addOvf {c : Params} {r : Regs c} (h : addOvf r.opA r.opB = true) :
    computeRegs r = { r with state := stReport } := by
  obtain ⟨hsum, hwrap⟩ := accum_zero r.sum
  simp only [computeRegs, addValue, h, ↓reduceIte, hsum, hwrap, Bool.or_false]

theorem addOvf_of_presented {c : Params} {r : Regs c} {d : Word}
    (h : presented r = some ⟨.overflow, d⟩) : addOvf r.opA r.opB = true := by
  obtain ⟨-, hovf, -⟩ : r.state = stCompute ∧ addOvf r.opA r.opB = true ∧ d = 0 := by
    simpa using presented_eq_some h
  exact hovf

theorem overflow_writesOwn {i : Instr} (hi : MayMove i) {s : State}
    (h : addOvf s.regs.opA s.regs.opB = true) : Ensures (WritesOwn i s) (computeStep s) := by
  unfold computeStep
  rw [if_pos h, computeRegs_of_addOvf h]
  exact emit_ensures (.refl i s) ((writesOwn_state hi s (by simp)).logEvent _)

theorem compute_writesOwn (s : State) : Ensures (WritesOwn .compute s) (computeStep s) := by
  cases h : addOvf s.regs.opA s.regs.opB with
  | true => exact overflow_writesOwn (by simp [MayMove]) h
  | false =>
    unfold computeStep
    rw [h]
    exact ensures_next { writesOwn_state (i := .compute) (by simp [MayMove]) s (w := stReport) (by simp) with
      sum := fun _ => rfl
      accWrap := fun _ => rfl
      accWrapSticky := fun hw => by simp [computeRegs, hw] }

theorem emitMove_writesOwn {i : Instr} (hi : MayMove i) (s : State) (e : Event) {w : BitVec 4}
    (hw : w.toNat ≤ 0xB) : Ensures (WritesOwn i s) (emit s e { s.regs with state := w }) :=
  emit_ensures (.refl i s) ((writesOwn_state hi s hw).logEvent _)

theorem iterDone_writesOwn (s : State) : Ensures (WritesOwn .iterDone s) (execIterDone s) := by
  have used : (if decrement s.regs.iter = 0 then stFinal else stIterBegin).toNat ≤ 0xB := by
    split <;> simp
  exact ensures_next { writesOwn_state (i := .iterDone) (by simp [MayMove]) s used with iter := fun _ => rfl }

theorem withRet_writesOwn {i : Instr} (hi : i = .add ∨ i = .accum) (s : State) (v : Returned) :
    WritesOwn i s (s.withRet v) :=
  { WritesOwn.refl i s with ret := fun _ => hi }

/-! The steps that take a beat. -/

theorem isReaderInstr_of_carriedBeat {i : Instr} {b : Beat} (h : carriedBeat i = some b) :
    isReaderInstr i = true := by
  simp [isReaderInstr, h]

theorem mayMove_of_isReaderInstr {i : Instr} (h : isReaderInstr i = true) : MayMove i := by
  refine ⟨?_, ?_, ?_⟩ <;> rintro rfl <;> simp [isReaderInstr, carriedBeat] at h

theorem noteEof_sticky {c : Params} (b : Beat) {r : Regs c} (h : r.eofSeen = true) :
    (noteEof b r).eofSeen = true := by
  cases b <;> simp [h]

theorem discardWith_writesOwn {i : Instr} (hi : isReaderInstr i = true ∨ i = .discard) (s : State)
    (b : Beat) : WritesOwn i s (s.withRegs (discardWith b s.regs)) := by
  have move : MayMove i := by
    obtain h | rfl := hi
    · exact mayMove_of_isReaderInstr h
    · simp [MayMove]
  unfold discardWith
  split
  · have used : (if s.regs.rdOk then stAccept else stAwait).toNat ≤ 0xB := by split <;> simp
    rw [noteEof_frame]
    exact { writesOwn_state move s used with
      eofSeen := fun _ => hi
      eofSticky := noteEof_sticky b }
  · exact .refl i s

/-- A verdict writes the operand of the current slot only. -/
theorem writeOperand_other_slot {c : Params} (v : Int) (r : Regs c) :
    ((writeOperand v r).opA ≠ r.opA → r.slot = .first) ∧
      ((writeOperand v r).opB ≠ r.opB → r.slot = .second) := by
  cases h : r.slot <;> simp [h]

theorem closeRead_state {c : Params} (ok disc : Bool) (r : Regs c) :
    (closeRead ok disc r).state.toNat ≤ 0xB := by
  cases ok <;> cases disc <;> simp [closeRead]

/-- What a READ step may write beside the reader registers. -/
theorem readWith_writes (act : Beat → ReadAction) {c : Params} (b : Beat) (r : Regs c) :
    ((readWith act b r).state ≠ r.state → (readWith act b r).state.toNat ≤ 0xB) ∧
    ((readWith act b r).opA ≠ r.opA → r.slot = .first) ∧
    ((readWith act b r).opB ≠ r.opB → r.slot = .second) ∧
    (r.eofSeen = true → (readWith act b r).eofSeen = true) := by
  have sticky := noteEof_sticky b (r := r)
  unfold readWith
  rw [noteEof_frame]
  cases act b with
  | stay | sign _ | firstDigit _ | nextDigit _ => simpa [applyAction] using sticky
  | succeed disc v =>
    obtain ⟨hA, hB⟩ := writeOperand_other_slot v { r with eofSeen := (noteEof b r).eofSeen }
    refine ⟨fun _ => closeRead_state _ _ _, hA, hB, ?_⟩
    rw [applyAction, writeOperand_frame]
    exact sticky
  | fail cause disc => exact ⟨fun _ => closeRead_state _ _ _, by simp [applyAction, closeRead],
      by simp [applyAction, closeRead], sticky⟩

theorem readWith_writesOwn {i : Instr} (hi : isReaderInstr i = true) (s : State)
    (act : Beat → ReadAction) (b : Beat) : WritesOwn i s (s.withRegs (readWith act b s.regs)) := by
  obtain ⟨iter, budget, slot, sum, accWrap⟩ := readWith_frame act b s.regs
  obtain ⟨state, opA, opB, eof⟩ := readWith_writes act b s.regs
  obtain ⟨hadd, haccum, hdone⟩ := mayMove_of_isReaderInstr hi
  exact {
    state := fun h => ⟨hadd, haccum, hdone, state h⟩
    iter := fun h => absurd (congrArg BitVec.toNat iter) h
    budget := fun h => absurd (congrArg BitVec.toNat budget) h
    slot := fun h => absurd slot h
    opA := fun h => ⟨hi, opA h⟩
    opB := fun h => ⟨hi, opB h⟩
    sum := fun h => absurd sum h
    accWrap := fun h => absurd accWrap h
    reader := fun _ => hi
    eofSeen := fun _ => .inl hi
    ret := fun h => absurd rfl h
    accWrapSticky := accWrap.trans
    eofSticky := eof }

theorem takeRead_writesOwn {i : Instr} (hi : isReaderInstr i = true) (s : State)
    (act : Beat → ReadAction) : Ensures (WritesOwn i s) (take s (readWith act)) :=
  take_ensures (.refl i s) (fun _ => readWith_writesOwn hi s act _)
    fun _ b => (readWith_writesOwn hi s act b).logBeat b

theorem receive_writesOwn {i : Instr} {b : Beat} (hi : carriedBeat i = some b) (b' : Beat)
    (s : State) : Ensures (WritesOwn i s) (receive b' s) := by
  have reader := isReaderInstr_of_carriedBeat hi
  exact receive_ensures (.refl i s) ((discardWith_writesOwn (.inl reader) s b').logBeat b')
    fun act => (readWith_writesOwn reader s act b').logBeat b'

/-! Every instruction. -/

theorem exec_writesOwn (i : Instr) (s : State) : Ensures (WritesOwn i s) (exec i s) := by
  have hold := WritesOwn.refl i s
  cases i with
  | iterBegin => exact iterBegin_writesOwn (.inl rfl) s
  | await => exact await_writesOwn (by simp [MayMove]) s
  | read => exact execRead_ensures fun act _ => takeRead_writesOwn rfl s act
  | verr => exact verr_writesOwn (.inl rfl) s
  | discard =>
    exact take_ensures hold (fun _ => discardWith_writesOwn (.inr rfl) s _)
      fun _ b => (discardWith_writesOwn (.inr rfl) s b).logBeat b
  | accept => exact accept_writesOwn s
  | compute => exact compute_writesOwn s
  | skip | report | final => exact emitMove_writesOwn (by simp [MayMove]) s _ (by simp)
  | iterDone => exact iterDone_writesOwn s
  | done => exact ensures_next hold
  | reservedState _ | readReserved => exact ensures_fault _
  | readLead | readSign | readDigits => exact takeRead_writesOwn rfl s _
  | evAttempt d =>
    exact transferEvent_ensures hold fun _ => iterBegin_writesOwn (.inr ⟨d, rfl⟩) s
  | evPrompt d => exact transferEvent_ensures hold fun _ => await_writesOwn (by simp [MayMove]) s
  | evVerrNotice d =>
    exact transferEvent_ensures hold fun _ => verr_writesOwn (.inr ⟨d, rfl⟩) s
  | evOverflow d =>
    exact transferEvent_ensures hold fun hp =>
      overflow_writesOwn (by simp [MayMove]) (addOvf_of_presented hp)
  | evSkipNotice d | evRunningSum d | evFinalSum d =>
    exact transferEvent_ensures hold fun _ => emitMove_writesOwn (by simp [MayMove]) s _ (by simp)
  | evReserved d => exact ensures_refused _
  | beatByte _ | beatEof | lf | wsTab | wsVt | wsFfCr _ | wsSpace | digitLow _ | digitHigh _ | plus
  | minus | other _ => exact receive_writesOwn rfl _ s
  | add => exact ensures_next (withRet_writesOwn (.inl rfl) s _)
  | accum => exact ensures_next (withRet_writesOwn (.inr rfl) s _)

/-- Settles O39: the table of `WritesOwn`, with what no instruction changes. -/
theorem onlyTheNamedStepsWriteEachRegister : Obligations.OnlyTheNamedStepsWriteEachRegister := by
  intro i s t h
  have w := exec_writesOwn i s t h
  exact ⟨w.state, w.iter, w.budget, w.slot, w.opA, w.opB, w.sum, w.accWrap, w.reader, w.eofSeen, w.ret,
    exec_keepsEnvironment i s t h⟩

/-- Settles O40: no instruction clears a sticky flag, and the ports' advance writes no register. -/
theorem stickyFlagsStaySet : Obligations.StickyFlagsStaySet := by
  intro s t hr hstep
  obtain ⟨-, ⟨hr', -⟩ | ⟨-, u, hu, rfl⟩⟩ := step_eq_next.1 hstep
  · simp [hr] at hr'
  · have w := exec_writesOwn (fetch s) s u hu
    exact ⟨w.accWrapSticky, w.eofSticky⟩

end Sys2Proof.Machine

/-! Operands of an earlier iteration (10_state.md R25, R38): a simulation between two states that agree
but for operands that this iteration has not written. COMPUTE is the one step that reads the operands,
and in COMPUTE both have been written. -/

namespace Sys2Proof.Machine

/-! What has been written, in terms of the state register. -/

/-- Every state code, a reserved one too. -/
theorem state_cases (w : BitVec 4) :
    w ∈ [0x0#4, 0x1#4, 0x2#4, 0x3#4, 0x4#4, 0x5#4, 0x6#4, 0x7#4, 0x8#4, 0x9#4, 0xA#4, 0xB#4, 0xC#4,
      0xD#4, 0xE#4, 0xF#4] := by
  revert w
  decide

theorem holdsFirst_iff {c : Params} {r : Regs c} :
    holdsFirst r ↔
      ((r.state = stAwait ∨ r.state = stRead ∨ r.state = stVerr) ∧ r.slot = .second) ∨
      (r.state = stDiscard ∧ (r.slot = .second ∨ r.rdOk = true)) ∨
      r.state = stAccept ∨ r.state = stCompute := by
  have h := state_cases r.state
  simp only [List.mem_cons, List.not_mem_nil, or_false] at h
  unfold holdsFirst
  rcases h with h | h | h | h | h | h | h | h | h | h | h | h | h | h | h | h <;>
    simp [h, decodeState]

theorem holdsSecond_iff {c : Params} {r : Regs c} :
    holdsSecond r ↔
      (r.state = stDiscard ∧ r.slot = .second ∧ r.rdOk = true) ∨
      (r.state = stAccept ∧ r.slot = .second) ∨ r.state = stCompute := by
  have h := state_cases r.state
  simp only [List.mem_cons, List.not_mem_nil, or_false] at h
  unfold holdsSecond
  rcases h with h | h | h | h | h | h | h | h | h | h | h | h | h | h | h | h <;>
    simp [h, decodeState]

/-! Agreement. -/

/-- The registers with other operands. -/
def Regs.withOperands {c : Params} (r : Regs c) (a b : Word) : Regs c := { r with opA := a, opB := b }

/-- `AgreeButStaleOperands`, of the registers alone: `a` and `b` are the second block's operands. -/
structure StaleOperands {c : Params} (r : Regs c) (a b : Word) : Prop where
  first : holdsFirst r → a = r.opA
  second : holdsSecond r → b = r.opB

theorem agreeButStaleOperands_iff {s s' : State} :
    AgreeButStaleOperands s s' ↔
      ∃ a b, s' = s.withRegs (s.regs.withOperands a b) ∧ StaleOperands s.regs a b :=
  ⟨fun ⟨a, b, hs, ha, hb⟩ => ⟨a, b, hs, ha, hb⟩, fun ⟨a, b, hs, h⟩ => ⟨a, b, hs, h.first, h.second⟩⟩

theorem AgreeButStaleOperands.refl (s : State) : AgreeButStaleOperands s s :=
  ⟨s.regs.opA, s.regs.opB, rfl, fun _ => rfl, fun _ => rfl⟩

theorem AgreeButStaleOperands.advance {s s' : State} (h : AgreeButStaleOperands s s') :
    AgreeButStaleOperands s.advance s'.advance := by
  obtain ⟨a, b, rfl, ha, hb⟩ := h
  exact ⟨a, b, rfl, ha, hb⟩

theorem AgreeButStaleOperands.logEvent {s s' : State} (h : AgreeButStaleOperands s s') (e : Event) :
    AgreeButStaleOperands (s.logEvent e) (s'.logEvent e) := by
  obtain ⟨a, b, rfl, ha, hb⟩ := h
  exact ⟨a, b, rfl, ha, hb⟩

theorem AgreeButStaleOperands.logBeat {s s' : State} (h : AgreeButStaleOperands s s') (b : Beat) :
    AgreeButStaleOperands (s.logBeat b) (s'.logBeat b) := by
  obtain ⟨a, b, rfl, ha, hb⟩ := h
  exact ⟨a, b, rfl, ha, hb⟩

/-- In COMPUTE no operand is stale. -/
theorem StaleOperands.eq_of_compute {c : Params} {r : Regs c} {a b : Word} (h : StaleOperands r a b)
    (hc : r.state = stCompute) : r.withOperands a b = r := by
  rw [Regs.withOperands, h.first (by simp [holdsFirst_iff, hc]), h.second (by simp [holdsSecond_iff, hc])]

theorem StaleOperands.presented_eq {c : Params} {r : Regs c} {a b : Word} (h : StaleOperands r a b) :
    presented (r.withOperands a b) = presented r := by
  by_cases hc : r.state = stCompute
  · rw [h.eq_of_compute hc]
  · have hc' : (r.withOperands a b).state ≠ stCompute := hc
    unfold presented
    rw [if_neg hc, if_neg hc']
    rfl

/-- Register writes that write neither operand keep the agreement if what is then held was held
before. -/
theorem StaleOperands.mono {c : Params} {r r' : Regs c} {a b : Word} (h : StaleOperands r a b)
    (opA : r'.opA = r.opA) (opB : r'.opB = r.opB) (first : holdsFirst r' → holdsFirst r)
    (second : holdsSecond r' → holdsSecond r) : StaleOperands r' a b where
  first h' := (h.first (first h')).trans opA.symm
  second h' := (h.second (second h')).trans opB.symm

/-! Two outcomes. -/

/-- If the first outcome is a next state, the second is too, and the two agree. -/
def Simulates (o o' : Outcome) : Prop :=
  Ensures (fun t => ∃ t', o' = .next t' ∧ AgreeButStaleOperands t t') o

theorem simulates_refl (o : Outcome) : Simulates o o := fun t h => ⟨t, h, .refl t⟩

theorem simulates_next {s s' : State} (h : AgreeButStaleOperands s s') :
    Simulates (.next s) (.next s') :=
  ensures_next ⟨s', rfl, h⟩

theorem simulates_ite {p : Prop} [Decidable p] {o₁ o₁' o₂ o₂' : Outcome}
    (h₁ : p → Simulates o₁ o₁') (h₂ : ¬p → Simulates o₂ o₂') :
    Simulates (if p then o₁ else o₂) (if p then o₁' else o₂') := by
  split
  case isTrue hp => exact h₁ hp
  case isFalse hp => exact h₂ hp

theorem StaleOperands.agree {s : State} {r : Regs s.cfg} {a b : Word} (h : StaleOperands r a b) :
    AgreeButStaleOperands (s.withRegs r) (s.withRegs (r.withOperands a b)) :=
  ⟨a, b, rfl, h.first, h.second⟩

/-! The shared operations, on a state and on the same state with other operands. -/

section
variable {s : State} {a b : Word}

theorem emit_simulates {e : Event} {r : Regs s.cfg} (h : StaleOperands s.regs a b)
    (sent : StaleOperands r a b) :
    Simulates (emit s e r) (emit (s.withRegs (s.regs.withOperands a b)) e (r.withOperands a b)) := by
  unfold emit
  rw [State.withRegs_pins]
  split
  · exact simulates_next (sent.agree.logEvent e)
  · exact simulates_next h.agree

theorem write_simulates {r : Regs s.cfg} (written : StaleOperands r a b) :
    Simulates (.next (s.withRegs r))
      (.next ((s.withRegs (s.regs.withOperands a b)).withRegs (r.withOperands a b))) :=
  simulates_next written.agree

/-- A step that takes: its writes for a beat may replace an operand, by the same value in both. -/
theorem take_simulates {f : Beat → Regs s.cfg → Regs s.cfg} (h : StaleOperands s.regs a b)
    (written : ∀ beat, ∃ a' b', StaleOperands (f beat s.regs) a' b' ∧
      f beat (s.regs.withOperands a b) = (f beat s.regs).withOperands a' b') :
    Simulates (take s f) (take (s.withRegs (s.regs.withOperands a b)) f) := by
  have agree (beat : Beat) : AgreeButStaleOperands (s.withRegs (f beat s.regs))
      (s.withRegs (f beat (s.regs.withOperands a b))) := by
    obtain ⟨a', b', hstale, heq⟩ := written beat
    rw [heq]
    exact hstale.agree
  unfold take
  refine simulates_ite (fun _ => simulates_next (agree .eof)) fun _ => ?_
  rw [State.withRegs_pins]
  cases s.pins.offered with
  | none => exact simulates_next h.agree
  | some beat => exact simulates_next ((agree beat).logBeat beat)

/-! The steps without a beat. -/

theorem iterBegin_simulates (h : StaleOperands s.regs a b) :
    Simulates (iterBeginStep s) (iterBeginStep (s.withRegs (s.regs.withOperands a b))) :=
  emit_simulates h (h.mono rfl rfl (by simp [holdsFirst_iff]) (by simp [holdsSecond_iff]))

theorem await_simulates (h : StaleOperands s.regs a b) (hs : s.regs.state = stAwait) :
    Simulates (awaitStep s) (awaitStep (s.withRegs (s.regs.withOperands a b))) := by
  refine simulates_ite (fun _ => write_simulates (h.mono rfl rfl ?_ ?_))
    fun _ => emit_simulates h (h.mono rfl rfl ?_ ?_)
  all_goals simp [holdsFirst_iff, holdsSecond_iff, hs]

theorem verr_simulates (h : StaleOperands s.regs a b) (hs : s.regs.state = stVerr)
    (failed : s.regs.rdOk = false) :
    Simulates (verrStep s) (verrStep (s.withRegs (s.regs.withOperands a b))) := by
  refine emit_simulates h (h.mono rfl rfl ?first ?second)
  case first => cases hd : s.regs.rdDisc <;> simp [holdsFirst_iff, hs, failed]
  case second => cases hd : s.regs.rdDisc <;> simp [holdsSecond_iff, failed]

theorem execAccept_first {s : State} (h : s.regs.slot = .first) :
    execAccept s = .next (s.withRegs { s.regs with
      budget := BitVec.ofNat _ s.cfg.nAttempts, slot := .second, state := stAwait }) := by
  simp only [execAccept, h]

theorem execAccept_second {s : State} (h : s.regs.slot = .second) :
    execAccept s = .next (s.withRegs { s.regs with state := stCompute }) := by
  simp only [execAccept, h]

theorem accept_simulates (h : StaleOperands s.regs a b) (hs : s.regs.state = stAccept) :
    Simulates (execAccept s) (execAccept (s.withRegs (s.regs.withOperands a b))) := by
  cases hslot : s.regs.slot with
  | first =>
    rw [execAccept_first hslot, execAccept_first (s := s.withRegs (s.regs.withOperands a b)) hslot]
    exact write_simulates
      (h.mono rfl rfl (by simp [holdsFirst_iff, hs]) (by simp [holdsSecond_iff]))
  | second =>
    rw [execAccept_second hslot, execAccept_second (s := s.withRegs (s.regs.withOperands a b)) hslot]
    exact write_simulates
      (h.mono rfl rfl (by simp [holdsFirst_iff, hs]) (by simp [holdsSecond_iff, hs, hslot]))

theorem skip_simulates (h : StaleOperands s.regs a b) :
    Simulates (skipStep s) (skipStep (s.withRegs (s.regs.withOperands a b))) :=
  emit_simulates h (h.mono rfl rfl (by simp [holdsFirst_iff]) (by simp [holdsSecond_iff]))

theorem report_simulates (h : StaleOperands s.regs a b) :
    Simulates (reportStep s) (reportStep (s.withRegs (s.regs.withOperands a b))) :=
  emit_simulates h (h.mono rfl rfl (by simp [holdsFirst_iff]) (by simp [holdsSecond_iff]))

theorem final_simulates (h : StaleOperands s.regs a b) :
    Simulates (finalStep s) (finalStep (s.withRegs (s.regs.withOperands a b))) :=
  emit_simulates h (h.mono rfl rfl (by simp [holdsFirst_iff]) (by simp [holdsSecond_iff]))

theorem iterDone_simulates (h : StaleOperands s.regs a b) :
    Simulates (execIterDone s) (execIterDone (s.withRegs (s.regs.withOperands a b))) := by
  refine write_simulates (h.mono rfl rfl ?first ?second)
  case first => simp only [holdsFirst_iff]; split <;> simp
  case second => simp only [holdsSecond_iff]; split <;> simp

theorem compute_simulates (h : StaleOperands s.regs a b) (hs : s.regs.state = stCompute) :
    Simulates (execCompute s) (execCompute (s.withRegs (s.regs.withOperands a b))) := by
  rw [h.eq_of_compute hs]
  exact simulates_refl _

/-! The steps that take a beat. -/

theorem noteEof_withOperands (beat : Beat) {c : Params} (r : Regs c) (a b : Word) :
    noteEof beat (r.withOperands a b) = (noteEof beat r).withOperands a b := by
  cases beat <;> simp [Regs.withOperands]

theorem discard_simulates (h : StaleOperands s.regs a b) (hs : s.regs.state = stDiscard) :
    Simulates (execDiscard s) (execDiscard (s.withRegs (s.regs.withOperands a b))) := by
  refine take_simulates h fun beat => ⟨a, b, ?stale, ?commutes⟩
  case stale =>
    unfold discardWith
    split
    · rw [noteEof_frame]
      cases hok : s.regs.rdOk <;>
        exact h.mono rfl rfl (by simp [holdsFirst_iff, hs, hok]) (by simp [holdsSecond_iff, hs, hok])
    · exact h
  case commutes =>
    unfold discardWith
    rw [noteEof_withOperands]
    split <;> rfl

/-- A verdict writes the operand of its slot, and the other one stays as stale as it was in READ. -/
theorem readWith_staleOperands {c : Params} {r : Regs c} {a b : Word} (h : StaleOperands r a b)
    (hs : r.state = stRead) (act : Beat → ReadAction) (beat : Beat) :
    ∃ a' b', StaleOperands (readWith act beat r) a' b' ∧
      readWith act beat (r.withOperands a b) = (readWith act beat r).withOperands a' b' := by
  have noted : StaleOperands (noteEof beat r) a b := by
    rw [noteEof_frame]
    exact h.mono rfl rfl id id
  have hs' : (noteEof beat r).state = stRead := by
    rw [noteEof_frame]
    exact hs
  unfold readWith
  rw [noteEof_withOperands]
  generalize noteEof beat r = r at noted hs'
  cases act beat with
  | stay => exact ⟨a, b, noted, rfl⟩
  | sign neg => exact ⟨a, b, noted.mono rfl rfl id id, rfl⟩
  | firstDigit d => exact ⟨a, b, noted.mono rfl rfl id id, rfl⟩
  | nextDigit m => exact ⟨a, b, noted.mono rfl rfl id id, rfl⟩
  | succeed disc v =>
    cases hslot : r.slot with
    | first =>
      have other : ¬holdsSecond (applyAction (.succeed disc v) r) := by
        cases disc <;> simp [applyAction, closeRead, holdsSecond_iff, hslot]
      exact ⟨enc64 v, b, ⟨fun _ => by simp [applyAction, closeRead, hslot], fun h' => absurd h' other⟩,
        by simp [applyAction, closeRead, writeOperand, Regs.withOperands, hslot]⟩
    | second =>
      have held : a = r.opA := noted.first (by simp [holdsFirst_iff, hs', hslot])
      exact ⟨a, enc64 v, ⟨fun _ => by simp [applyAction, closeRead, hslot, held],
          fun _ => by simp [applyAction, closeRead, hslot]⟩,
        by simp [applyAction, closeRead, writeOperand, Regs.withOperands, hslot]⟩
  | fail cause disc =>
    refine ⟨a, b, noted.mono rfl rfl ?first ?second, rfl⟩
    case first => simp [applyAction, closeRead, holdsFirst_iff, hs']
    case second => simp [applyAction, closeRead, holdsSecond_iff]

theorem read_simulates (h : StaleOperands s.regs a b) (hs : s.regs.state = stRead) :
    Simulates (execRead s) (execRead (s.withRegs (s.regs.withOperands a b))) := by
  unfold execRead
  have same : phaseAction (s.withRegs (s.regs.withOperands a b)).regs = phaseAction s.regs := rfl
  rw [same]
  cases phaseAction s.regs with
  | none => exact simulates_refl _
  | some act => exact take_simulates h (readWith_staleOperands h hs act)

/-! The edge. -/

theorem exec_fetch_simulates (hs : Inv s) (h : StaleOperands s.regs a b) :
    Simulates (exec (fetch s) s) (exec (fetch s) (s.withRegs (s.regs.withOperands a b))) :=
  fetch_cases (P := fun i => Simulates (exec i s) (exec i (s.withRegs (s.regs.withOperands a b))))
    hs.legalState
    (iterBegin := fun _ => iterBegin_simulates h)
    (await := await_simulates h)
    (read := read_simulates h)
    (verr := fun hv => verr_simulates h hv (hs.verrFailed hv))
    (discard := discard_simulates h)
    (accept := accept_simulates h)
    (compute := compute_simulates h)
    (skip := fun _ => skip_simulates h)
    (report := fun _ => report_simulates h)
    (iterDone := fun _ => iterDone_simulates h)
    (final := fun _ => final_simulates h)
    (done := fun _ => simulates_next h.agree)

end

theorem AgreeButStaleOperands.presented_eq {s s' : State} (h : AgreeButStaleOperands s s') :
    presented s'.regs = presented s.regs := by
  obtain ⟨a, b, rfl, hab⟩ := agreeButStaleOperands_iff.1 h
  exact hab.presented_eq

/-- Settles O57: a reset edge makes the two states equal; at any other edge they run the same step. -/
theorem everyEdgeKeepsStaleOperandsUnread : Obligations.EveryEdgeKeepsStaleOperandsUnread := by
  intro s s' t hs hagree hstep
  refine ⟨hagree.presented_eq, ?_⟩
  obtain ⟨a, b, rfl, hab⟩ := agreeButStaleOperands_iff.1 hagree
  obtain ⟨hn, ⟨hr, rfl⟩ | ⟨hr, u, hu, rfl⟩⟩ := step_eq_next.1 hstep
  · exact ⟨_, step_of_rst (s := s.withRegs _) hn hr, .refl _⟩
  · obtain ⟨u', hu', hagree'⟩ := exec_fetch_simulates hs hab u hu
    exact ⟨u'.advance, step_eq_next.2 ⟨hn, .inr ⟨hr, u', hu', rfl⟩⟩, hagree'.advance⟩

/-! Runs. -/

theorem run_zero_eq_next {s t : State} : Host.Core.run Sys2Proof.core 0 s = .next t ↔ s = t :=
  ⟨fun h => by cases h; rfl, fun h => congrArg Host.Outcome.next h⟩

theorem run_succ_eq_next {n : Nat} {s t : State} :
    Host.Core.run Sys2Proof.core (n + 1) s = .next t ↔
      ∃ u, step s = .next u ∧ Host.Core.run Sys2Proof.core n u = .next t := by
  have hcore : Sys2Proof.core.step s = step s := rfl
  simp only [Host.Core.run, hcore]
  cases step s <;> simp

/-- Two machines that agree but for stale operands go on so, edge by edge. -/
theorem run_keeps_staleOperands (n : Nat) {s s' t : State} (hs : Inv s)
    (hagree : AgreeButStaleOperands s s') (hrun : Host.Core.run Sys2Proof.core n s = .next t) :
    ∃ t', Host.Core.run Sys2Proof.core n s' = .next t' ∧ AgreeButStaleOperands t t' := by
  induction n generalizing s s' with
  | zero =>
    obtain rfl := run_zero_eq_next.1 hrun
    exact ⟨s', rfl, hagree⟩
  | succ n ih =>
    obtain ⟨u, hstep, hrest⟩ := run_succ_eq_next.1 hrun
    obtain ⟨-, u', hstep', hagree'⟩ := everyEdgeKeepsStaleOperandsUnread s s' u hs hagree hstep
    obtain ⟨t', hrest', hend⟩ := ih (everyEdgeKeepsTheInvariant s u hs hstep) hagree' hrest
    exact ⟨t', run_succ_eq_next.2 ⟨u', hstep', hrest'⟩, hend⟩

/-- Settles O50: at ITER_BEGIN neither operand has been written in the iteration. -/
theorem staleOperandsAreNeverRead : Obligations.StaleOperandsAreNeverRead := by
  intro n s t a b hs hbegin hrun
  have hstale : StaleOperands s.regs a b :=
    { first := by simp [holdsFirst_iff, hbegin]
      second := by simp [holdsSecond_iff, hbegin] }
  obtain ⟨t', hrun', hagree⟩ := run_keeps_staleOperands n hs hstale.agree hrun
  have hpresented := hagree.presented_eq
  obtain ⟨a', b', rfl, -⟩ := hagree
  exact ⟨a', b', hrun', hpresented⟩

end Sys2Proof.Machine

/-! The two streams and the outputs (20_memory.md R52 to R57): what the block presents in each state,
when a step waits, what a stream's word does, and the transfers of one edge. -/

namespace Sys2Proof.Machine

/-! What the block presents (20_memory.md R56): one equation for each row of the table. -/

section
variable {c : Params} {r : Regs c}

theorem presented_of_iterBegin (h : r.state = stIterBegin) :
    presented r = some ⟨.attempt, zext64 r.iter⟩ := by simp [presented, h]

theorem presented_of_await (h : r.state = stAwait) (budget : r.budget ≠ 0) :
    presented r = some ⟨.prompt, 0⟩ := by simpa [presented, h] using budget

theorem presented_of_await_exhausted (h : r.state = stAwait) (budget : r.budget = 0) :
    presented r = none := by simp [presented, h, budget]

theorem presented_of_verr (h : r.state = stVerr) : presented r = some ⟨.verrNotice, 0⟩ := by
  simp [presented, h]

theorem presented_of_compute_overflow (h : r.state = stCompute) (ovf : addOvf r.opA r.opB = true) :
    presented r = some ⟨.overflow, 0⟩ := by simp [presented, h, ovf]

theorem presented_of_compute_fits (h : r.state = stCompute) (ovf : addOvf r.opA r.opB = false) :
    presented r = none := by simp [presented, h, ovf]

theorem presented_of_skip (h : r.state = stSkip) : presented r = some ⟨.skipNotice, 0⟩ := by
  simp [presented, h]

theorem presented_of_report (h : r.state = stReport) : presented r = some ⟨.runningSum, r.sum⟩ := by
  simp [presented, h]

theorem presented_of_final (h : r.state = stFinal) : presented r = some ⟨.finalSum, r.sum⟩ := by
  simp [presented, h]

/-- The states of the table's last row. -/
theorem presented_of_silent (h : r.state ∈ [stRead, stDiscard, stAccept, stIterDone, stDone]) :
    presented r = none := by
  simp only [List.mem_cons, List.not_mem_nil, or_false] at h
  obtain h | h | h | h | h := h <;> simp [presented, h]

/-! The event outputs, from what is presented. -/

theorem outputs_of_presented {e : Event} (h : presented r = some e) :
    (outputs false r).evValid = true ∧ (outputs false r).evCode = e.code.toBits ∧
      (outputs false r).evData = e.data := by
  simp [outputs, h]

theorem evValid_of_not_presented (h : presented r = none) : (outputs false r).evValid = false := by
  simp [outputs, h]

end

/-- Settles O35: the event outputs are those of the event presented, row by row. -/
theorem eventOutputsAreTheTable : Obligations.EventOutputsAreTheTable := by
  intro c r shows
  have attempt (h : r.state = stIterBegin) : shows 0 (zext64 r.iter) :=
    outputs_of_presented (presented_of_iterBegin h)
  have attempt_data (h : r.iter.toNat < 2 ^ 64) : zext64 r.iter = BitVec.ofNat 64 r.iter.toNat :=
    (zext64_of_lt h).trans (BitVec.ofNat_toNat 64 r.iter).symm
  exact ⟨fun h hlt => attempt_data hlt ▸ attempt h,
    fun h => ⟨(attempt h).1, (attempt h).2.1⟩,
    fun h budget => outputs_of_presented (presented_of_await h budget),
    fun h budget => evValid_of_not_presented (presented_of_await_exhausted h budget),
    fun h => outputs_of_presented (presented_of_verr h),
    fun h ovf => outputs_of_presented (presented_of_compute_overflow h ovf),
    fun h ovf => evValid_of_not_presented (presented_of_compute_fits h ovf),
    fun h => outputs_of_presented (presented_of_skip h),
    fun h => outputs_of_presented (presented_of_report h),
    fun h => outputs_of_presented (presented_of_final h),
    fun h => evValid_of_not_presented (presented_of_silent h),
    (outputs_of_rst r).2⟩

/-! The other outputs. -/

theorem inReady_eq_true {c : Params} {rst : Bool} {r : Regs c} :
    (outputs rst r).inReady = true ↔
      rst = false ∧ (r.state = stRead ∨ r.state = stDiscard) ∧ r.eofSeen = false := by
  rw [← wantsBeat_eq_true]
  simp [outputs]

theorem done_eq_true {c : Params} {rst : Bool} {r : Regs c} :
    (outputs rst r).done = true ↔ r.state = stDone := by
  simp [outputs]

theorem Slot.toBit_iff (slot : Slot) :
    (slot.toBit = 0 ↔ slot = .first) ∧ (slot.toBit = 1 ↔ slot = .second) := by
  cases slot <;> decide

/-- Settles O34: all but in_ready, done and the slot's bit are the registers themselves. -/
theorem readyDoneAndStatusOutputs : Obligations.ReadyDoneAndStatusOutputs := by
  intro c rst r
  obtain ⟨first, second⟩ := r.slot.toBit_iff
  exact ⟨inReady_eq_true, done_eq_true, rfl, rfl, rfl, rfl, first, second, rfl, rfl, rfl⟩

/-! Waits (20_memory.md R54, R55). -/

theorem emit_of_not_ready {s : State} (h : s.pins.evReady = false) (e : Event) (r : Regs s.cfg) :
    emit s e r = .next s :=
  emit_eq_next.2 (.inr ⟨h, rfl⟩)

theorem take_of_no_beat {s : State} (eof : s.regs.eofSeen = false) (h : s.pins.offered = none)
    (f : Beat → Regs s.cfg → Regs s.cfg) : take s f = .next s :=
  take_eq_next.2 (.inr (.inl ⟨eof, h, rfl⟩))

theorem take_of_offered {s : State} {b : Beat} (eof : s.regs.eofSeen = false)
    (h : s.pins.offered = some b) (f : Beat → Regs s.cfg → Regs s.cfg) :
    take s f = .next ((s.withRegs (f b s.regs)).logBeat b) :=
  take_eq_next.2 (.inr (.inr ⟨eof, b, h, rfl⟩))

theorem offered_of_not_valid {p : Pins} (h : p.inValid = false) : p.offered = none := by
  simp [Pins.offered, h]

theorem awaitStep_of_budget {s : State} (h : s.regs.budget ≠ 0) :
    awaitStep s = emit s ⟨.prompt, 0⟩ { s.regs with state := stRead } := if_neg h

theorem execRead_of_phaseAction {s : State} {act : Beat → ReadAction}
    (h : phaseAction s.regs = some act) : execRead s = take s (readWith act) := by
  simp only [execRead, h]

/-- Settles O18: each of these steps is an Emit. -/
theorem emittingStepsWait : Obligations.EmittingStepsWait := by
  intro s hready
  have wait := emit_of_not_ready hready
  refine ⟨?steps, fun budget => (awaitStep_of_budget budget).trans (wait _ _)⟩
  simp only [List.forall_mem_cons]
  exact ⟨wait _ _, wait _ _, wait _ _, wait _ _, wait _ _, by simp⟩

/-- Settles O23: each of these steps is a Take, READ by its phase. -/
theorem takingStepsWait : Obligations.TakingStepsWait := by
  intro s heof hvalid
  have wait := take_of_no_beat heof (offered_of_not_valid hvalid)
  refine ⟨?steps, fun hphase => ?read⟩
  case steps =>
    simp only [List.forall_mem_cons]
    exact ⟨wait _, wait _, wait _, wait _, by simp⟩
  case read =>
    obtain ⟨act, hact⟩ := phaseAction_isSome hphase
    exact (execRead_of_phaseAction hact).trans (wait _)

/-! The words of the streams (30_encoding.md R71, R74, R76). -/

/-- The step that emits an event of the code (30_encoding.md R74); none emits code 7 (R78). -/
def emitterStep : EventCode → State → Outcome
  | .attempt => iterBeginStep
  | .prompt => awaitStep
  | .verrNotice => verrStep
  | .overflow => computeStep
  | .skipNotice => skipStep
  | .runningSum => reportStep
  | .finalSum => finalStep
  | .reserved => fun _ => .refused .reservedEvent

/-- An event word is the transfer of its event by the step that emits its code. -/
theorem exec_of_carriedEvent {i : Instr} {e : Event} (h : carriedEvent i = some e) (s : State) :
    exec i s = transferEvent e (emitterStep e.code) s := by
  cases i
  all_goals cases h
  all_goals rfl

/-- Settles O31: the transfer of an event that is not presented changes nothing. -/
theorem eventNotPresentedIsNotTransferred : Obligations.EventNotPresentedIsNotTransferred :=
  fun _ _ s hi hp => (exec_of_carriedEvent hi s).trans (if_neg hp)

/-- The byte that a row with operand bits carries, as the value of its row plus these bits and as the
row's match column with these bits set (30_encoding.md R76). -/
theorem classByte_eq :
    (∀ low : BitVec 1, BitVec.ofNat 8 (0x0C + low.toNat) = 0x0C ||| low.setWidth 8) ∧
    (∀ value : BitVec 3, BitVec.ofNat 8 (0x30 + value.toNat) = 0x30 ||| value.setWidth 8) ∧
    (∀ low : BitVec 1, BitVec.ofNat 8 (0x38 + low.toNat) = 0x38 ||| low.setWidth 8) := by
  decide

/-- A beat or byte word is the arrival of its beat. -/
theorem exec_of_carriedBeat {i : Instr} {b : Beat} (h : carriedBeat i = some b) (s : State) :
    exec i s = receive b s := by
  obtain ⟨ffCr, digitLow, digitHigh⟩ := classByte_eq
  cases i
  all_goals cases h
  case wsFfCr low => rw [ffCr]; rfl
  case digitLow value => rw [digitLow]; rfl
  case digitHigh low => rw [digitHigh]; rfl
  all_goals rfl

/-- A beat is wanted in READ and DISCARD before EOF (20_memory.md R53). -/
theorem wantsBeat_eq_false {c : Params} {r : Regs c} :
    wantsBeat r = false ↔ (r.state ≠ stRead ∧ r.state ≠ stDiscard) ∨ r.eofSeen = true := by
  rw [← Bool.not_eq_true, wantsBeat_eq_true, not_and_or, not_or, Bool.not_eq_false]

theorem receive_of_not_wanted {s : State} (h : wantsBeat s.regs = false) (b : Beat) :
    receive b s = .next s :=
  receive_eq_next.2 (.inl ⟨h, rfl⟩)

/-- Settles O33: a beat that is not wanted changes nothing where it arrives. -/
theorem beatNotWantedIsNotTaken : Obligations.BeatNotWantedIsNotTaken :=
  fun _ b s hi hunwanted =>
    (exec_of_carriedBeat hi s).trans (receive_of_not_wanted (wantsBeat_eq_false.2 hunwanted) b)

/-- A beat that arrives where one is wanted makes the register writes `f` of the step in progress: the
step of the current state is a Take with the same `f`, whatever is on the ports. -/
theorem receive_is_the_taking_step {s : State} (eof : s.regs.eofSeen = false)
    (h : s.regs.state = stDiscard ∨ (s.regs.state = stRead ∧ s.regs.rdPhase ≠ 3)) :
    ∃ f : Beat → Regs s.cfg → Regs s.cfg,
      (∀ b, receive b s = .next ((s.withRegs (f b s.regs)).logBeat b)) ∧
      ∀ p, exec (decodeState s.regs.state) { s with pins := p } = take { s with pins := p } f := by
  obtain hstate | ⟨hstate, hphase⟩ := h
  · refine ⟨discardWith, fun b => receive_eq_next.2 (.inr (.inl ⟨?_, hstate, rfl⟩)), fun p => ?_⟩
    · exact wantsBeat_eq_true.2 ⟨.inr hstate, eof⟩
    · rw [hstate]
      rfl
  · obtain ⟨act, hact⟩ := phaseAction_isSome hphase
    refine ⟨readWith act, fun b => receive_eq_next.2 (.inr (.inr ⟨?_, ?_, act, hact, rfl⟩)), fun p => ?_⟩
    · exact wantsBeat_eq_true.2 ⟨.inl hstate, eof⟩
    · simp [hstate]
    · rw [hstate]
      exact execRead_of_phaseAction (s := { s with pins := p }) hact

/-- Settles O32: the arrival and the step with the beat on the port make the same writes, and both
log the beat. -/
theorem beatTransferIsTheTakingStep : Obligations.BeatTransferIsTheTakingStep := by
  intro i b s p hi hp heof hstate
  obtain ⟨f, hreceive, hstep⟩ := receive_is_the_taking_step heof hstate
  refine ⟨_, (exec_of_carriedBeat hi s).trans (hreceive b), rfl, rfl, ?_⟩
  exact (hstep p).trans (take_of_offered (s := { s with pins := p }) heof hp f)

/-! The transfers of one edge (20_memory.md R52, R55). -/

/-- While the block asks for a beat it presents no event, so an edge never makes both transfers. -/
theorem presented_of_wantsBeat {c : Params} {r : Regs c} (h : wantsBeat r = true) :
    presented r = none := by
  obtain ⟨hread | hdiscard, -⟩ := wantsBeat_eq_true.1 h
  · exact presented_of_silent (by simp [hread])
  · exact presented_of_silent (by simp [hdiscard])

theorem wantsBeat_of_presented {c : Params} {r : Regs c} {e : Event} (h : presented r = some e) :
    wantsBeat r = false := by
  rw [← Bool.not_eq_true]
  intro hw
  simp [presented_of_wantsBeat hw] at h

theorem inputTransfer_of_not_wanted {s : State} (h : wantsBeat s.regs = false) :
    inputTransfer s = none := by
  simp [inputTransfer, h]

theorem outputTransfer_of_not_presented {s : State} (h : presented s.regs = none) :
    outputTransfer s = none := by
  simp [outputTransfer, h]

/-- The logs of `t` are those of `s` with the transfers of the edge at `s` appended. -/
structure Transfers (s t : State) : Prop where
  taken : t.taken = s.taken ++ (inputTransfer s).toList
  delivered : t.delivered = s.delivered ++ (outputTransfer s).toList

theorem Transfers.advance {s t : State} (h : Transfers s t) : Transfers s t.advance := { h with }

/-- A reset edge makes no transfer (70_reset_and_hazards.md R240). -/
theorem resetRegs_transfers {s : State} (h : s.pins.rst = true) : Transfers s s.resetRegs := by
  constructor <;> simp [inputTransfer, outputTransfer, h]

/-- Register writes alone, in a state that neither presents an event nor wants a beat. -/
theorem withRegs_transfers {s : State} (silent : presented s.regs = none)
    (unwanted : wantsBeat s.regs = false) (r : Regs s.cfg) : Transfers s (s.withRegs r) := by
  constructor
  · simp [inputTransfer_of_not_wanted unwanted]
  · simp [outputTransfer_of_not_presented silent]

/-- The Emit of the event that is presented. -/
theorem emit_transfers {s : State} {e : Event} (hr : s.pins.rst = false)
    (h : presented s.regs = some e) (r : Regs s.cfg) : Ensures (Transfers s) (emit s e r) := by
  have noBeat := inputTransfer_of_not_wanted (wantsBeat_of_presented h)
  intro t ht
  obtain ⟨hready, rfl⟩ | ⟨hready, rfl⟩ := emit_eq_next.1 ht <;>
    exact ⟨by simp [noBeat], by simp [outputTransfer, hr, hready, h]⟩

/-- A Take in READ or DISCARD. -/
theorem take_transfers {s : State} (hr : s.pins.rst = false)
    (h : s.regs.state = stRead ∨ s.regs.state = stDiscard) (f : Beat → Regs s.cfg → Regs s.cfg) :
    Ensures (Transfers s) (take s f) := by
  have silent : presented s.regs = none :=
    presented_of_silent (by obtain h | h := h <;> simp [h])
  have noEvent := outputTransfer_of_not_presented silent
  have wanted (eof : s.regs.eofSeen = false) : wantsBeat s.regs = true := wantsBeat_eq_true.2 ⟨h, eof⟩
  intro t ht
  obtain ⟨eof, rfl⟩ | ⟨eof, hnone, rfl⟩ | ⟨eof, b, hb, rfl⟩ := take_eq_next.1 ht
  · exact withRegs_transfers silent (wantsBeat_eq_false.2 (.inr eof)) _
  · exact ⟨by simp [inputTransfer, hr, wanted eof, hnone], by simp [noEvent]⟩
  · exact ⟨by simp [inputTransfer, hr, wanted eof, hb], by simp [noEvent]⟩

theorem await_transfers {s : State} (hr : s.pins.rst = false) (h : s.regs.state = stAwait) :
    Ensures (Transfers s) (awaitStep s) :=
  ensures_ite
    (fun budget => ensures_next
      (withRegs_transfers (presented_of_await_exhausted h budget) (by simp [wantsBeat, h]) _))
    fun budget => emit_transfers hr (presented_of_await h budget) _

theorem accept_transfers {s : State} (h : s.regs.state = stAccept) :
    Ensures (Transfers s) (execAccept s) := by
  have moved := withRegs_transfers (presented_of_silent (by simp [h])) (s := s) (by simp [wantsBeat, h])
  cases hslot : s.regs.slot with
  | first => exact execAccept_first hslot ▸ ensures_next (moved _)
  | second => exact execAccept_second hslot ▸ ensures_next (moved _)

theorem compute_transfers {s : State} (hr : s.pins.rst = false) (h : s.regs.state = stCompute) :
    Ensures (Transfers s) (computeStep s) :=
  ensures_ite (fun ovf => emit_transfers hr (presented_of_compute_overflow h ovf) _)
    fun ovf => ensures_next (withRegs_transfers
      (presented_of_compute_fits h (Bool.eq_false_of_not_eq_true ovf)) (by simp [wantsBeat, h]) _)

theorem iterDone_transfers {s : State} (h : s.regs.state = stIterDone) :
    Ensures (Transfers s) (execIterDone s) :=
  ensures_next (withRegs_transfers (presented_of_silent (by simp [h])) (by simp [wantsBeat, h]) _)

theorem done_transfers {s : State} (h : s.regs.state = stDone) :
    Ensures (Transfers s) (execDone s) :=
  ensures_next (withRegs_transfers (presented_of_silent (by simp [h])) (by simp [wantsBeat, h]) _)

/-- A reserved code selects the step that is none (30_encoding.md R72). -/
theorem decodeState_of_reserved {w : BitVec 4} (h : ¬w.toNat ≤ 0xB) :
    ∃ low, decodeState w = .reservedState low := by
  revert w
  decide

/-- The step of every state, a reserved one too, makes the transfers of its edge. -/
theorem exec_fetch_transfers {s : State} (hr : s.pins.rst = false) :
    Ensures (Transfers s) (exec (fetch s) s) := by
  by_cases used : s.regs.state.toNat ≤ 0xB
  · exact fetch_cases (P := fun i => Ensures (Transfers s) (exec i s)) used
      (iterBegin := fun h => emit_transfers hr (presented_of_iterBegin h) _)
      (await := await_transfers hr)
      (read := fun h => execRead_ensures fun _ _ => take_transfers hr (.inl h) _)
      (verr := fun h => emit_transfers hr (presented_of_verr h) _)
      (discard := fun h => take_transfers hr (.inr h) _)
      (accept := accept_transfers)
      (compute := compute_transfers hr)
      (skip := fun h => emit_transfers hr (presented_of_skip h) _)
      (report := fun h => emit_transfers hr (presented_of_report h) _)
      (iterDone := iterDone_transfers)
      (final := fun h => emit_transfers hr (presented_of_final h) _)
      (done := done_transfers)
  · obtain ⟨low, hlow⟩ := decodeState_of_reserved used
    rw [fetch, hlow]
    exact ensures_fault _

/-- An edge makes at most one transfer. -/
theorem inputTransfer_or_outputTransfer_eq_none (s : State) :
    inputTransfer s = none ∨ outputTransfer s = none := by
  cases h : wantsBeat s.regs with
  | true => exact .inr (outputTransfer_of_not_presented (presented_of_wantsBeat h))
  | false => exact .inl (inputTransfer_of_not_wanted h)

/-- Settles O36: a reset edge makes no transfer, and any other the transfers of its state's step. -/
theorem edgeMakesItsOneTransfer : Obligations.EdgeMakesItsOneTransfer := by
  intro s t hstep
  have made : Transfers s t := by
    obtain ⟨-, ⟨hr, rfl⟩ | ⟨hr, u, hu, rfl⟩⟩ := step_eq_next.1 hstep
    · exact (resetRegs_transfers hr).advance
    · exact (exec_fetch_transfers hr u hu).advance
  exact ⟨made.taken, made.delivered, inputTransfer_or_outputTransfer_eq_none s⟩

end Sys2Proof.Machine

/-! The words of the five formats (30_encoding.md R70 to R76): a word that fits is read by its format's
decoder, and each format's decoder and encoder are inverse to each other but for the words of log 20. -/

namespace Sys2Proof.Machine

/-! The formats (30_encoding.md R70). -/

/-- The decoder of each format, on the words of that format's width. -/
def decodeBits : (f : Format) → BitVec f.width → Instr
  | .state, w => decodeState w
  | .statePhase, w => decodeStatePhase w
  | .event, w => decodeEvent w
  | .beat, w => decodeBeat w
  | .byteClass, w => decodeByteClass w

theorem decode_toNat (f : Format) (v : BitVec f.width) : decode ⟨f, v.toNat⟩ = .ok (decodeBits f v) := by
  have fits : v.toNat < 2 ^ f.width := v.isLt
  rw [decode, if_pos fits]
  have value : BitVec.ofNat f.width v.toNat = v := BitVec.eq_of_toNat_eq (Nat.mod_eq_of_lt fits)
  cases f <;> exact congrArg (fun v => Except.ok (decodeBits _ v)) value

theorem decode_statePhase (w : BitVec 6) : decode ⟨.statePhase, w.toNat⟩ = .ok (decodeStatePhase w) :=
  decode_toNat .statePhase w

theorem decode_event (w : BitVec 67) : decode ⟨.event, w.toNat⟩ = .ok (decodeEvent w) :=
  decode_toNat .event w

theorem decode_beat (w : BitVec 9) : decode ⟨.beat, w.toNat⟩ = .ok (decodeBeat w) :=
  decode_toNat .beat w

theorem decode_byteClass (b : Byte) : decode ⟨.byteClass, b.toNat⟩ = .ok (decodeByteClass b) :=
  decode_toNat .byteClass b

/-- A number that fits in a format's width is a word of that format. -/
theorem exists_bits_of_lt {f : Format} {n : Nat} (h : n < 2 ^ f.width) :
    ∃ v : BitVec f.width, v.toNat = n := ⟨BitVec.ofNatLT n h, rfl⟩

theorem decode_of_tooWide {w : CodeWord} (h : 2 ^ w.format.width ≤ w.bits) :
    decode w = .error (.tooWide w.format) := if_neg h.not_gt

theorem decode_eq_ok {f : Format} {n : Nat} {i : Instr} (h : decode ⟨f, n⟩ = .ok i) :
    ∃ v : BitVec f.width, v.toNat = n ∧ decodeBits f v = i := by
  by_cases fits : n < 2 ^ f.width
  · obtain ⟨v, rfl⟩ := exists_bits_of_lt fits
    rw [decode_toNat, Except.ok.injEq] at h
    exact ⟨v, rfl, h⟩
  · rw [decode_of_tooWide (Nat.le_of_not_lt fits)] at h
    cases h

/-! State and state_phase words (30_encoding.md R72, R73). -/

theorem encode_decodeState : ∀ w : BitVec 4, encode (decodeState w) = ⟨.state, w.toNat⟩ := by decide

theorem decodeState_reserved : ∀ low : BitVec 2,
    decodeState (BitVec.ofNat 4 (0xC + low.toNat)) = .reservedState low := by decide

theorem encode_decodePhase :
    ∀ phase : BitVec 2, encode (decodePhase phase) = ⟨.statePhase, 0x08 + phase.toNat⟩ := by decide

/-- Bits 5:2 of a state_phase word. -/
theorem stateField_toNat (w : BitVec 6) : (w.extractLsb' 2 4).toNat = w.toNat / 4 := by
  rw [BitVec.extractLsb'_toNat, Nat.shiftRight_eq_div_pow]
  have := w.isLt
  omega

/-- Bits 1:0 of a state_phase word. -/
theorem phaseField_toNat (w : BitVec 6) : (w.extractLsb' 0 2).toNat = w.toNat % 4 := by
  simp [BitVec.extractLsb'_toNat]

theorem stateField_eq_read {w : BitVec 6} : w.extractLsb' 2 4 = stRead ↔ w.toNat / 4 = 0x2 := by
  rw [← BitVec.toNat_inj, stateField_toNat]
  rfl

/-- In READ a state_phase word is read by its phase. -/
theorem decodeStatePhase_of_read {w : BitVec 6} (h : w.toNat / 4 = 0x2) :
    decodeStatePhase w = decodePhase (w.extractLsb' 0 2) := if_pos (stateField_eq_read.2 h)

/-- Outside READ a state_phase word is read by its state (95_test_vectors.md E16). -/
theorem decodeStatePhase_of_not_read {w : BitVec 6} (h : w.toNat / 4 ≠ 0x2) :
    decodeStatePhase w = decodeState (w.extractLsb' 2 4) := if_neg (mt stateField_eq_read.1 h)

theorem encode_decodeStatePhase_of_read {w : BitVec 6} (h : w.toNat / 4 = 0x2) :
    encode (decodeStatePhase w) = ⟨.statePhase, w.toNat⟩ := by
  have value : 0x08 + w.toNat % 4 = w.toNat := by omega
  rw [decodeStatePhase_of_read h, encode_decodePhase, phaseField_toNat, value]

theorem encode_decodeStatePhase_of_not_read {w : BitVec 6} (h : w.toNat / 4 ≠ 0x2) :
    encode (decodeStatePhase w) = ⟨.state, w.toNat / 4⟩ := by
  rw [decodeStatePhase_of_not_read h, encode_decodeState, stateField_toNat]

theorem decode_statePhase_of_not_read {w : BitVec 6} (h : w.toNat / 4 ≠ 0x2) :
    decode ⟨.statePhase, w.toNat⟩ = decode ⟨.state, w.toNat / 4⟩ := by
  rw [← stateField_toNat, decode_state, decode_statePhase, decodeStatePhase_of_not_read h]

/-- Settles O52: outside READ both words are the step of the state field. -/
theorem everyWordOfAFormatDecodes : Obligations.EveryWordOfAFormatDecodes := by
  rintro ⟨f, n⟩
  refine ⟨fun fits => ?fits, decode_of_tooWide, fun hf hread fits => ?notRead⟩
  case fits =>
    obtain ⟨v, hv⟩ := exists_bits_of_lt fits
    exact ⟨_, hv ▸ decode_toNat f v⟩
  case notRead =>
    obtain rfl : f = .statePhase := hf
    obtain ⟨v, rfl⟩ := exists_bits_of_lt (f := .statePhase) fits
    exact decode_statePhase_of_not_read hread

/-! Event words (30_encoding.md R74): a code beside 64 bits of data. -/

/-- The instruction of each event code, with the data it carries. -/
def eventInstr : EventCode → Word → Instr
  | .attempt => .evAttempt
  | .prompt => .evPrompt
  | .verrNotice => .evVerrNotice
  | .overflow => .evOverflow
  | .skipNotice => .evSkipNotice
  | .runningSum => .evRunningSum
  | .finalSum => .evFinalSum
  | .reserved => .evReserved

theorem encode_eventInstr (c : EventCode) (data : Word) :
    encode (eventInstr c data) = eventWord c data := by
  cases c <;> rfl

theorem eventWord_eq (c : EventCode) (data : Word) :
    eventWord c data = ⟨.event, (c.toBits ++ data).toNat⟩ := by
  rw [eventWord, BitVec.toNat_append, ← Nat.shiftLeft_add_eq_or_of_lt data.isLt, Nat.shiftLeft_eq]

theorem decodeEvent_append (c : EventCode) (data : Word) :
    decodeEvent (c.toBits ++ data) = eventInstr c data := by
  have code : (c.toBits ++ data).extractLsb' 64 3 = c.toBits := BitVec.extractLsb'_append_eq_left
  have payload : (c.toBits ++ data).extractLsb' 0 64 = data := BitVec.extractLsb'_append_eq_right
  simp only [decodeEvent, code, payload]
  cases c <;> rfl

/-- Every 3-bit code is in the table. -/
theorem exists_eventCode (bits : BitVec 3) : ∃ c : EventCode, c.toBits = bits := by
  have listed : ∀ bits : BitVec 3, ∃ c ∈ [EventCode.attempt, .prompt, .verrNotice, .overflow,
      .skipNotice, .runningSum, .finalSum, .reserved], c.toBits = bits := by decide
  obtain ⟨c, -, hc⟩ := listed bits
  exact ⟨c, hc⟩

theorem exists_event (w : BitVec 67) : ∃ (c : EventCode) (data : Word), w = c.toBits ++ data := by
  obtain ⟨c, hc⟩ := exists_eventCode (w.extractLsb' 64 3)
  refine ⟨c, w.extractLsb' 0 64, ?_⟩
  have joined : w.extractLsb' 64 3 ++ w.extractLsb' 0 64 = w :=
    (BitVec.extractLsb'_append_extractLsb'_eq_extractLsb' (Nat.zero_add 64).symm).trans
      BitVec.extractLsb'_eq_self
  rw [hc, joined]

theorem decode_encode_eventInstr (c : EventCode) (data : Word) :
    decode (encode (eventInstr c data)) = .ok (eventInstr c data) := by
  rw [encode_eventInstr, eventWord_eq, decode_event, decodeEvent_append]

theorem encode_decodeEvent (w : BitVec 67) : encode (decodeEvent w) = ⟨.event, w.toNat⟩ := by
  obtain ⟨c, data, rfl⟩ := exists_event w
  rw [decodeEvent_append, encode_eventInstr, eventWord_eq]

/-! Beat words (30_encoding.md R71). -/

/-- Bit 8 of a beat word is clear when the word is a byte. -/
theorem beat_eof_clear_iff {w : BitVec 9} : w.getLsbD 8 = false ↔ w.toNat < 2 ^ 8 := by
  have := w.isLt
  rw [← BitVec.testBit_toNat, Nat.testBit_eq_decide_div_mod_eq, decide_eq_false_iff_not]
  omega

theorem decodeBeat_of_eof {w : BitVec 9} (h : w.getLsbD 8 = true) : decodeBeat w = .beatEof := if_pos h

theorem decodeBeat_of_byte {w : BitVec 9} (h : w.getLsbD 8 = false) :
    decodeBeat w = .beatByte (w.extractLsb' 0 8) := if_neg (Bool.eq_false_iff.1 h)

theorem beatData_toNat {w : BitVec 9} (h : w.toNat < 2 ^ 8) : (w.extractLsb' 0 8).toNat = w.toNat := by
  rw [BitVec.extractLsb'_toNat, Nat.shiftRight_zero, Nat.mod_eq_of_lt h]

theorem encode_decodeBeat_of_byte {w : BitVec 9} (h : w.getLsbD 8 = false) :
    encode (decodeBeat w) = ⟨.beat, w.toNat⟩ := by
  rw [decodeBeat_of_byte h, encode, beatData_toNat (beat_eof_clear_iff.1 h)]

theorem decode_beatByte (b : Byte) : decode ⟨.beat, b.toNat⟩ = .ok (.beatByte b) := by
  obtain ⟨w, hw⟩ : ∃ w : BitVec 9, w.toNat = b.toNat :=
    exists_bits_of_lt (f := .beat) (b.isLt.trans (by decide))
  have byte : w.toNat < 2 ^ 8 := hw ▸ b.isLt
  have data : w.extractLsb' 0 8 = b := BitVec.eq_of_toNat_eq ((beatData_toNat byte).trans hw)
  rw [← hw, decode_beat, decodeBeat_of_byte (beat_eof_clear_iff.2 byte), data]

end Sys2Proof.Machine

/-! Bytes and their classes (30_encoding.md R76): one relation for the table as the decoder numbers its
rows and one for the classes of the token reader; each function reads its table. -/

namespace Sys2Proof.Machine

/-- The table of byte classes as the decoder numbers it: a byte and the instruction of its row. -/
inductive ByteRow : Byte → Instr → Prop where
  | lf : ByteRow 0x0A .lf
  | wsTab : ByteRow 0x09 .wsTab
  | wsVt : ByteRow 0x0B .wsVt
  | wsFfCr (low : BitVec 1) : ByteRow (BitVec.ofNat 8 (0x0C + low.toNat)) (.wsFfCr low)
  | wsSpace : ByteRow 0x20 .wsSpace
  | digitLow (value : BitVec 3) : ByteRow (BitVec.ofNat 8 (0x30 + value.toNat)) (.digitLow value)
  | digitHigh (low : BitVec 1) : ByteRow (BitVec.ofNat 8 (0x38 + low.toNat)) (.digitHigh low)
  | plus : ByteRow 0x2B .plus
  | minus : ByteRow 0x2D .minus
  | other {b : Byte} (h : isOtherByte b = true) : ByteRow b (.other b)

/-- The bits outside a row's mask are its operand. -/
theorem maskedByte_eq : ∀ b : Byte,
    (b &&& 0xFE = 0x0C → BitVec.ofNat 8 (0x0C + (b.extractLsb' 0 1).toNat) = b) ∧
    (b &&& 0xF8 = 0x30 → BitVec.ofNat 8 (0x30 + (b.extractLsb' 0 3).toNat) = b) ∧
    (b &&& 0xFE = 0x38 → BitVec.ofNat 8 (0x38 + (b.extractLsb' 0 1).toNat) = b) := by
  decide

/-- The rows that OTHER is the complement of. -/
theorem isOtherByte_iff {b : Byte} : isOtherByte b = true ↔
    b ≠ 0x0A ∧ b ≠ 0x09 ∧ b ≠ 0x0B ∧ b &&& 0xFE ≠ 0x0C ∧ b ≠ 0x20 ∧ b &&& 0xF8 ≠ 0x30 ∧
      b &&& 0xFE ≠ 0x38 ∧ b ≠ 0x2B ∧ b ≠ 0x2D := by
  have full : b &&& 0xFF = b := BitVec.and_allOnes
  simp only [isOtherByte, namedByteRows, List.any_cons, List.any_nil, full, Bool.not_eq_true',
    Bool.or_eq_false_iff, beq_eq_false_iff_ne, and_true]

theorem byteRow_decodeByteClass (b : Byte) : ByteRow b (decodeByteClass b) := by
  obtain ⟨ffCr, digitLow, digitHigh⟩ := maskedByte_eq b
  unfold decodeByteClass
  refine iteInduction (fun h => h ▸ .lf) fun lf => ?_
  refine iteInduction (fun h => h ▸ .wsTab) fun tab => ?_
  refine iteInduction (fun h => h ▸ .wsVt) fun vt => ?_
  refine iteInduction (fun h => ?wsFfCr) fun notFfCr => ?_
  case wsFfCr => simpa only [ffCr h] using ByteRow.wsFfCr (b.extractLsb' 0 1)
  refine iteInduction (fun h => h ▸ .wsSpace) fun space => ?_
  refine iteInduction (fun h => ?digitLow) fun notLow => ?_
  case digitLow => simpa only [digitLow h] using ByteRow.digitLow (b.extractLsb' 0 3)
  refine iteInduction (fun h => ?digitHigh) fun notHigh => ?_
  case digitHigh => simpa only [digitHigh h] using ByteRow.digitHigh (b.extractLsb' 0 1)
  refine iteInduction (fun h => h ▸ .plus) fun plus => ?_
  refine iteInduction (fun h => h ▸ .minus) fun minus => ?_
  exact .other (isOtherByte_iff.2 ⟨lf, tab, vt, notFfCr, space, notLow, notHigh, plus, minus⟩)

theorem decodeByteClass_operand :
    (∀ low : BitVec 1, decodeByteClass (BitVec.ofNat 8 (0x0C + low.toNat)) = .wsFfCr low) ∧
    (∀ value : BitVec 3, decodeByteClass (BitVec.ofNat 8 (0x30 + value.toNat)) = .digitLow value) ∧
    (∀ low : BitVec 1, decodeByteClass (BitVec.ofNat 8 (0x38 + low.toNat)) = .digitHigh low) := by
  decide

theorem decodeByteClass_of_isOtherByte {b : Byte} (h : isOtherByte b = true) :
    decodeByteClass b = .other b := by
  obtain ⟨hlf, htab, hvt, hffCr, hspace, hlow, hhigh, hplus, hminus⟩ := isOtherByte_iff.1 h
  rw [decodeByteClass, if_neg hlf, if_neg htab, if_neg hvt, if_neg hffCr, if_neg hspace, if_neg hlow,
    if_neg hhigh, if_neg hplus, if_neg hminus]

/-- The decoder reads the table. -/
theorem decodeByteClass_eq_iff {b : Byte} {i : Instr} : decodeByteClass b = i ↔ ByteRow b i := by
  refine ⟨fun h => h ▸ byteRow_decodeByteClass b, fun h => ?_⟩
  obtain ⟨ffCr, digitLow, digitHigh⟩ := decodeByteClass_operand
  cases h with
  | wsFfCr low => exact ffCr low
  | digitLow value => exact digitLow value
  | digitHigh low => exact digitHigh low
  | other h => exact decodeByteClass_of_isOtherByte h
  | lf | wsTab | wsVt | wsSpace | plus | minus => rfl

/-- The encoder writes the table. -/
theorem ByteRow.encode_eq {b : Byte} {i : Instr} (h : ByteRow b i) : encode i = ⟨.byteClass, b.toNat⟩ := by
  cases h with
  | wsFfCr low | digitHigh low | digitLow low =>
    have := low.isLt
    simp only [encode, BitVec.toNat_ofNat, CodeWord.mk.injEq, true_and]
    omega
  | other h => rfl
  | lf | wsTab | wsVt | wsSpace | plus | minus => rfl

theorem ByteRow.decode_encode {b : Byte} {i : Instr} (h : ByteRow b i) : decode (encode i) = .ok i := by
  rw [h.encode_eq, decode_byteClass, decodeByteClass_eq_iff.2 h]

/-- The bytes of class WS (30_encoding.md R76). -/
abbrev BlankByte (b : Byte) : Prop := b = 0x09 ∨ b = 0x0B ∨ b = 0x0C ∨ b = 0x0D ∨ b = 0x20

/-- The bytes of class DIGIT (30_encoding.md R76). -/
abbrev DigitByte (b : Byte) : Prop := 0x30 ≤ b.toNat ∧ b.toNat ≤ 0x39

/-- The table of byte classes as the token reader needs it. -/
inductive ClassRow : Byte → ByteClass → Prop where
  | lf : ClassRow 0x0A .lf
  | ws {b : Byte} (h : BlankByte b) : ClassRow b .ws
  | digit {b : Byte} (h : DigitByte b) : ClassRow b (.digit (b.toNat - 0x30))
  | plus : ClassRow 0x2B .plus
  | minus : ClassRow 0x2D .minus
  | other {b : Byte} (lf : b ≠ 0x0A) (ws : ¬BlankByte b)
      (digit : ¬DigitByte b) (plus : b ≠ 0x2B) (minus : b ≠ 0x2D) : ClassRow b .other

theorem classRow_classify (b : Byte) : ClassRow b (classify b) := by
  unfold classify
  split_ifs with lf ws digit plus minus
  · exact lf ▸ .lf
  · exact .ws ws
  · exact .digit digit
  · exact plus ▸ .plus
  · exact minus ▸ .minus
  · exact .other lf ws digit plus minus

theorem classify_of_digit {b : Byte} (h : DigitByte b) :
    classify b = .digit (b.toNat - 0x30) := by
  rw [classify, if_neg (by bv_omega), if_neg (by bv_omega), if_pos h]

/-- `classify` reads the table. -/
theorem classify_eq_iff {b : Byte} {k : ByteClass} : classify b = k ↔ ClassRow b k := by
  refine ⟨fun h => h ▸ classRow_classify b, fun h => ?_⟩
  cases h with
  | ws h => obtain rfl | rfl | rfl | rfl | rfl := h <;> rfl
  | digit h => exact classify_of_digit h
  | other lf ws digit plus minus =>
    rw [classify, if_neg lf, if_neg ws, if_neg digit, if_neg plus, if_neg minus]
  | lf | plus | minus => rfl

/-- The rows with operand bits, by the values of their bytes. -/
theorem maskedByte_iff : ∀ b : Byte,
    (b &&& 0xFE = 0x0C ↔ b = 0x0C ∨ b = 0x0D) ∧
    (b &&& 0xF8 = 0x30 ↔ 0x30 ≤ b.toNat ∧ b.toNat ≤ 0x37) ∧
    (b &&& 0xFE = 0x38 ↔ 0x38 ≤ b.toNat ∧ b.toNat ≤ 0x39) := by
  decide

/-- OTHER is the same set of bytes in both tables. -/
theorem isOtherByte_iff_classRow {b : Byte} : isOtherByte b = true ↔ ClassRow b .other := by
  obtain ⟨ffCr, digitLow, digitHigh⟩ := maskedByte_iff b
  rw [isOtherByte_iff, ne_eq (b &&& 0xFE) 0x0C, ffCr, ne_eq (b &&& 0xF8), digitLow,
    ne_eq (b &&& 0xFE), digitHigh]
  constructor
  · rintro ⟨lf, tab, vt, ffCr, space, low, high, plus, minus⟩
    refine .other lf ?blank (by omega) plus minus
    rintro (h | h | h | h | h)
    exacts [tab h, vt h, ffCr (.inl h), ffCr (.inr h), space h]
  · rintro ⟨⟩
    next lf blank digit plus minus =>
      obtain ⟨tab, vt, ff, cr, space⟩ : b ≠ 0x09 ∧ b ≠ 0x0B ∧ b ≠ 0x0C ∧ b ≠ 0x0D ∧ b ≠ 0x20 := by
        simpa only [not_or] using blank
      exact ⟨lf, tab, vt, not_or.2 ⟨ff, cr⟩, space, by omega, by omega, plus, minus⟩

/-! The rows of one byte, in both tables. -/

section
variable {b : Byte}

theorem ClassRow.lf_iff : ClassRow b .lf ↔ b = 0x0A := ⟨fun | .lf => rfl, fun h => h ▸ .lf⟩

theorem ClassRow.plus_iff : ClassRow b .plus ↔ b = 0x2B := ⟨fun | .plus => rfl, fun h => h ▸ .plus⟩

theorem ClassRow.minus_iff : ClassRow b .minus ↔ b = 0x2D := ⟨fun | .minus => rfl, fun h => h ▸ .minus⟩

theorem ByteRow.lf_iff : ByteRow b .lf ↔ b = 0x0A := ⟨fun | .lf => rfl, fun h => h ▸ .lf⟩

theorem ByteRow.plus_iff : ByteRow b .plus ↔ b = 0x2B := ⟨fun | .plus => rfl, fun h => h ▸ .plus⟩

theorem ByteRow.minus_iff : ByteRow b .minus ↔ b = 0x2D := ⟨fun | .minus => rfl, fun h => h ▸ .minus⟩

end

/-! The rows of several bytes. -/

theorem ByteRow.other_iff {b : Byte} : ByteRow b (.other b) ↔ ClassRow b .other :=
  ⟨fun | .other h => isOtherByte_iff_classRow.1 h, fun h => .other (isOtherByte_iff_classRow.2 h)⟩

/-- The decoder's five WS rows are the blanks of `classify`. -/
theorem byteRow_ws_iff {b : Byte} :
    ByteRow b .wsTab ∨ ByteRow b .wsVt ∨ ByteRow b (.wsFfCr 0) ∨ ByteRow b (.wsFfCr 1) ∨
      ByteRow b .wsSpace ↔ BlankByte b := by
  constructor
  · rintro (h | h | h | h | h) <;> cases h <;> decide
  · rintro (rfl | rfl | rfl | rfl | rfl)
    · exact .inl .wsTab
    · exact .inr (.inl .wsVt)
    · exact .inr (.inr (.inl (.wsFfCr 0)))
    · exact .inr (.inr (.inr (.inl (.wsFfCr 1))))
    · exact .inr (.inr (.inr (.inr .wsSpace)))

theorem ByteRow.digitLow_iff {b : Byte} {v : BitVec 3} :
    ByteRow b (.digitLow v) ↔ b.toNat = 0x30 + v.toNat := by
  refine ⟨fun h => (congrArg CodeWord.bits h.encode_eq).symm, fun h => ?_⟩
  simpa [← h] using ByteRow.digitLow v

theorem ByteRow.digitHigh_iff {b : Byte} {v : BitVec 1} :
    ByteRow b (.digitHigh v) ↔ b.toNat = 0x38 + v.toNat := by
  refine ⟨fun h => (congrArg CodeWord.bits h.encode_eq).symm, fun h => ?_⟩
  simpa [← h] using ByteRow.digitHigh v

/-- The decoder's two DIGIT rows, with the digit in the operand bits. -/
theorem byteRow_digit_iff {b : Byte} :
    (∃ v, ByteRow b (.digitLow v) ∧ b.toNat = 0x30 + v.toNat) ∨
      (∃ v, ByteRow b (.digitHigh v) ∧ b.toNat = 0x38 + v.toNat) ↔ DigitByte b := by
  simp only [ByteRow.digitLow_iff, ByteRow.digitHigh_iff, and_self]
  constructor
  · rintro (⟨v, hv⟩ | ⟨v, hv⟩) <;> have := v.isLt <;> omega
  · rintro ⟨low, high⟩
    by_cases h : b.toNat ≤ 0x37
    · exact .inl ⟨BitVec.ofNatLT (b.toNat - 0x30) (by omega), by simp only [BitVec.toNat_ofNatLT]; omega⟩
    · exact .inr ⟨BitVec.ofNatLT (b.toNat - 0x38) (by omega), by simp only [BitVec.toNat_ofNatLT]; omega⟩

/-- Settles O3: both read the table, and a row of the table is met by its own bytes only. -/
theorem byteClassesAreTheTable : Obligations.ByteClassesAreTheTable := by
  intro b lf ws digit other
  have other_iff : ClassRow b .other ↔ other :=
    ⟨fun | .other lf ws digit plus minus => ⟨lf, ws, digit, plus, minus⟩,
      fun ⟨lf, ws, digit, plus, minus⟩ => .other lf ws digit plus minus⟩
  simp only [classify_eq_iff, decodeByteClass_eq_iff, List.mem_cons, List.not_mem_nil, or_false]
  exact ⟨ClassRow.lf_iff, ⟨fun | .ws h => h, .ws⟩,
    fun d => ⟨fun | .digit h => ⟨h, rfl⟩, fun ⟨h, hd⟩ => hd ▸ .digit h⟩,
    ClassRow.plus_iff, ClassRow.minus_iff, other_iff, ByteRow.lf_iff, byteRow_ws_iff, byteRow_digit_iff,
    ByteRow.plus_iff, ByteRow.minus_iff, ByteRow.other_iff.trans other_iff⟩

end Sys2Proof.Machine

/-! The decoder and the encoder together. -/

namespace Sys2Proof.Machine

/-- Settles O1: each format's decoder reads what the encoder writes in it. -/
theorem decodeEncodeAgree : Obligations.DecodeEncodeAgree := by
  refine ⟨fun i hwf hadd haccum => ?_, rfl, rfl⟩
  cases i with
  | reservedState low => rw [← decodeState_reserved low, encode_decodeState, decode_state]
  | evAttempt data => exact decode_encode_eventInstr .attempt data
  | evPrompt data => exact decode_encode_eventInstr .prompt data
  | evVerrNotice data => exact decode_encode_eventInstr .verrNotice data
  | evOverflow data => exact decode_encode_eventInstr .overflow data
  | evSkipNotice data => exact decode_encode_eventInstr .skipNotice data
  | evRunningSum data => exact decode_encode_eventInstr .runningSum data
  | evFinalSum data => exact decode_encode_eventInstr .finalSum data
  | evReserved data => exact decode_encode_eventInstr .reserved data
  | beatByte b => exact decode_beatByte b
  | wsFfCr low => exact (ByteRow.wsFfCr low).decode_encode
  | digitLow value => exact (ByteRow.digitLow value).decode_encode
  | digitHigh low => exact (ByteRow.digitHigh low).decode_encode
  | other b => exact (ByteRow.other hwf).decode_encode
  | add => exact absurd rfl hadd
  | accum => exact absurd rfl haccum
  | _ => rfl

/-- A word of another format than beat is not EOF's. -/
theorem encode_eq_ite {f : Format} {n : Nat} {i : Instr} (hf : f ≠ .beat) (h : encode i = ⟨f, n⟩) :
    encode i = if i = .beatEof then ⟨.beat, 0x100⟩ else ⟨f, n⟩ := by
  have notEof : i ≠ .beatEof := by
    rintro rfl
    exact hf (congrArg CodeWord.format h.symm)
  rw [if_neg notEof, h]

/-- Settles O2: format by format, an EOF beat and a state_phase word outside READ apart. -/
theorem encodeDecodeAgree : Obligations.EncodeDecodeAgree := by
  rintro ⟨f, n⟩ i h
  obtain ⟨v, rfl, rfl⟩ := decode_eq_ok h
  cases f with
  | state => exact encode_eq_ite (f := .state) nofun (encode_decodeState v)
  | statePhase =>
    by_cases hread : v.toNat / 4 = 0x2
    · have inRead : ¬(Format.statePhase = .statePhase ∧ v.toNat / 4 ≠ 0x2) := fun h => h.2 hread
      rw [if_neg inRead]
      exact encode_eq_ite nofun (encode_decodeStatePhase_of_read hread)
    · rw [if_pos (c := _ ∧ _) ⟨rfl, hread⟩]
      exact encode_eq_ite nofun (encode_decodeStatePhase_of_not_read hread)
  | event => exact encode_eq_ite (f := .event) nofun (encode_decodeEvent v)
  | beat =>
    cases heof : v.getLsbD 8 with
    | true => rw [decodeBits, decodeBeat_of_eof heof]; rfl
    | false =>
      rw [decodeBits, if_neg (decodeBeat_of_byte heof ▸ by simp)]
      exact encode_decodeBeat_of_byte heof
  | byteClass => exact encode_eq_ite (f := .byteClass) nofun (byteRow_decodeByteClass v).encode_eq

/-- Settles O4: the decoder runs on each word. -/
theorem writtenOutWordsDecode : Obligations.WrittenOutWordsDecode :=
  ⟨rfl, rfl, rfl, rfl, rfl, rfl, rfl, rfl, rfl, rfl⟩

end Sys2Proof.Machine

/-! An event word beside the step of the current state (20_memory.md R55, R56). -/

namespace Sys2Proof.Machine

/-- Where an event is presented, the step of the current state is the emitter's, and it is an Emit of
that event. -/
theorem exec_of_presented {s : State} {e : Event} (h : presented s.regs = some e) :
    exec (decodeState s.regs.state) s = emitterStep e.code s ∧
      ∃ r, emitterStep e.code s = emit s e r := by
  obtain ⟨hs, rfl⟩ | ⟨hs, budget, rfl⟩ | ⟨hs, rfl⟩ | ⟨hs, ovf, rfl⟩ | ⟨hs, rfl⟩ | ⟨hs, rfl⟩ | ⟨hs, rfl⟩ :=
    presented_eq_some h
  all_goals rw [hs]
  · exact ⟨rfl, _, rfl⟩
  · exact ⟨rfl, _, awaitStep_of_budget budget⟩
  · exact ⟨rfl, _, rfl⟩
  · exact ⟨rfl, _, if_pos ovf⟩
  · exact ⟨rfl, _, rfl⟩
  · exact ⟨rfl, _, rfl⟩
  · exact ⟨rfl, _, rfl⟩

/-- Settles O30: the event's word and the current state's step are the same Emit. -/
theorem eventTransferIsItsEmittersStep : Obligations.EventTransferIsItsEmittersStep := by
  intro i e s hi hp
  obtain ⟨hstep, r, hemit⟩ := exec_of_presented hp
  have hexec : exec i s = emit s e r := (exec_of_carriedEvent hi s).trans ((if_pos hp).trans hemit)
  refine ⟨fun ready => ?delivered, fun waits => hexec.trans (emit_of_not_ready waits e r)⟩
  have sent : emit s e r = .next ((s.withRegs r).logEvent e) := if_pos ready
  exact ⟨_, hexec.trans sent, (hstep.trans hemit).trans sent, rfl, rfl⟩

end Sys2Proof.Machine

/-! ADD (40_adder.md R100 to R106): its raw sum is the sum of words and its flag the library's signed
overflow, so each answer is decided by whether the exact sum is in the signed 64-bit range. -/

namespace Sys2Proof.Machine

theorem inInt64_toInt (a : Word) : InInt64 a.toInt :=
  ⟨BitVec.le_toInt a, Int.le_sub_one_of_lt BitVec.toInt_lt⟩

/-! The raw sum and the flag, from the library's addition. -/

theorem addRaw_eq_add (a b : Word) : addRaw a b = a + b :=
  BitVec.eq_of_toNat_eq (by simp [addRaw])

/-- The raw sum is the exact sum wrapped to 64 bits, with or without overflow. -/
theorem addRaw_eq_ofInt (a b : Word) : addRaw a b = BitVec.ofInt 64 (a.toInt + b.toInt) := by
  rw [addRaw_eq_add, BitVec.ofInt_add, BitVec.ofInt_toInt, BitVec.ofInt_toInt]

theorem addOvf_eq_saddOverflow (a b : Word) : addOvf a b = a.saddOverflow b := by
  simp only [addOvf, addRaw_eq_add, BitVec.saddOverflow_eq, BitVec.msb_eq_getLsbD_last]
  rfl

/-! The flag, by the exact sum. -/

theorem addOvf_eq_true_iff {a b : Word} : addOvf a b = true ↔ ¬InInt64 (a.toInt + b.toInt) := by
  rw [addOvf_eq_saddOverflow]
  simp only [BitVec.saddOverflow, InInt64, int64Min, int64Max, Bool.or_eq_true, decide_eq_true_eq]
  omega

theorem addOvf_eq_false_iff {a b : Word} : addOvf a b = false ↔ InInt64 (a.toInt + b.toInt) := by
  rw [← Bool.not_eq_true, addOvf_eq_true_iff, not_not]

theorem addOvf_comm (a b : Word) : addOvf a b = addOvf b a := by
  rw [Bool.eq_iff_iff, addOvf_eq_true_iff, addOvf_eq_true_iff, Int.add_comm]

theorem addOvf_zero (a : Word) : addOvf a 0 = false :=
  addOvf_eq_false_iff.2 (by simpa using inInt64_toInt a)

theorem addRaw_toInt_of_inInt64 {a b : Word} (h : InInt64 (a.toInt + b.toInt)) :
    (addRaw a b).toInt = a.toInt + b.toInt := by
  have fits : ¬a.saddOverflow b = true := by
    rw [← addOvf_eq_saddOverflow, addOvf_eq_false_iff.2 h]
    exact Bool.false_ne_true
  rw [addRaw_eq_add, BitVec.toInt_add_of_not_saddOverflow fits]

/-! The spec's other two forms of the condition. -/

/-- The range form (R102). -/
theorem addOutOfRange_iff {a b : Word} : AddOutOfRange a b ↔ ¬InInt64 (a.toInt + b.toInt) := by
  simp only [AddOutOfRange, InInt64]
  omega

/-- The pre-check form (R103): of the two limits only the one on the side of b's sign can be passed,
because a itself is within both. -/
theorem addPreCheck_iff {a b : Word} : AddPreCheck a b ↔ ¬InInt64 (a.toInt + b.toInt) := by
  obtain ⟨hlo, hhi⟩ := inInt64_toInt a
  simp only [AddPreCheck, InInt64]
  obtain hneg | hzero | hpos := Int.lt_trichotomy b.toInt 0 <;> omega

/-- The pre-check's upper bound is representable where it is evaluated (R103). -/
theorem inInt64_max_sub {b : Word} (hpos : b.toInt > 0) : InInt64 (int64Max - b.toInt) := by
  have hhi : b.toInt ≤ int64Max := (inInt64_toInt b).2
  simp only [InInt64, int64Min, int64Max] at *
  omega

/-- The pre-check's lower bound is representable where it is evaluated (R103). -/
theorem inInt64_min_sub {b : Word} (hneg : b.toInt < 0) : InInt64 (int64Min - b.toInt) := by
  have hlo : int64Min ≤ b.toInt := (inInt64_toInt b).1
  simp only [InInt64, int64Min, int64Max] at *
  omega

/-! The value. -/

theorem addValue_of_inInt64 {a b : Word} (h : InInt64 (a.toInt + b.toInt)) :
    addValue a b = addRaw a b := by
  simp [addValue, addOvf_eq_false_iff.2 h]

theorem addValue_of_not_inInt64 {a b : Word} (h : ¬InInt64 (a.toInt + b.toInt)) :
    addValue a b = 0 := if_pos (addOvf_eq_true_iff.2 h)

theorem addValue_comm (a b : Word) : addValue a b = addValue b a := by
  simp only [addValue, addOvf_comm a b, addRaw_eq_add, BitVec.add_comm a b]

theorem addValue_zero (a : Word) : addValue a 0 = a := by
  rw [addValue, addOvf_zero, if_neg Bool.false_ne_true, addRaw_eq_add]
  exact BitVec.add_zero a

/-! The statements. -/

/-- Settles O25: flag and range form are the same test of the exact sum. -/
theorem overflowIsTheRangeTest : Obligations.OverflowIsTheRangeTest := fun a b =>
  ⟨addOvf_eq_true_iff.trans addOutOfRange_iff.symm, fun fits =>
    ⟨addRaw_eq_ofInt a b, addRaw_toInt_of_inInt64 (addOvf_eq_false_iff.1 fits)⟩⟩

/-- Settles O26: flag and pre-check are the same test of the exact sum. -/
theorem overflowIsThePreCheck : Obligations.OverflowIsThePreCheck := fun a _ =>
  ⟨addOvf_eq_true_iff.trans addPreCheck_iff.symm, inInt64_max_sub, inInt64_min_sub, addOvf_zero a⟩

/-- Settles O27: one lemma for each law. -/
theorem addLawsHold : Obligations.AddLawsHold := fun a b =>
  ⟨fun h => ⟨(addValue_of_inInt64 h).symm ▸ addRaw_toInt_of_inInt64 h, addOvf_eq_false_iff.2 h⟩,
    fun h => ⟨addValue_of_not_inInt64 h, addOvf_eq_true_iff.2 h⟩,
    ⟨addValue_comm a b, addOvf_comm a b⟩,
    ⟨addValue_zero a, addOvf_zero a⟩⟩

/-- ADD writes its pair to the model's field `ret` and nothing else (R105). -/
theorem exec_add (s : State) : exec .add s = .next { s with
    ret := .add (addOvf s.regs.opA s.regs.opB) (addValue s.regs.opA s.regs.opB) } := rfl

/-- Settles O28: the pair ADD leaves, in each of the two cases of the exact sum. -/
theorem addReturnsTheCheckedSum : Obligations.AddReturnsTheCheckedSum := by
  intro s
  refine ⟨fun h => ?inRange, fun h => ?outOfRange⟩
  case inRange => rw [exec_add, addOvf_eq_false_iff.2 h, addValue_of_inInt64 h, addRaw_eq_ofInt]
  case outOfRange => rw [exec_add, addOvf_eq_true_iff.2 h, addValue_of_not_inInt64 h]

end Sys2Proof.Machine

/-! ACCUM and the running sum (41_accumulator.md R120 to R124): what one accumulation returns in exact
integers, and what edges without reset add to `sum`. -/

namespace Sys2Proof.Machine

/-! One accumulation, in exact integers. -/

theorem addValue_toInt (a b : Word) :
    (addValue a b).toInt = if InInt64 (a.toInt + b.toInt) then a.toInt + b.toInt else 0 := by
  split
  case isTrue h => rw [addValue_of_inInt64 h, addRaw_toInt_of_inInt64 h]
  case isFalse h => rw [addValue_of_not_inInt64 h]; rfl

theorem accumSum_eq_ofInt (s r : Word) : accumSum s r = BitVec.ofInt 64 (s.toInt + r.toInt) :=
  wrap64_eq_ofInt _

/-- ACCUM's test is the range form of ADD's (40_adder.md R102). -/
theorem accumWrapped_eq_true_iff {s r : Word} :
    accumWrapped s r = true ↔ ¬InInt64 (s.toInt + r.toInt) := by
  rw [← addOutOfRange_iff, accumWrapped, Bool.or_eq_true, decide_eq_true_iff, decide_eq_true_iff]
  rfl

theorem accumWrapped_eq (s r : Word) : accumWrapped s r = !decide (InInt64 (s.toInt + r.toInt)) := by
  rw [Bool.eq_iff_iff, accumWrapped_eq_true_iff, Bool.not_eq_true', decide_eq_false_iff_not]

/-- A total in range is kept exactly. -/
theorem accumSum_toInt_of_not_wrapped {s r : Word} (h : accumWrapped s r = false) :
    (accumSum s r).toInt = s.toInt + r.toInt := by
  have inRange : InInt64 (s.toInt + r.toInt) := by
    rwa [← Bool.not_eq_true, accumWrapped_eq_true_iff, not_not] at h
  rw [accumSum_eq_ofInt, ← addRaw_eq_ofInt, addRaw_toInt_of_inInt64 inRange]

/-- ACCUM writes its pair to the model's field `ret` and nothing else (R121, R122). -/
theorem exec_accum (s : State) : exec .accum s = .next { s with
    ret := .accum (accumSum s.regs.sum (addValue s.regs.opA s.regs.opB))
      (accumWrapped s.regs.sum (addValue s.regs.opA s.regs.opB)) } := rfl

/-- Settles O29: the pair ACCUM leaves, with the ADD value in exact integers. -/
theorem accumReturnsTheWrappedSum : Obligations.AccumReturnsTheWrappedSum := by
  intro s
  rw [exec_accum, accumSum_eq_ofInt, accumWrapped_eq, addValue_toInt]

/-! What `c` added to the running sum leaves. -/

/-- From `s` to `t` the contributions add up to `c`: `sum` has grown by `c` with wrap-around, and by
exactly `c` unless `acc_wrap`, which stays set, records a wrap (R122, R124). -/
structure Accumulates (c : Int) (s t : State) : Prop where
  wrapped : t.regs.sum = BitVec.ofInt 64 (s.regs.sum.toInt + c)
  unwrapped : t.regs.accWrap = false → t.regs.sum.toInt = s.regs.sum.toInt + c
  sticky : s.regs.accWrap = true → t.regs.accWrap = true

theorem Accumulates.of_unchanged {s t : State} (sum : t.regs.sum = s.regs.sum)
    (accWrap : t.regs.accWrap = s.regs.accWrap) : Accumulates 0 s t where
  wrapped := by rw [Int.add_zero, BitVec.ofInt_toInt, sum]
  unwrapped _ := by rw [Int.add_zero, sum]
  sticky h := accWrap.trans h

theorem Accumulates.trans {c d : Int} {s t u : State} (first : Accumulates c s t)
    (second : Accumulates d t u) : Accumulates (c + d) s u where
  wrapped := by
    rw [second.wrapped, BitVec.ofInt_add, BitVec.ofInt_toInt, first.wrapped, ← BitVec.ofInt_add,
      Int.add_assoc]
  unwrapped clear := by
    have clearBefore : t.regs.accWrap = false :=
      Bool.eq_false_of_not_eq_true fun set => by simp [second.sticky set] at clear
    rw [second.unwrapped clear, first.unwrapped clearBefore, Int.add_assoc]
  sticky := second.sticky ∘ first.sticky

theorem Accumulates.advance {c : Int} {s t : State} (h : Accumulates c s t) :
    Accumulates c s t.advance := { h with }

/-! The edge. -/

/-- COMPUTE's writes accumulate the ADD value (42_retry_fsm.md R146). -/
theorem computeRegs_accumulates (s : State) :
    Accumulates (addValue s.regs.opA s.regs.opB).toInt s (s.withRegs (computeRegs s.regs)) where
  wrapped := accumSum_eq_ofInt _ _
  unwrapped clear := accumSum_toInt_of_not_wrapped (Bool.or_eq_false_iff.1 clear).2
  sticky set := Bool.or_eq_true_iff.2 (.inl set)

/-- An overflow contributes the sentinel 0, whether or not its event is accepted at this edge. -/
theorem contribution_of_overflow {s : State} (ovf : addOvf s.regs.opA s.regs.opB = true) :
    contribution s = 0 := by
  simp [contribution, addValue, ovf]

theorem contribution_of_compute {s : State} (hr : s.pins.rst = false) (hs : s.regs.state = stCompute)
    (fits : addOvf s.regs.opA s.regs.opB = false) :
    contribution s = (addValue s.regs.opA s.regs.opB).toInt := by
  simp [contribution, computes, hr, hs, fits]

theorem contribution_of_not_compute {s : State} (hs : s.regs.state ≠ stCompute) :
    contribution s = 0 := by
  simp [contribution, computes, hs]

theorem compute_accumulates {s : State} (hr : s.pins.rst = false) (hs : s.regs.state = stCompute) :
    Ensures (Accumulates (contribution s) s) (computeStep s) := by
  refine ensures_ite (fun ovf => ?overflow) fun fits => ensures_next ?fits
  case overflow =>
    rw [contribution_of_overflow ovf, computeRegs_of_addOvf ovf]
    exact emit_ensures (.of_unchanged rfl rfl) (.of_unchanged rfl rfl)
  case fits =>
    rw [contribution_of_compute hr hs (Bool.eq_false_of_not_eq_true fits)]
    exact computeRegs_accumulates s

theorem decodeState_eq_compute_iff {w : BitVec 4} : decodeState w = .compute ↔ w = stCompute := by
  revert w
  decide

/-- Only COMPUTE writes the running sum, and it writes the edge's contribution (R121). -/
theorem exec_fetch_accumulates {s : State} (hr : s.pins.rst = false) :
    Ensures (Accumulates (contribution s) s) (exec (fetch s) s) := by
  by_cases hs : s.regs.state = stCompute
  · rw [fetch, decodeState_eq_compute_iff.2 hs]
    exact compute_accumulates hr hs
  · have other : fetch s ≠ .compute := mt decodeState_eq_compute_iff.1 hs
    intro t ht
    have w := exec_writesOwn (fetch s) s t ht
    rw [contribution_of_not_compute hs]
    exact .of_unchanged (not_imp_comm.1 w.sum other) (not_imp_comm.1 w.accWrap other)

theorem step_accumulates {s t : State} (hr : s.pins.rst = false) (hstep : step s = .next t) :
    Accumulates (contribution s) s t := by
  obtain ⟨-, ⟨hr', -⟩ | ⟨-, u, hu, rfl⟩⟩ := step_eq_next.1 hstep
  · simp [hr] at hr'
  · exact (exec_fetch_accumulates hr u hu).advance

/-! Runs without reset. -/

/-- What every edge leaves of the environment: its script moves on by one (log 3). -/
theorem step_edges {s t : State} (hstep : step s = .next t) :
    t.edges = s.script.headD .idle :: s.script.tail := by
  obtain ⟨-, ⟨-, rfl⟩ | ⟨-, u, hu, rfl⟩⟩ := step_eq_next.1 hstep
  · rfl
  · obtain ⟨-, -, script⟩ := exec_keepsEnvironment _ s u hu
    rw [State.edges, State.advance_pins, State.advance_script, script]

theorem NoResetFor.head {n : Nat} {s : State} (h : NoResetFor (n + 1) s) : s.pins.rst = false :=
  h s.pins (by simp [State.edges])

/-- Behind the script's end no reset comes either. -/
theorem NoResetFor.of_step {n : Nat} {s t : State} (h : NoResetFor (n + 1) s)
    (hstep : step s = .next t) : NoResetFor n t := by
  intro p hp
  rw [step_edges hstep] at hp
  cases hscript : s.script with
  | nil =>
    obtain rfl : p = Pins.idle := by simpa [hscript] using List.mem_of_mem_take hp
    rfl
  | cons next later => exact h p (List.mem_cons_of_mem _ (by simpa [hscript] using hp))

theorem contributions_succ {n : Nat} {s t : State} (hstep : step s = .next t) :
    contributions (n + 1) s = contribution s + contributions n t := by
  rw [contributions, hstep]

theorem run_accumulates (n : Nat) {s t : State} (noReset : NoResetFor n s)
    (hrun : Host.Core.run Sys2Proof.core n s = .next t) : Accumulates (contributions n s) s t := by
  induction n generalizing s with
  | zero =>
    obtain rfl := run_zero_eq_next.1 hrun
    exact .of_unchanged rfl rfl
  | succ n ih =>
    obtain ⟨u, hstep, hrest⟩ := run_succ_eq_next.1 hrun
    rw [contributions_succ hstep]
    exact (step_accumulates noReset.head hstep).trans (ih (noReset.of_step hstep) hrest)

/-- Settles O44: each edge adds its contribution, and what edges add composes over the run. -/
theorem runningSumIsTheContributions : Obligations.RunningSumIsTheContributions := by
  intro n s t noReset hrun
  have sums := run_accumulates n noReset hrun
  exact ⟨sums.wrapped, sums.unwrapped⟩

end Sys2Proof.Machine

/-! One edge without reset, said once: the steps of the used states as a relation between the state at
the edge and the state after it. Each claim about an edge is then a case analysis of this relation. -/

namespace Sys2Proof.Machine

/-! The state codes as the decoder reads them (30_encoding.md R72). -/

@[simp] theorem decodeState_iterBegin : decodeState 0x0#4 = .iterBegin := rfl
@[simp] theorem decodeState_await : decodeState 0x1#4 = .await := rfl
@[simp] theorem decodeState_read : decodeState 0x2#4 = .read := rfl
@[simp] theorem decodeState_verr : decodeState 0x3#4 = .verr := rfl
@[simp] theorem decodeState_discard : decodeState 0x4#4 = .discard := rfl
@[simp] theorem decodeState_accept : decodeState 0x5#4 = .accept := rfl
@[simp] theorem decodeState_compute : decodeState 0x6#4 = .compute := rfl
@[simp] theorem decodeState_skip : decodeState 0x7#4 = .skip := rfl
@[simp] theorem decodeState_report : decodeState 0x8#4 = .report := rfl
@[simp] theorem decodeState_iterDone : decodeState 0x9#4 = .iterDone := rfl
@[simp] theorem decodeState_final : decodeState 0xA#4 = .final := rfl
@[simp] theorem decodeState_done : decodeState 0xB#4 = .done := rfl

/-- The block waits at this edge for the event's acceptance or for a beat, or it is in DONE
(20_memory.md R54, R55, 42_retry_fsm.md R151). -/
def Waits {c : Params} (p : Pins) (r : Regs c) : Prop :=
  (presented r ≠ none ∧ p.evReady = false) ∨ (wantsBeat r = true ∧ p.offered = none) ∨ r.state = stDone

/-- A step that calls Take gets the beat `b`, and `bs` is what it consumes: nothing for the sticky EOF,
or the beat offered (20_memory.md R54). -/
def TakesBeat {c : Params} (p : Pins) (r : Regs c) (b : Beat) (bs : List Beat) : Prop :=
  (r.eofSeen = true ∧ b = .eof ∧ bs = []) ∨ (r.eofSeen = false ∧ p.offered = some b ∧ bs = [b])

/-- What an edge without reset can do in a used state: the registers after it, the beats consumed and
the events delivered (42_retry_fsm.md R142 to R151, 43_token_reader.md R182, R190). -/
inductive EdgeTo {c : Params} (p : Pins) (r : Regs c) : Regs c → List Beat → List Event → Prop where
  | waits (h : Waits p r) : EdgeTo p r r [] []
  | attempt (h : r.state = stIterBegin) :
      EdgeTo p r { r with budget := BitVec.ofNat _ c.nAttempts, slot := .first, state := stAwait }
        [] [⟨.attempt, zext64 r.iter⟩]
  | exhausted (h : r.state = stAwait) (budget : r.budget = 0) :
      EdgeTo p r { r with state := stSkip } [] []
  | prompt (h : r.state = stAwait) (budget : r.budget ≠ 0) :
      EdgeTo p r { r with state := stRead } [] [⟨.prompt, 0⟩]
  | read {act : Beat → ReadAction} {b : Beat} {bs : List Beat} (h : r.state = stRead)
      (phase : phaseAction r = some act) (takes : TakesBeat p r b bs) :
      EdgeTo p r (readWith act b r) bs []
  | verr (h : r.state = stVerr) :
      EdgeTo p r { r with
        budget := decrement r.budget, state := if r.rdDisc then stDiscard else stAwait }
        [] [⟨.verrNotice, 0⟩]
  | discard {b : Beat} {bs : List Beat} (h : r.state = stDiscard) (takes : TakesBeat p r b bs) :
      EdgeTo p r (discardWith b r) bs []
  | acceptFirst (h : r.state = stAccept) (slot : r.slot = .first) :
      EdgeTo p r { r with budget := BitVec.ofNat _ c.nAttempts, slot := .second, state := stAwait } [] []
  | acceptSecond (h : r.state = stAccept) (slot : r.slot = .second) :
      EdgeTo p r { r with state := stCompute } [] []
  | compute (h : r.state = stCompute) (fits : addOvf r.opA r.opB = false) :
      EdgeTo p r (computeRegs r) [] []
  | overflow (h : r.state = stCompute) (ovf : addOvf r.opA r.opB = true) :
      EdgeTo p r { r with state := stReport } [] [⟨.overflow, 0⟩]
  | skip (h : r.state = stSkip) : EdgeTo p r { r with state := stReport } [] [⟨.skipNotice, 0⟩]
  | report (h : r.state = stReport) :
      EdgeTo p r { r with state := stIterDone } [] [⟨.runningSum, r.sum⟩]
  | iterDone (h : r.state = stIterDone) :
      EdgeTo p r { r with
        iter := decrement r.iter
        state := if decrement r.iter = 0 then stFinal else stIterBegin } [] []
  | final (h : r.state = stFinal) : EdgeTo p r { r with state := stDone } [] [⟨.finalSum, r.sum⟩]

/-- The state with these registers, and with these beats and events added to what was transferred. -/
def State.after (s : State) (r : Regs s.cfg) (bs : List Beat) (es : List Event) : State :=
  { s with regs := r, taken := s.taken ++ bs, delivered := s.delivered ++ es }

theorem State.after_silent (s : State) (r : Regs s.cfg) : s.withRegs r = s.after r [] [] := by
  simp [State.after, State.withRegs]

theorem State.after_event (s : State) (r : Regs s.cfg) (e : Event) :
    (s.withRegs r).logEvent e = s.after r [] [e] := by
  simp [State.after, State.withRegs, State.logEvent]

theorem State.after_beat (s : State) (r : Regs s.cfg) (b : Beat) :
    (s.withRegs r).logBeat b = s.after r [b] [] := by
  simp [State.after, State.withRegs, State.logBeat]

/-- The next state, if there is one, is one that the relation says. -/
abbrev IsEdge (s t : State) : Prop :=
  ∃ r bs es, EdgeTo s.pins s.regs r bs es ∧ t = s.after r bs es

theorem waits_isEdge {s : State} (h : Waits s.pins s.regs) : IsEdge s s :=
  ⟨s.regs, [], [], .waits h, s.after_silent s.regs⟩

theorem withRegs_isEdge {s : State} {r : Regs s.cfg} (h : EdgeTo s.pins s.regs r [] []) :
    IsEdge s (s.withRegs r) := ⟨r, [], [], h, s.after_silent r⟩

/-- The Emit of the event presented delivers it and writes, or waits. -/
theorem emit_isEdge {s : State} {e : Event} {r : Regs s.cfg} (h : presented s.regs = some e)
    (sent : EdgeTo s.pins s.regs r [] [e]) : Ensures (IsEdge s) (emit s e r) := by
  intro t ht
  obtain ⟨-, rfl⟩ | ⟨notReady, rfl⟩ := emit_eq_next.1 ht
  · exact ⟨r, [], [e], sent, s.after_event r e⟩
  · exact waits_isEdge (.inl ⟨by simp [h], notReady⟩)

/-- A Take in READ or DISCARD gets a beat and writes, or waits. -/
theorem take_isEdge {s : State} {f : Beat → Regs s.cfg → Regs s.cfg}
    (h : s.regs.state = stRead ∨ s.regs.state = stDiscard)
    (taken : ∀ b bs, TakesBeat s.pins s.regs b bs → EdgeTo s.pins s.regs (f b s.regs) bs []) :
    Ensures (IsEdge s) (take s f) := by
  intro t ht
  obtain ⟨eof, rfl⟩ | ⟨eof, none, rfl⟩ | ⟨eof, b, offered, rfl⟩ := take_eq_next.1 ht
  · exact withRegs_isEdge (taken .eof [] (.inl ⟨eof, rfl, rfl⟩))
  · exact waits_isEdge (.inr (.inl ⟨wantsBeat_eq_true.2 ⟨h, eof⟩, none⟩))
  · exact ⟨_, [b], [], taken b [b] (.inr ⟨eof, offered, rfl⟩), s.after_beat _ b⟩

theorem await_isEdge {s : State} (h : s.regs.state = stAwait) : Ensures (IsEdge s) (awaitStep s) :=
  ensures_ite (fun budget => ensures_next (withRegs_isEdge (.exhausted h budget)))
    fun budget => emit_isEdge (presented_of_await h budget) (.prompt h budget)

theorem accept_isEdge {s : State} (h : s.regs.state = stAccept) :
    Ensures (IsEdge s) (execAccept s) := by
  cases slot : s.regs.slot with
  | first => exact execAccept_first slot ▸ ensures_next (withRegs_isEdge (.acceptFirst h slot))
  | second => exact execAccept_second slot ▸ ensures_next (withRegs_isEdge (.acceptSecond h slot))

theorem compute_isEdge {s : State} (h : s.regs.state = stCompute) :
    Ensures (IsEdge s) (computeStep s) := by
  refine ensures_ite (fun ovf => ?overflow) fun fits => ?fits
  case overflow =>
    rw [computeRegs_of_addOvf ovf]
    exact emit_isEdge (presented_of_compute_overflow h ovf) (.overflow h ovf)
  case fits =>
    exact ensures_next (withRegs_isEdge (.compute h (Bool.eq_false_of_not_eq_true fits)))

/-- Every step selected is one of the relation; a reserved state code has none. -/
theorem exec_fetch_isEdge (s : State) : Ensures (IsEdge s) (exec (fetch s) s) := by
  by_cases used : s.regs.state.toNat ≤ 0xB
  · exact fetch_cases (P := fun i => Ensures (IsEdge s) (exec i s)) used
      (iterBegin := fun h => emit_isEdge (presented_of_iterBegin h) (.attempt h))
      (await := await_isEdge)
      (read := fun h => execRead_ensures fun _ phase =>
        take_isEdge (.inl h) fun _ _ takes => .read h phase takes)
      (verr := fun h => emit_isEdge (presented_of_verr h) (.verr h))
      (discard := fun h => take_isEdge (.inr h) fun _ _ takes => .discard h takes)
      (accept := accept_isEdge)
      (compute := compute_isEdge)
      (skip := fun h => emit_isEdge (presented_of_skip h) (.skip h))
      (report := fun h => emit_isEdge (presented_of_report h) (.report h))
      (iterDone := fun h => ensures_next (withRegs_isEdge (.iterDone h)))
      (final := fun h => emit_isEdge (presented_of_final h) (.final h))
      (done := fun h => ensures_next (waits_isEdge (.inr (.inr h))))
  · obtain ⟨low, hlow⟩ := decodeState_of_reserved used
    rw [fetch, hlow]
    exact ensures_fault _

theorem edgeTo_of_step {s t : State} (hr : s.pins.rst = false) (hstep : step s = .next t) :
    ∃ r bs es, EdgeTo s.pins s.regs r bs es ∧ t = (s.after r bs es).advance := by
  obtain ⟨-, ⟨hr', -⟩ | ⟨-, u, hu, rfl⟩⟩ := step_eq_next.1 hstep
  · simp [hr] at hr'
  · obtain ⟨r, bs, es, edge, rfl⟩ := exec_fetch_isEdge s u hu
    exact ⟨r, bs, es, edge, rfl⟩

/-! What READ and DISCARD do to the registers that count attempts and iterations. -/

/-- A READ step stays in READ or gives its verdict: VERR, or DISCARD and ACCEPT with rd_ok = 1
(43_token_reader.md R188). -/
theorem readWith_state {c : Params} {r : Regs c} (h : r.state = stRead) (act : Beat → ReadAction)
    (b : Beat) :
    (readWith act b r).state = stRead ∨ (readWith act b r).state = stVerr ∨
      ((readWith act b r).state = stDiscard ∧ (readWith act b r).rdOk = true) ∨
      (readWith act b r).state = stAccept := by
  have noted : (noteEof b r).state = stRead := by rw [noteEof_frame]; exact h
  unfold readWith
  cases act b with
  | stay | sign _ | firstDigit _ | nextDigit _ => exact .inl noted
  | succeed disc v =>
    cases disc with
    | false => exact .inr (.inr (.inr rfl))
    | true => exact .inr (.inr (.inl ⟨rfl, rfl⟩))
  | fail cause disc => exact .inr (.inl rfl)

/-- DISCARD stays, or goes where the verdict says (43_token_reader.md R190); nothing else that counts
attempts is written. -/
theorem discardWith_cases {c : Params} (b : Beat) (r : Regs c) :
    discardWith b r = r ∨
      ∃ eof, discardWith b r = { r with
        eofSeen := eof, state := if r.rdOk then stAccept else stAwait } := by
  unfold discardWith
  split
  · rw [noteEof_frame]
    exact .inr ⟨_, rfl⟩
  · exact .inl rfl

/-! Runs without reset. -/

/-- What every edge without reset keeps, a run of them keeps. -/
theorem run_preserves {P : State → Prop}
    (edge : ∀ s t, P s → s.pins.rst = false → step s = .next t → P t) (n : Nat) {s t : State}
    (hs : P s) (noReset : NoResetFor n s) (hrun : Host.Core.run Sys2Proof.core n s = .next t) : P t := by
  induction n generalizing s with
  | zero =>
    obtain rfl := run_zero_eq_next.1 hrun
    exact hs
  | succ n ih =>
    obtain ⟨u, hstep, hrest⟩ := run_succ_eq_next.1 hrun
    exact ih (edge s u hs noReset.head hstep) (noReset.of_step hstep) hrest

end Sys2Proof.Machine

/-! The session grammar (42_retry_fsm.md R153): the events delivered at every edge of a session are the
part of it that the registers say, so those of a complete session are a session. -/

namespace Sys2Proof.Machine

/-! Failed reads, one after another. -/

theorem failedReads_succ (j : Nat) :
    failedReads (j + 1) = failedReads j ++ [⟨.prompt, 0⟩, ⟨.verrNotice, 0⟩] := by
  simp [failedReads, List.replicate_succ']

/-- A failed read charges the budget and adds its two events. -/
theorem failedReads_charged {total budget left : Nat} (hleft : left + 1 = budget)
    (hle : budget ≤ total) :
    failedReads (total - left) = failedReads (total - budget) ++ [⟨.prompt, 0⟩, ⟨.verrNotice, 0⟩] := by
  rw [← failedReads_succ]
  congr 1
  omega

/-! The events of one slot and of one body. -/

section
variable {attempts : Nat} {slot : Slot} {here l : List Event}

theorem IsSlotPrefix.append (h : IsSlotPrefix attempts slot here l) (more : List Event) :
    IsSlotPrefix attempts slot (here ++ more) (l ++ more) := by
  cases slot with
  | first => exact congrArg (· ++ more) h
  | second =>
    obtain ⟨j, hj, rfl⟩ := h
    exact ⟨j, hj, List.append_assoc ..⟩

/-- The second slot's successful read completes the body of an iteration that adds a pair. -/
theorem isBody_of_reads {before : Word} {k : Nat} (hk : k < attempts)
    (h : IsSlotPrefix attempts .second (okReads k) l) (after : Word) :
    IsBody attempts before after l ∧ IsBody attempts before before (l ++ [⟨.overflow, 0⟩]) := by
  obtain ⟨j, hj, rfl⟩ := h
  exact ⟨.inl ⟨j, k, hj, hk, .inl rfl⟩, .inl ⟨j, k, hj, hk, .inr ⟨rfl, rfl⟩⟩⟩

/-- A slot whose reads have all failed ends the body with the skip. -/
theorem isBody_of_failures {before : Word} (h : IsSlotPrefix attempts slot (failedReads attempts) l) :
    IsBody attempts before before (l ++ [⟨.skipNotice, 0⟩]) := by
  cases slot with
  | first =>
    obtain rfl : l = failedReads attempts := h
    exact .inr ⟨rfl, .inl rfl⟩
  | second =>
    obtain ⟨j, hj, rfl⟩ := h
    exact .inr ⟨rfl, .inr ⟨j, hj, rfl⟩⟩

end

/-! The states between ATTEMPT and the end of the body. -/

/-- An iteration is in progress: what stands before it is complete, and its own events are those of the
state it is in. -/
def InIteration {c : Params} (r : Regs c) (l : List Event) : Prop :=
  ∃ earlier body, IsIterations c (c.nIter - r.iter.toNat) r.sum earlier ∧ IsBodyPrefix r body ∧
    l = earlier ++ attemptEvent c (c.nIter - r.iter.toNat) :: body

theorem sessionSoFar_iff_inIteration {s : State}
    (h : s.regs.state ∈ [stAwait, stRead, stVerr, stDiscard, stAccept, stCompute, stSkip]) :
    SessionSoFar s ↔ InIteration s.regs s.delivered := by
  simp only [List.mem_cons, List.not_mem_nil, or_false] at h
  unfold SessionSoFar
  obtain h | h | h | h | h | h | h := h <;> simp only [h] <;> rfl

/-- The iteration goes on: a step that leaves `iter` and `sum` alone sends `more`. -/
theorem InIteration.move {c : Params} {r r' : Regs c} {l : List Event} (h : InIteration r l)
    (more : List Event) (iter : r'.iter = r.iter) (sum : r'.sum = r.sum)
    (body : ∀ body, IsBodyPrefix r body → IsBodyPrefix r' (body ++ more)) :
    InIteration r' (l ++ more) := by
  obtain ⟨earlier, sent, hearlier, hsent, rfl⟩ := h
  refine ⟨earlier, sent ++ more, ?_, body sent hsent, ?_⟩ <;> rw [iter]
  · rwa [sum]
  · simp

theorem InIteration.stay {c : Params} {r r' : Regs c} {l : List Event} (h : InIteration r l)
    (iter : r'.iter = r.iter) (sum : r'.sum = r.sum)
    (body : ∀ body, IsBodyPrefix r body → IsBodyPrefix r' body) : InIteration r' l := by
  simpa using h.move [] iter sum (by simpa using body)

/-- Between two iterations, and after the last. -/
theorem sessionSoFar_iff_isIterations {s : State}
    (h : s.regs.state = stIterBegin ∨ s.regs.state = stFinal) :
    SessionSoFar s ↔
      IsIterations s.cfg (s.cfg.nIter - s.regs.iter.toNat) s.regs.sum s.delivered := by
  unfold SessionSoFar
  obtain h | h := h <;> simp only [h] <;> rfl

theorem isSession_of_done {s : State} (h : SessionSoFar s) (hdone : s.regs.state = stDone) :
    IsSession s.cfg s.delivered := by
  simpa only [SessionSoFar, hdone, decodeState_done] using h

theorem SessionSoFar.of_inIteration {s : State} {r : Regs s.cfg} {bs : List Beat} {es : List Event}
    (state : r.state ∈ [stAwait, stRead, stVerr, stDiscard, stAccept, stCompute, stSkip])
    (h : InIteration r (s.delivered ++ es)) : SessionSoFar (s.after r bs es) :=
  (sessionSoFar_iff_inIteration (s := s.after r bs es) state).2 h

theorem SessionSoFar.of_silent {s : State} {r : Regs s.cfg} {bs : List Beat}
    (state : r.state ∈ [stAwait, stRead, stVerr, stDiscard, stAccept, stCompute, stSkip])
    (h : InIteration r s.delivered) : SessionSoFar (s.after r bs []) :=
  .of_inIteration state ((List.append_nil s.delivered).symm ▸ h)

/-- The body is complete (42_retry_fsm.md R148): the running sum is still to be reported. -/
theorem InIteration.close {s : State} {r : Regs s.cfg} {es : List Event}
    (h : InIteration s.regs s.delivered) (state : r.state = stReport) (iter : r.iter = s.regs.iter)
    (body : ∀ body, IsBodyPrefix s.regs body →
      IsBody s.cfg.nAttempts s.regs.sum r.sum (body ++ es)) : SessionSoFar (s.after r [] es) := by
  obtain ⟨earlier, sent, hearlier, hsent, hl⟩ := h
  rw [SessionSoFar, State.after, state, decodeState_report]
  refine ⟨s.regs.sum, earlier, sent ++ es, ?_, body sent hsent, ?_⟩ <;> simp only [iter]
  · exact hearlier
  · simp [hl]

/-! The body's events in each state. -/

section
variable {c : Params} {r r' : Regs c} {l : List Event}

/-- What the current slot has sent while its reads have failed. -/
abbrev SlotFailed (r : Regs c) : List Event → Prop :=
  IsSlotPrefix c.nAttempts r.slot (failedReads (c.nAttempts - r.budget.toNat))

/-- What the current slot has sent when a read has been prompted. -/
abbrev SlotPrompted (r : Regs c) : List Event → Prop :=
  IsSlotPrefix c.nAttempts r.slot (okReads (c.nAttempts - r.budget.toNat))

theorem isBodyPrefix_of_await (h : r.state = stAwait) : IsBodyPrefix r l ↔ SlotFailed r l := by
  simp only [IsBodyPrefix, h, decodeState_await]

theorem isBodyPrefix_of_prompted
    (h : r.state = stRead ∨ r.state = stVerr ∨ (r.state = stDiscard ∧ r.rdOk = true) ∨
      r.state = stAccept) :
    IsBodyPrefix r l ↔ r.budget ≠ 0 ∧ SlotPrompted r l := by
  obtain h | h | ⟨h, ok⟩ | h := h
  · simp only [IsBodyPrefix, h, decodeState_read]; rfl
  · simp only [IsBodyPrefix, h, decodeState_verr]; rfl
  · simp only [IsBodyPrefix, h, decodeState_discard, ok]; rfl
  · simp only [IsBodyPrefix, h, decodeState_accept]; rfl

theorem isBodyPrefix_of_discard_failed (h : r.state = stDiscard) (failed : r.rdOk = false) :
    IsBodyPrefix r l ↔ SlotFailed r l := by
  simp [IsBodyPrefix, h, failed]

theorem isBodyPrefix_of_compute (h : r.state = stCompute) :
    IsBodyPrefix r l ↔ r.budget ≠ 0 ∧
      IsSlotPrefix c.nAttempts .second (okReads (c.nAttempts - r.budget.toNat)) l := by
  simp only [IsBodyPrefix, h, decodeState_compute]; rfl

theorem isBodyPrefix_of_skip (h : r.state = stSkip) :
    IsBodyPrefix r l ↔ r.budget = 0 ∧ SlotFailed r l := by
  simp only [IsBodyPrefix, h, decodeState_skip]

end

theorem toNat_pos_of_ne_zero {w : Nat} {v : BitVec w} (h : v ≠ 0) : 0 < v.toNat :=
  Nat.pos_of_ne_zero fun h0 => h (BitVec.eq_of_toNat_eq (by simpa using h0))

theorem attempts_used_lt {total w : Nat} {budget : BitVec w} (nonzero : budget ≠ 0)
    (bound : budget.toNat ≤ total) : total - budget.toNat < total := by
  have pos := toNat_pos_of_ne_zero nonzero
  omega

/-- The notice of a failed read: the attempt is charged, and the slot has failed once more. -/
theorem slotFailed_of_notice {c : Params} {r r' : Regs c} {l : List Event} (slot : r'.slot = r.slot)
    (nonzero : r.budget ≠ 0) (bound : r.budget.toNat ≤ c.nAttempts)
    (budget : r'.budget = decrement r.budget) (h : SlotPrompted r l) :
    SlotFailed r' (l ++ [⟨.verrNotice, 0⟩]) := by
  have pos := toNat_pos_of_ne_zero nonzero
  rw [SlotFailed, slot, budget, decrement_toNat nonzero, failedReads_charged (by omega) bound,
    List.append_cons]
  exact h.append [⟨.verrNotice, 0⟩]

/-! The edge. -/

theorem attempt_starts_iteration {s : State} (hs : Inv s) (h : SessionSoFar s)
    (hstate : s.regs.state = stIterBegin) :
    InIteration { s.regs with
        budget := BitVec.ofNat _ s.cfg.nAttempts, slot := .first, state := stAwait }
      (s.delivered ++ [⟨.attempt, zext64 s.regs.iter⟩]) := by
  rw [sessionSoFar_iff_isIterations (.inl hstate)] at h
  obtain ⟨-, hle⟩ := hs.iterRunning (by simp [hstate]) (by simp [hstate])
  refine ⟨s.delivered, [], h, ?none, ?attempt⟩
  case none =>
    rw [isBodyPrefix_of_await rfl, SlotFailed, budget_full_toNat, Nat.sub_self]
    rfl
  case attempt =>
    rw [attemptEvent, Nat.sub_sub_self hle, BitVec.ofNat_toNat, BitVec.setWidth_eq]

/-- The report completes the iteration (42_retry_fsm.md R148). -/
theorem report_completes_iteration {s : State} (h : SessionSoFar s)
    (hstate : s.regs.state = stReport) :
    IsIterations s.cfg (s.cfg.nIter - s.regs.iter.toNat + 1) s.regs.sum
      (s.delivered ++ [⟨.runningSum, s.regs.sum⟩]) := by
  simp only [SessionSoFar, hstate, decodeState_report] at h
  obtain ⟨before, earlier, body, hearlier, hbody, hl⟩ := h
  exact ⟨before, earlier, body, hearlier, hbody, by rw [hl]⟩

/-- Counting down is counting one iteration more (42_retry_fsm.md R149). -/
theorem iterDone_counts_iteration {s : State} (hs : Inv s) (h : SessionSoFar s)
    (hstate : s.regs.state = stIterDone) :
    IsIterations s.cfg (s.cfg.nIter - (decrement s.regs.iter).toNat) s.regs.sum s.delivered := by
  simp only [SessionSoFar, hstate, decodeState_iterDone] at h
  obtain ⟨hpos, hle⟩ := hs.iterRunning (by simp [hstate]) (by simp [hstate])
  have nonzero : s.regs.iter ≠ 0 := fun h0 => by simp [h0] at hpos
  have count : s.cfg.nIter - (decrement s.regs.iter).toNat = s.cfg.nIter - s.regs.iter.toNat + 1 := by
    rw [decrement_toNat nonzero]
    omega
  rwa [count]

theorem final_completes_session {s : State} (hs : Inv s) (h : SessionSoFar s)
    (hstate : s.regs.state = stFinal) :
    IsSession s.cfg (s.delivered ++ [⟨.finalSum, s.regs.sum⟩]) := by
  have ended : s.regs.iter.toNat = 0 := congrArg BitVec.toNat (hs.iterEnded (.inl hstate))
  rw [sessionSoFar_iff_isIterations (.inr hstate), ended, Nat.sub_zero] at h
  exact ⟨s.regs.sum, s.delivered, h, rfl⟩

section
variable {c : Params} {r : Regs c} {l : List Event}

theorem prompt_keeps_inIteration (h : InIteration r l) (hstate : r.state = stAwait)
    (budget : r.budget ≠ 0) :
    InIteration { r with state := stRead } (l ++ [⟨.prompt, 0⟩]) := by
  refine h.move _ rfl rfl fun body hbody => ?_
  rw [isBodyPrefix_of_await hstate] at hbody
  exact (isBodyPrefix_of_prompted (.inl rfl)).2 ⟨budget, hbody.append _⟩

theorem exhausted_keeps_inIteration (h : InIteration r l) (hstate : r.state = stAwait)
    (budget : r.budget = 0) : InIteration { r with state := stSkip } l := by
  refine h.stay rfl rfl fun body hbody => ?_
  rw [isBodyPrefix_of_await hstate] at hbody
  exact (isBodyPrefix_of_skip rfl).2 ⟨budget, hbody⟩

/-- A read's verdict leaves the slot, the budget and the running sum as they are, and the prompt has
been sent (43_token_reader.md R188). -/
theorem read_keeps_inIteration (h : InIteration r l) (hstate : r.state = stRead)
    (act : Beat → ReadAction) (b : Beat) : InIteration (readWith act b r) l := by
  obtain ⟨iter, budget, slot, sum, -⟩ := readWith_frame act b r
  refine h.stay iter sum fun body hbody => ?_
  rw [isBodyPrefix_of_prompted (.inl hstate)] at hbody
  rwa [isBodyPrefix_of_prompted (readWith_state hstate act b), SlotPrompted, budget, slot]

/-- The rest of the line is still to be dropped, or the slot awaits its next attempt
(42_retry_fsm.md R144). -/
theorem verr_keeps_inIteration (h : InIteration r l) (hstate : r.state = stVerr)
    (failed : r.rdOk = false) (bound : r.budget.toNat ≤ c.nAttempts) :
    InIteration { r with
        budget := decrement r.budget, state := if r.rdDisc then stDiscard else stAwait }
      (l ++ [⟨.verrNotice, 0⟩]) := by
  refine h.move _ rfl rfl fun body hbody => ?_
  rw [isBodyPrefix_of_prompted (.inr (.inl hstate))] at hbody
  obtain ⟨nonzero, prompted⟩ := hbody
  have charged (w : BitVec 4) : SlotFailed { r with budget := decrement r.budget, state := w }
      (body ++ [⟨.verrNotice, 0⟩]) :=
    slotFailed_of_notice (r := r) rfl nonzero bound rfl prompted
  cases r.rdDisc with
  | true => exact (isBodyPrefix_of_discard_failed rfl (by exact failed)).2 (charged stDiscard)
  | false => exact (isBodyPrefix_of_await rfl).2 (charged stAwait)

/-- The rest of the line is dropped, and the verdict decides what follows (43_token_reader.md R190). -/
theorem discard_keeps_inIteration (h : InIteration r l) (hstate : r.state = stDiscard) (b : Beat) :
    InIteration (discardWith b r) l := by
  obtain hw | ⟨eof, hw⟩ := discardWith_cases b r <;> rw [hw]
  · exact h
  · refine h.stay rfl rfl fun body hbody => ?_
    cases ok : r.rdOk with
    | true =>
      rw [isBodyPrefix_of_prompted (.inr (.inr (.inl ⟨hstate, ok⟩)))] at hbody
      exact (isBodyPrefix_of_prompted (.inr (.inr (.inr rfl)))).2 hbody
    | false =>
      rw [isBodyPrefix_of_discard_failed hstate ok] at hbody
      exact (isBodyPrefix_of_await rfl).2 hbody

/-- The first slot's success is what the second slot starts from (42_retry_fsm.md R145). -/
theorem acceptFirst_keeps_inIteration (h : InIteration r l) (hstate : r.state = stAccept)
    (slot : r.slot = .first) (bound : r.budget.toNat ≤ c.nAttempts) :
    InIteration { r with
      budget := BitVec.ofNat _ c.nAttempts, slot := .second, state := stAwait } l := by
  refine h.stay rfl rfl fun body hbody => ?_
  rw [isBodyPrefix_of_prompted (.inr (.inr (.inr hstate))), SlotPrompted, slot] at hbody
  obtain ⟨nonzero, prompted⟩ := hbody
  rw [isBodyPrefix_of_await rfl, SlotFailed, budget_full_toNat, Nat.sub_self]
  exact ⟨_, attempts_used_lt nonzero bound, prompted.trans (List.append_nil _).symm⟩

theorem acceptSecond_keeps_inIteration (h : InIteration r l) (hstate : r.state = stAccept)
    (slot : r.slot = .second) : InIteration { r with state := stCompute } l := by
  refine h.stay rfl rfl fun body hbody => ?_
  rw [isBodyPrefix_of_prompted (.inr (.inr (.inr hstate))), SlotPrompted, slot] at hbody
  exact (isBodyPrefix_of_compute rfl).2 hbody

/-- In COMPUTE both slots have an operand, so the body ends here, with OVERFLOW or without
(42_retry_fsm.md R146). -/
theorem isBody_of_compute {body : List Event} (hbody : IsBodyPrefix r body)
    (hstate : r.state = stCompute) (bound : r.budget.toNat ≤ c.nAttempts) (before after : Word) :
    IsBody c.nAttempts before after body ∧
      IsBody c.nAttempts before before (body ++ [⟨.overflow, 0⟩]) := by
  rw [isBodyPrefix_of_compute hstate] at hbody
  obtain ⟨nonzero, read⟩ := hbody
  exact isBody_of_reads (attempts_used_lt nonzero bound) read after

theorem isBody_of_skip {body : List Event} (hbody : IsBodyPrefix r body) (hstate : r.state = stSkip)
    (before : Word) : IsBody c.nAttempts before before (body ++ [⟨.skipNotice, 0⟩]) := by
  rw [isBodyPrefix_of_skip hstate] at hbody
  obtain ⟨exhausted, failed⟩ := hbody
  rw [SlotFailed, exhausted] at failed
  exact isBody_of_failures failed

end

/-- Every step takes the events on to the part of a session that the registers then say. -/
theorem edge_keeps_sessionSoFar {s : State} {r : Regs s.cfg} {bs : List Beat} {es : List Event}
    (hs : Inv s) (h : SessionSoFar s) (edge : EdgeTo s.pins s.regs r bs es) :
    SessionSoFar (s.after r bs es) := by
  have inIteration := fun hstate => (sessionSoFar_iff_inIteration (s := s) hstate).1 h
  cases edge with
  | waits =>
    rw [← State.after_silent]
    exact h
  | attempt hstate => exact .of_inIteration (by simp) (attempt_starts_iteration hs h hstate)
  | exhausted hstate budget =>
    exact .of_silent (by simp)
      (exhausted_keeps_inIteration (inIteration (by simp [hstate])) hstate budget)
  | prompt hstate budget =>
    exact .of_inIteration (by simp)
      (prompt_keeps_inIteration (inIteration (by simp [hstate])) hstate budget)
  | @read act b _ hstate =>
    refine .of_silent ?afterRead
      (read_keeps_inIteration (inIteration (by simp [hstate])) hstate act b)
    case afterRead =>
      obtain state | state | ⟨state, -⟩ | state := readWith_state hstate act b <;> simp [state]
  | verr hstate =>
    refine .of_inIteration ?afterVerr (verr_keeps_inIteration
      (inIteration (by simp [hstate])) hstate (hs.verrFailed hstate) hs.budgetBound)
    case afterVerr => cases disc : s.regs.rdDisc <;> simp
  | @discard b _ hstate =>
    refine .of_silent ?afterDiscard
      (discard_keeps_inIteration (inIteration (by simp [hstate])) hstate b)
    case afterDiscard =>
      obtain hw | ⟨eof, hw⟩ := discardWith_cases b s.regs
      · simp [hw, hstate]
      · cases ok : s.regs.rdOk <;> simp [hw, ok]
  | acceptFirst hstate slot =>
    exact .of_silent (by simp) (acceptFirst_keeps_inIteration
      (inIteration (by simp [hstate])) hstate slot hs.budgetBound)
  | acceptSecond hstate slot =>
    exact .of_silent (by simp)
      (acceptSecond_keeps_inIteration (inIteration (by simp [hstate])) hstate slot)
  | compute hstate =>
    refine (inIteration (by simp [hstate])).close rfl rfl fun body hbody => ?_
    rw [List.append_nil]
    exact (isBody_of_compute hbody hstate hs.budgetBound _ _).1
  | overflow hstate =>
    exact (inIteration (by simp [hstate])).close rfl rfl
      fun body hbody => (isBody_of_compute hbody hstate hs.budgetBound _ 0).2
  | skip hstate =>
    exact (inIteration (by simp [hstate])).close rfl rfl
      fun body hbody => isBody_of_skip hbody hstate _
  | report hstate => exact report_completes_iteration h hstate
  | iterDone hstate =>
    refine (sessionSoFar_iff_isIterations ?afterCount).2 ?counted
    case afterCount => exact (Decidable.em (decrement s.regs.iter = 0)).symm.imp (if_neg ·) (if_pos ·)
    case counted =>
      rw [← State.after_silent]
      exact iterDone_counts_iteration hs h hstate
  | final hstate => exact final_completes_session hs h hstate

theorem SessionSoFar.advance {s : State} (h : SessionSoFar s) : SessionSoFar s.advance := h

/-- Settles O53: the steps as a relation, and the environment's next edge changes neither the registers
nor the log. -/
theorem everyEdgeKeepsTheSessionSoFar : Obligations.EveryEdgeKeepsTheSessionSoFar := by
  intro s t hs h hr hstep
  obtain ⟨r, bs, es, edge, rfl⟩ := edgeTo_of_step hr hstep
  exact (edge_keeps_sessionSoFar hs h edge).advance

/-- Settles O54: no iteration is complete, and the first one has not begun. -/
theorem resetStartsTheSession : Obligations.ResetStartsTheSession := by
  rintro s ⟨-, hregs, hdelivered⟩
  rw [sessionSoFar_iff_isIterations (.inl (by simp [hregs])), hdelivered, hregs, Regs.reset_iter,
    iter_full_toNat, Nat.sub_self]
  exact ⟨rfl, rfl⟩

/-- Settles O46: the session so far is kept over the run, and in DONE it is a whole session. -/
theorem sessionEventsFollowTheGrammar : Obligations.SessionEventsFollowTheGrammar := by
  intro n s t start noReset hrun hdone
  have kept : Inv t ∧ SessionSoFar t := run_preserves (P := fun s => Inv s ∧ SessionSoFar s)
    (fun s t hs hr hstep => ⟨everyEdgeKeepsTheInvariant s t hs.1 hstep,
      everyEdgeKeepsTheSessionSoFar s t hs.1 hs.2 hr hstep⟩)
    n ⟨resetMeetsTheInvariant s start.1 start.2.1, resetStartsTheSession s start⟩ noReset hrun
  exact isSession_of_done kept.2 hdone

end Sys2Proof.Machine

/-! After end-of-input (42_retry_fsm.md R155): every read fails at once and no beat is needed, so the
edges left to DONE are a function of the registers, and every accepted edge takes one off it. -/

namespace Sys2Proof.Machine

/-! Reads after EOF. -/

theorem TakesBeat.of_eofSeen {c : Params} {p : Pins} {r : Regs c} {b : Beat} {bs : List Beat}
    (takes : TakesBeat p r b bs) (eof : r.eofSeen = true) : b = .eof := by
  obtain ⟨-, hb, -⟩ | ⟨eof', -⟩ := takes
  · exact hb
  · simp [eof] at eof'

/-- After EOF a read fails where it begins (43_token_reader.md R189, 20_memory.md R54). -/
theorem readWith_after_eof {s : State} (hs : Inv s) (eof : s.regs.eofSeen = true)
    {act : Beat → ReadAction} (phase : phaseAction s.regs = some act) :
    (readWith act .eof s.regs).state = stVerr := by
  have lead := hs.eofLead eof
  obtain ⟨-, rfl⟩ | ⟨sign, -⟩ | ⟨digits, -⟩ := phaseAction_eq_some phase
  · rfl
  · simp [lead] at sign
  · simp [lead] at digits

/-- After EOF, with the event presented accepted, only DONE waits. -/
theorem not_waits_after_eof {c : Params} {p : Pins} {r : Regs c} (eof : r.eofSeen = true)
    (notDone : r.state ≠ stDone) (accepts : presented r ≠ none → p.evReady = true) : ¬Waits p r := by
  rintro (⟨present, notReady⟩ | ⟨wants, -⟩ | done)
  · simp [accepts present] at notReady
  · simp [(wantsBeat_eq_true.1 wants).2] at eof
  · exact notDone done

/-! The count, by the states and by the iterations still to come. -/

/-- The edges of the iterations after the current one, and of FINAL. -/
def laterEdges {c : Params} (iter : BitVec c.wIter) : Nat :=
  (iter.toNat - 1) * (3 * c.nAttempts + 5) + 1

section
variable {c : Params} {r : Regs c}

theorem edgesLeft_of_iterBegin (h : r.state = stIterBegin) :
    edgesLeft r = 3 * c.nAttempts + 5 + laterEdges r.iter := by
  simp only [edgesLeft, h, decodeState_iterBegin, laterEdges]

theorem edgesLeft_of_await (h : r.state = stAwait) :
    edgesLeft r = 3 * r.budget.toNat + 4 + laterEdges r.iter := by
  simp only [edgesLeft, h, decodeState_await, laterEdges]

theorem edgesLeft_of_read (h : r.state = stRead) :
    edgesLeft r = 3 * r.budget.toNat + 3 + laterEdges r.iter := by
  simp only [edgesLeft, h, decodeState_read, laterEdges]

theorem edgesLeft_of_verr (h : r.state = stVerr) :
    edgesLeft r = 3 * r.budget.toNat + 2 + laterEdges r.iter := by
  simp only [edgesLeft, h, decodeState_verr, laterEdges]

theorem edgesLeft_of_accept (h : r.state = stAccept) :
    edgesLeft r = (if r.slot = .first then 3 * c.nAttempts + 5 else 4) + laterEdges r.iter := by
  simp only [edgesLeft, h, decodeState_accept, laterEdges]

theorem edgesLeft_of_compute (h : r.state = stCompute) : edgesLeft r = 3 + laterEdges r.iter := by
  simp only [edgesLeft, h, decodeState_compute, laterEdges]

theorem edgesLeft_of_skip (h : r.state = stSkip) : edgesLeft r = 3 + laterEdges r.iter := by
  simp only [edgesLeft, h, decodeState_skip, laterEdges]

theorem edgesLeft_of_report (h : r.state = stReport) : edgesLeft r = 2 + laterEdges r.iter := by
  simp only [edgesLeft, h, decodeState_report, laterEdges]

theorem edgesLeft_of_iterDone (h : r.state = stIterDone) : edgesLeft r = 1 + laterEdges r.iter := by
  simp only [edgesLeft, h, decodeState_iterDone, laterEdges]

theorem edgesLeft_of_final (h : r.state = stFinal) : edgesLeft r = 1 := by
  simp only [edgesLeft, h, decodeState_final]

theorem edgesLeft_of_done (h : r.state = stDone) : edgesLeft r = 0 := by
  simp only [edgesLeft, h, decodeState_done]

end

theorem iter_ne_zero {s : State} (hs : Inv s) (hstate : s.regs.state = stIterDone) :
    s.regs.iter ≠ 0 := by
  obtain ⟨hpos, -⟩ := hs.iterRunning (by simp [hstate]) (by simp [hstate])
  intro h
  simp [h] at hpos

/-- Counting down starts the next iteration, or with iter = 1 leaves only FINAL. -/
theorem edgesLeft_of_counted {c : Params} {r : Regs c} (nonzero : r.iter ≠ 0) :
    edgesLeft { r with
      iter := decrement r.iter
      state := if decrement r.iter = 0 then stFinal else stIterBegin } = laterEdges r.iter := by
  have counted := decrement_toNat nonzero
  by_cases last : decrement r.iter = 0
  · have ended : r.iter.toNat - 1 = 0 := counted.symm.trans (congrArg BitVec.toNat last)
    rw [edgesLeft_of_final (if_pos last), laterEdges, ended, Nat.zero_mul]
  · obtain ⟨n, hn⟩ := Nat.exists_eq_succ_of_ne_zero (toNat_pos_of_ne_zero last).ne'
    rw [edgesLeft_of_iterBegin (if_neg last), laterEdges, laterEdges, ← counted, hn]
    simp only [Nat.succ_eq_add_one, Nat.add_sub_cancel, Nat.add_mul]
    omega

/-! The edge. -/

theorem edge_after_eof_counts_down {s : State} {r : Regs s.cfg} {bs : List Beat} {es : List Event}
    (hs : Inv s) (eof : s.regs.eofSeen = true) (notDone : s.regs.state ≠ stDone)
    (accepts : presented s.regs ≠ none → s.pins.evReady = true)
    (edge : EdgeTo s.pins s.regs r bs es) : edgesLeft r + 1 = edgesLeft s.regs := by
  cases edge with
  | waits h => exact absurd h (not_waits_after_eof eof notDone accepts)
  | attempt h =>
    simp only [edgesLeft_of_await, edgesLeft_of_iterBegin h, budget_full_toNat]
    omega
  | exhausted h budget =>
    have none : s.regs.budget.toNat = 0 := congrArg BitVec.toNat budget
    simp only [edgesLeft_of_skip, edgesLeft_of_await h, none]
    omega
  | prompt h =>
    simp only [edgesLeft_of_read, edgesLeft_of_await h]
    omega
  | @read act _ _ h phase takes =>
    obtain rfl := takes.of_eofSeen eof
    obtain ⟨iter, budget, -⟩ := readWith_frame act .eof s.regs
    rw [edgesLeft_of_verr (readWith_after_eof hs eof phase), edgesLeft_of_read h, budget, iter]
    omega
  | verr h =>
    have nonzero := hs.verrBudget h
    have pos := toNat_pos_of_ne_zero nonzero
    have lineRead : ¬s.regs.rdDisc = true := fun disc => by simp [hs.verrPending h disc] at eof
    rw [edgesLeft_of_await (if_neg lineRead), edgesLeft_of_verr h]
    simp only [decrement_toNat nonzero]
    omega
  | discard h => simp [(hs.discardPending h).2] at eof
  | acceptFirst h slot =>
    simp only [edgesLeft_of_await, edgesLeft_of_accept h, budget_full_toNat, slot, if_true]
    omega
  | acceptSecond h slot =>
    have notFirst : s.regs.slot ≠ .first := by simp [slot]
    simp only [edgesLeft_of_compute, edgesLeft_of_accept h, notFirst, if_false]
    omega
  | compute h =>
    rw [edgesLeft_of_report rfl, edgesLeft_of_compute h]
    simp only [computeRegs]
    omega
  | overflow h =>
    simp only [edgesLeft_of_report, edgesLeft_of_compute h]
    omega
  | skip h =>
    simp only [edgesLeft_of_report, edgesLeft_of_skip h]
    omega
  | report h =>
    simp only [edgesLeft_of_iterDone, edgesLeft_of_report h]
    omega
  | iterDone h => rw [edgesLeft_of_counted (iter_ne_zero hs h), edgesLeft_of_iterDone h, Nat.add_comm]
  | final h => rw [edgesLeft_of_done rfl, edgesLeft_of_final h]

/-- After EOF an edge makes no input transfer (20_memory.md R53). -/
theorem taken_after_eof {s t : State} (eof : s.regs.eofSeen = true) (hstep : step s = .next t) :
    t.taken = s.taken := by
  obtain ⟨taken, -, -⟩ := edgeMakesItsOneTransfer s t hstep
  rw [taken, inputTransfer_of_not_wanted (wantsBeat_eq_false.2 (.inr eof))]
  exact List.append_nil _

/-- Settles O56: the count's fall step by step, the sticky flag, and the edge's transfers. -/
theorem everyEdgeAfterEndOfInputCountsDown : Obligations.EveryEdgeAfterEndOfInputCountsDown := by
  intro s t hs eof notDone hr accepts hstep
  obtain ⟨-, sticky⟩ := stickyFlagsStaySet s t hr hstep
  refine ⟨?count, sticky eof, taken_after_eof eof hstep⟩
  case count =>
    obtain ⟨r, bs, es, edge, rfl⟩ := edgeTo_of_step hr hstep
    exact edge_after_eof_counts_down hs eof notDone accepts edge

/-! Runs after EOF. -/

/-- Every state of the invariant has a next state (60_exceptions.md R210). -/
theorem exec_fetch_completes {s : State} (hs : Inv s) : ∃ t, exec (fetch s) s = .next t :=
  fetch_cases (P := fun i => ∃ t, exec i s = .next t) hs.legalState
    (iterBegin := fun _ => emit_completes _ _ _)
    (await := fun _ => by
      by_cases budget : s.regs.budget = 0
      · exact ⟨_, if_pos budget⟩
      · obtain ⟨t, ht⟩ := emit_completes s ⟨.prompt, 0⟩ { s.regs with state := stRead }
        exact ⟨t, (awaitStep_of_budget budget).trans ht⟩)
    (read := fun _ => by
      obtain ⟨act, hact⟩ := phaseAction_isSome hs.legalPhase
      obtain ⟨t, ht⟩ := take_completes s (readWith act)
      exact ⟨t, (execRead_of_phaseAction hact).trans ht⟩)
    (verr := fun _ => emit_completes _ _ _)
    (discard := fun _ => take_completes _ _)
    (accept := fun _ => by
      cases slot : s.regs.slot with
      | first => exact ⟨_, execAccept_first slot⟩
      | second => exact ⟨_, execAccept_second slot⟩)
    (compute := fun _ => by
      by_cases ovf : addOvf s.regs.opA s.regs.opB = true
      · obtain ⟨t, ht⟩ := emit_completes s ⟨.overflow, 0⟩ (computeRegs s.regs)
        exact ⟨t, (if_pos ovf).trans ht⟩
      · exact ⟨_, if_neg ovf⟩)
    (skip := fun _ => emit_completes _ _ _)
    (report := fun _ => emit_completes _ _ _)
    (iterDone := fun _ => ⟨_, rfl⟩)
    (final := fun _ => emit_completes _ _ _)
    (done := fun _ => ⟨_, rfl⟩)

theorem step_completes {s : State} (hs : Inv s) (hr : s.pins.rst = false) :
    ∃ t, step s = .next t := by
  obtain ⟨u, hu⟩ := exec_fetch_completes hs
  exact ⟨u.advance, step_eq_next.2 ⟨hs.iterations, .inr ⟨hr, u, hu, rfl⟩⟩⟩

theorem AcceptsFor.head {n : Nat} {s : State} (h : AcceptsFor (n + 1) s) :
    s.pins.rst = false ∧ s.pins.evReady = true :=
  h.2 s.pins (by simp [State.edges])

theorem AcceptsFor.of_step {n : Nat} {s t : State} (h : AcceptsFor (n + 1) s)
    (hstep : step s = .next t) : AcceptsFor n t := by
  obtain ⟨long, accepts⟩ := h
  cases hscript : s.script with
  | nil =>
    obtain rfl : n = 0 := by simpa [State.edges, hscript] using long
    exact ⟨Nat.zero_le _, by simp⟩
  | cons next later =>
    have edges : s.edges = s.pins :: t.edges := by
      rw [step_edges hstep, State.edges, hscript]
      rfl
    rw [edges] at long accepts
    exact ⟨Nat.le_of_succ_le_succ long, fun p hp => accepts p (List.mem_cons_of_mem _ hp)⟩

theorem AcceptsFor.mono {m n : Nat} {s : State} (h : AcceptsFor n s) (hle : m ≤ n) : AcceptsFor m s :=
  ⟨hle.trans h.1, fun p hp => h.2 p (List.take_subset_take_left _ hle hp)⟩

/-- Only DONE has no edge left: anywhere else an accepted edge takes one off the count. -/
theorem state_of_edgesLeft_eq_zero {s : State} (hs : Inv s) (eof : s.regs.eofSeen = true)
    (h : edgesLeft s.regs = 0) : s.regs.state = stDone := by
  by_contra notDone
  have hs' : Inv { s with pins := { Pins.idle with evReady := true } } := { hs with }
  obtain ⟨t, hstep⟩ := step_completes hs' rfl
  obtain ⟨counted, -, -⟩ :=
    everyEdgeAfterEndOfInputCountsDown _ t hs' eof notDone rfl (fun _ => rfl) hstep
  exact Nat.succ_ne_zero _ (counted.trans h)

/-- The count is the number of edges to DONE. -/
theorem run_reaches_done (k : Nat) {s : State} (hs : Inv s) (eof : s.regs.eofSeen = true)
    (count : edgesLeft s.regs = k) (accepts : AcceptsFor k s) :
    ∃ t, Host.Core.run Sys2Proof.core k s = .next t ∧ t.regs.state = stDone := by
  induction k generalizing s with
  | zero => exact ⟨s, rfl, state_of_edgesLeft_eq_zero hs eof count⟩
  | succ k ih =>
    obtain ⟨hr, ready⟩ := accepts.head
    obtain ⟨u, hstep⟩ := step_completes hs hr
    have notDone : s.regs.state ≠ stDone := fun h => by simp [edgesLeft_of_done h] at count
    obtain ⟨counted, eof', -⟩ :=
      everyEdgeAfterEndOfInputCountsDown s u hs eof notDone hr (fun _ => ready) hstep
    obtain ⟨t, hrun, hdone⟩ := ih (everyEdgeKeepsTheInvariant s u hs hstep) eof' (by omega)
      (accepts.of_step hstep)
    exact ⟨t, run_succ_eq_next.2 ⟨u, hstep, hrun⟩, hdone⟩

theorem edgesLeft_le_eofBound {s : State} (hs : Inv s) : edgesLeft s.regs ≤ eofBound s.cfg := by
  by_cases ended : s.regs.state = stFinal ∨ s.regs.state = stDone
  · obtain h | h := ended
    · exact (edgesLeft_of_final h).trans_le (Nat.le_add_left _ _)
    · exact (edgesLeft_of_done h).trans_le (Nat.zero_le _)
  · obtain ⟨notFinal, notDone⟩ := not_or.1 ended
    obtain ⟨hpos, hle⟩ := hs.iterRunning notFinal notDone
    have budget := hs.budgetBound
    have later : (s.regs.iter.toNat - 1) * (3 * s.cfg.nAttempts + 5) + (3 * s.cfg.nAttempts + 5) ≤
        s.cfg.nIter * (3 * s.cfg.nAttempts + 5) := by
      rw [← Nat.succ_mul]
      exact Nat.mul_le_mul_right _ (by omega)
    have accepted : (if s.regs.slot = .first then 3 * s.cfg.nAttempts + 5 else 4) ≤
        3 * s.cfg.nAttempts + 5 := by split <;> omega
    simp only [edgesLeft, eofBound]
    split <;> omega

/-- Settles O49: the run to DONE takes as many edges as the count, which the parameters bound. -/
theorem endOfInputEndsTheSession : Obligations.EndOfInputEndsTheSession := by
  intro s hs eof accepts
  have bound := edgesLeft_le_eofBound hs
  obtain ⟨t, hrun, hdone⟩ := run_reaches_done _ hs eof rfl (accepts.mono bound)
  exact ⟨edgesLeft s.regs, t, bound, hrun, hdone⟩

end Sys2Proof.Machine

/-! The number of events of a session (42_retry_fsm.md R154): what has been sent and the most that is
still to come never add up to more than before. -/

namespace Sys2Proof.Machine

/-! The most events of a slot. -/

theorem slotEvents_zero (c : Params) (slot : Slot) : slotEvents c slot 0 = 2 := by
  cases slot <;> simp [slotEvents]

/-- An iteration's most events are ATTEMPT and those of two full budgets. -/
theorem slotEvents_full_first (c : Params) :
    slotEvents c .first c.nAttempts + 1 ≤ iterationEvents c := by
  simp only [slotEvents, iterationEvents]
  split <;> omega

theorem slotEvents_full_second (c : Params) :
    slotEvents c .second c.nAttempts = acceptedEvents c .first := rfl

/-- A failed read sends two events and charges one attempt. -/
theorem slotEvents_charged {c : Params} {budget : Nat} (slot : Slot) (pos : 0 < budget)
    (bound : budget ≤ c.nAttempts) : slotEvents c slot (budget - 1) + 2 ≤ slotEvents c slot budget := by
  cases slot with
  | first =>
    simp only [slotEvents]
    split <;> split <;> omega
  | second =>
    simp only [slotEvents]
    omega

/-- A successful read leaves less than was to come before its prompt. -/
theorem acceptedEvents_lt {c : Params} {budget : Nat} (slot : Slot) (pos : 0 < budget) :
    acceptedEvents c slot < slotEvents c slot budget := by
  cases slot with
  | first =>
    simp only [acceptedEvents, slotEvents]
    split <;> omega
  | second =>
    simp only [acceptedEvents, slotEvents]
    omega

/-! The bound, by the states and by the iterations still to come. -/

/-- The most events of the iterations after the current one, and FINAL_SUM. -/
def laterEvents {c : Params} (iter : BitVec c.wIter) : Nat :=
  (iter.toNat - 1) * iterationEvents c + 1

section
variable {c : Params} {r : Regs c}

theorem eventsLeft_of_iterBegin (h : r.state = stIterBegin) :
    eventsLeft r = iterationEvents c + laterEvents r.iter := by
  simp only [eventsLeft, h, decodeState_iterBegin, laterEvents]

theorem eventsLeft_of_await (h : r.state = stAwait) :
    eventsLeft r = slotEvents c r.slot r.budget.toNat + laterEvents r.iter := by
  simp only [eventsLeft, h, decodeState_await, laterEvents]

/-- A prompt has been sent, and its read is not decided or has failed. -/
theorem eventsLeft_of_prompted (h : r.state = stRead ∨ r.state = stVerr) :
    eventsLeft r = slotEvents c r.slot r.budget.toNat - 1 + laterEvents r.iter := by
  obtain h | h := h
  · simp only [eventsLeft, h, decodeState_read, laterEvents]
  · simp only [eventsLeft, h, decodeState_verr, laterEvents]

theorem eventsLeft_of_discard (h : r.state = stDiscard) :
    eventsLeft r = (if r.rdOk then acceptedEvents c r.slot else slotEvents c r.slot r.budget.toNat) +
      laterEvents r.iter := by
  simp only [eventsLeft, h, decodeState_discard, laterEvents]

theorem eventsLeft_of_accept (h : r.state = stAccept) :
    eventsLeft r = acceptedEvents c r.slot + laterEvents r.iter := by
  simp only [eventsLeft, h, decodeState_accept, laterEvents]

/-- The last event of the body, if any, and RUNNING_SUM. -/
theorem eventsLeft_of_body_end (h : r.state = stCompute ∨ r.state = stSkip) :
    eventsLeft r = 2 + laterEvents r.iter := by
  obtain h | h := h
  · simp only [eventsLeft, h, decodeState_compute, laterEvents]
  · simp only [eventsLeft, h, decodeState_skip, laterEvents]

theorem eventsLeft_of_report (h : r.state = stReport) : eventsLeft r = 1 + laterEvents r.iter := by
  simp only [eventsLeft, h, decodeState_report, laterEvents]

theorem eventsLeft_of_iterDone (h : r.state = stIterDone) : eventsLeft r = laterEvents r.iter := by
  simp only [eventsLeft, h, decodeState_iterDone, laterEvents]

theorem eventsLeft_of_final (h : r.state = stFinal) : eventsLeft r = 1 := by
  simp only [eventsLeft, h, decodeState_final]

theorem eventsLeft_of_done (h : r.state = stDone) : eventsLeft r = 0 := by
  simp only [eventsLeft, h, decodeState_done]

/-- Counting down starts the next iteration, or with iter = 1 leaves only FINAL_SUM. -/
theorem eventsLeft_of_counted (nonzero : r.iter ≠ 0) :
    eventsLeft { r with
      iter := decrement r.iter
      state := if decrement r.iter = 0 then stFinal else stIterBegin } = laterEvents r.iter := by
  have counted := decrement_toNat nonzero
  by_cases last : decrement r.iter = 0
  · have ended : r.iter.toNat - 1 = 0 := counted.symm.trans (congrArg BitVec.toNat last)
    rw [eventsLeft_of_final (if_pos last), laterEvents, ended, Nat.zero_mul]
  · obtain ⟨n, hn⟩ := Nat.exists_eq_succ_of_ne_zero (toNat_pos_of_ne_zero last).ne'
    rw [eventsLeft_of_iterBegin (if_neg last), laterEvents, laterEvents, ← counted, hn]
    simp only [Nat.succ_eq_add_one, Nat.add_sub_cancel, Nat.add_mul]
    omega

/-- A read's verdict leaves at most what the prompted read did. -/
theorem eventsLeft_of_readWith (h : r.state = stRead) (budget : r.budget ≠ 0)
    (act : Beat → ReadAction) (b : Beat) : eventsLeft (readWith act b r) ≤ eventsLeft r := by
  obtain ⟨iter, sameBudget, slot, -⟩ := readWith_frame act b r
  have accepted := acceptedEvents_lt (c := c) r.slot (toNat_pos_of_ne_zero budget)
  rw [eventsLeft_of_prompted (.inl h)]
  obtain state | state | ⟨state, ok⟩ | state := readWith_state h act b
  · rw [eventsLeft_of_prompted (.inl state), iter, sameBudget, slot]
  · rw [eventsLeft_of_prompted (.inr state), iter, sameBudget, slot]
  · rw [eventsLeft_of_discard state, if_pos ok, iter, slot]
    omega
  · rw [eventsLeft_of_accept state, iter, slot]
    omega

/-- Dropping the rest of the line sends nothing and changes nothing of what is to come. -/
theorem eventsLeft_of_discardWith (h : r.state = stDiscard) (b : Beat) :
    eventsLeft (discardWith b r) = eventsLeft r := by
  obtain hw | ⟨eof, hw⟩ := discardWith_cases b r <;> rw [hw]
  rw [eventsLeft_of_discard h]
  cases ok : r.rdOk with
  | true => exact eventsLeft_of_accept rfl
  | false => exact eventsLeft_of_await rfl

end

/-! The edge. -/

theorem edge_keeps_event_budget {s : State} {r : Regs s.cfg} {bs : List Beat} {es : List Event}
    (hs : Inv s) (edge : EdgeTo s.pins s.regs r bs es) :
    es.length + eventsLeft r ≤ eventsLeft s.regs := by
  cases edge with
  | waits => simp
  | attempt h =>
    have full := slotEvents_full_first s.cfg
    simp only [List.length_singleton, eventsLeft_of_await, eventsLeft_of_iterBegin h, budget_full_toNat]
    omega
  | exhausted h budget =>
    have none : s.regs.budget.toNat = 0 := congrArg BitVec.toNat budget
    rw [eventsLeft_of_body_end (.inr rfl), eventsLeft_of_await h, none, slotEvents_zero]
    simp
  | prompt h budget =>
    have most := acceptedEvents_lt (c := s.cfg) s.regs.slot (toNat_pos_of_ne_zero budget)
    rw [eventsLeft_of_prompted (.inl rfl), eventsLeft_of_await h]
    simp only [List.length_singleton]
    omega
  | @read act b _ h =>
    simpa using eventsLeft_of_readWith h (hs.readBudget h) act b
  | verr h =>
    have nonzero := hs.verrBudget h
    have charged := slotEvents_charged s.regs.slot (toNat_pos_of_ne_zero nonzero) hs.budgetBound
    rw [eventsLeft_of_prompted (.inr h)]
    cases disc : s.regs.rdDisc with
    | true =>
      rw [eventsLeft_of_discard rfl]
      simp only [List.length_singleton, hs.verrFailed h, decrement_toNat nonzero, Bool.false_eq_true,
        if_false]
      omega
    | false =>
      rw [eventsLeft_of_await rfl]
      simp only [List.length_singleton, decrement_toNat nonzero]
      omega
  | @discard b _ h => simpa using (eventsLeft_of_discardWith h b).le
  | acceptFirst h slot =>
    simp only [List.length_nil, Nat.zero_add, eventsLeft_of_await, eventsLeft_of_accept h,
      budget_full_toNat, slot, slotEvents_full_second, le_refl]
  | acceptSecond h slot =>
    rw [eventsLeft_of_body_end (.inl rfl), eventsLeft_of_accept h, slot]
    simp [acceptedEvents]
  | compute h =>
    rw [eventsLeft_of_report rfl, eventsLeft_of_body_end (.inl h)]
    simp [computeRegs]
  | overflow h =>
    simp only [List.length_singleton, eventsLeft_of_report, eventsLeft_of_body_end (.inl h)]
    omega
  | skip h =>
    simp only [List.length_singleton, eventsLeft_of_report, eventsLeft_of_body_end (.inr h)]
    omega
  | report h =>
    simp only [List.length_singleton, eventsLeft_of_iterDone, eventsLeft_of_report h, le_refl]
  | iterDone h =>
    rw [eventsLeft_of_counted (iter_ne_zero hs h), eventsLeft_of_iterDone h]
    simp
  | final h => rw [eventsLeft_of_done rfl, eventsLeft_of_final h]; rfl

/-- Settles O47: what an edge delivers comes off what is still to come. -/
theorem eventBudgetNeverGrows : Obligations.EventBudgetNeverGrows := by
  intro s t hs hr hstep
  obtain ⟨r, bs, es, edge, rfl⟩ := edgeTo_of_step hr hstep
  have kept := edge_keeps_event_budget hs edge
  change (s.delivered ++ es).length + eventsLeft r ≤ _
  rw [List.length_append]
  omega

/-- At reset every iteration is still to come. -/
theorem eventsLeft_reset (c : Params) (iterations : c.nIter ≠ 0) :
    eventsLeft (Regs.reset c) = c.nIter * iterationEvents c + 1 := by
  obtain ⟨n, hn⟩ := Nat.exists_eq_succ_of_ne_zero iterations
  rw [eventsLeft_of_iterBegin rfl, laterEvents, Regs.reset_iter, iter_full_toNat, hn]
  simp only [Nat.succ_eq_add_one, Nat.add_sub_cancel, Nat.add_mul]
  omega

theorem session_events_le {n : Nat} {s t : State} (start : SessionStarts s) (noReset : NoResetFor n s)
    (hrun : Host.Core.run Sys2Proof.core n s = .next t) :
    t.delivered.length ≤ s.cfg.nIter * iterationEvents s.cfg + 1 := by
  obtain ⟨iterations, hregs, hdelivered⟩ := start
  have kept := run_preserves
    (P := fun t => Inv t ∧
      t.delivered.length + eventsLeft t.regs ≤ s.cfg.nIter * iterationEvents s.cfg + 1)
    (fun t u ht hr hstep => ⟨everyEdgeKeepsTheInvariant t u ht.1 hstep,
      (eventBudgetNeverGrows t u ht.1 hr hstep).trans ht.2⟩)
    n ⟨resetMeetsTheInvariant s iterations hregs, ?start⟩ noReset hrun
  case start => rw [hdelivered, hregs, eventsLeft_reset s.cfg iterations]; simp
  exact (Nat.le_add_right _ _).trans kept.2

/-- Settles O48: at the end of the run the bound of the reset state still holds. -/
theorem sessionEventsAreBounded : Obligations.SessionEventsAreBounded := by
  intro n s t start noReset hrun
  have bound := session_events_le start noReset hrun
  refine ⟨fun some => ?some, fun none => ?none⟩
  case some => rwa [iterationEvents, if_neg (by omega)] at bound
  case none => rwa [iterationEvents, if_pos none] at bound

end Sys2Proof.Machine

/-! The steps of an iteration (42_retry_fsm.md R142 to R152): what each writes, delivers and leaves
alone, and the stops. -/

namespace Sys2Proof.Machine

theorem emit_of_ready {s : State} (h : s.pins.evReady = true) (e : Event) (r : Regs s.cfg) :
    emit s e r = .next ((s.withRegs r).logEvent e) :=
  emit_eq_next.2 (.inl ⟨h, rfl⟩)

theorem zext64_toNat {w : Nat} {v : BitVec w} (h : v.toNat < 2 ^ 64) : (zext64 v).toNat = v.toNat := by
  rw [zext64_of_lt h, BitVec.toNat_setWidth, Nat.mod_eq_of_lt h]

/-- A counter register of at least 1 counts down exactly (log 11). -/
theorem decrement_toNat_of_pos {w : Nat} {v : BitVec w} (h : 1 ≤ v.toNat) :
    (decrement v).toNat = v.toNat - 1 :=
  decrement_toNat fun h0 => by simp [h0] at h

/-- Settles O9: ITER_BEGIN is an Emit of ATTEMPT. -/
theorem iterBeginStartsAnIteration : Obligations.IterBeginStartsAnIteration :=
  fun s ready => ⟨zext64 s.regs.iter, BitVec.ofNat _ s.cfg.nAttempts, zext64_toNat,
    budget_full_toNat s.cfg, emit_of_ready ready _ _⟩

/-- Settles O10: the two branches of the budget test. -/
theorem awaitTestsTheBudget : Obligations.AwaitTestsTheBudget :=
  fun _ => ⟨fun exhausted => if_pos exhausted,
    fun budget ready => (awaitStep_of_budget budget).trans (emit_of_ready ready _ _)⟩

/-- Settles O11: VERR is an Emit of the notice. -/
theorem verrChargesTheBudget : Obligations.VerrChargesTheBudget :=
  fun s ready => ⟨decrement s.regs.budget, decrement_toNat_of_pos, emit_of_ready ready _ _⟩

/-- Settles O12: ACCEPT in each slot. -/
theorem acceptAdvancesTheSlot : Obligations.AcceptAdvancesTheSlot :=
  fun s => ⟨fun slot => ⟨BitVec.ofNat _ s.cfg.nAttempts, budget_full_toNat s.cfg, execAccept_first slot⟩,
    execAccept_second⟩

/-- Settles O14: the three steps are Emits. -/
theorem skipReportAndFinalSendTheirEvent : Obligations.SkipReportAndFinalSendTheirEvent :=
  fun _ ready => ⟨emit_of_ready ready _ _, emit_of_ready ready _ _, emit_of_ready ready _ _⟩

/-- Settles O15: the value written is the one the end test reads. -/
theorem iterDoneCountsDown : Obligations.IterDoneCountsDown :=
  fun s => ⟨decrement s.regs.iter, decrement_toNat_of_pos, rfl⟩

/-! COMPUTE (42_retry_fsm.md R146). -/

theorem computeStep_of_fits {s : State} (fits : addOvf s.regs.opA s.regs.opB = false) :
    computeStep s = .next (s.withRegs (computeRegs s.regs)) := by
  simp [computeStep, fits]

theorem computeStep_of_overflow {s : State} (ovf : addOvf s.regs.opA s.regs.opB = true) :
    computeStep s = emit s ⟨.overflow, 0⟩ { s.regs with state := stReport } := by
  rw [computeStep, if_pos ovf, computeRegs_of_addOvf ovf]

/-- COMPUTE's writes for a pair in range, in exact integers. -/
theorem computeRegs_of_inInt64 {c : Params} {r : Regs c} (h : InInt64 (r.opA.toInt + r.opB.toInt)) :
    computeRegs r = { r with
      sum := BitVec.ofInt 64 (r.sum.toInt + (r.opA.toInt + r.opB.toInt))
      accWrap := r.accWrap || !decide (InInt64 (r.sum.toInt + (r.opA.toInt + r.opB.toInt)))
      state := stReport } := by
  rw [computeRegs, accumSum_eq_ofInt, accumWrapped_eq, addValue_toInt, if_pos h]

/-- Settles O13: the flag is the test of the exact sum, and on overflow COMPUTE is an Emit. -/
theorem computeAccumulatesThePair : Obligations.ComputeAccumulatesThePair := by
  intro s pair total
  refine ⟨fun inRange => ?inRange, fun outOfRange ready => ?reported, fun outOfRange waits => ?held⟩
  case inRange =>
    have step := computeStep_of_fits (addOvf_eq_false_iff.2 inRange)
    rw [computeRegs_of_inInt64 inRange] at step
    exact step
  case reported =>
    exact (computeStep_of_overflow (addOvf_eq_true_iff.2 outOfRange)).trans (emit_of_ready ready _ _)
  case held =>
    exact (computeStep_of_overflow (addOvf_eq_true_iff.2 outOfRange)).trans
      (emit_of_not_ready waits _ _)

/-! DONE and the stops (42_retry_fsm.md R151, R152). -/

theorem step_of_done {s : State} (iterations : s.cfg.nIter ≠ 0) (hdone : s.regs.state = stDone)
    (hr : s.pins.rst = false) : step s = .next s.advance := by
  rw [step_of_not_rst iterations hr, fetch, hdone]
  rfl

/-- Settles O16: DONE's step is none, and no output asks for a transfer. -/
theorem doneHoldsEverything : Obligations.DoneHoldsEverything := by
  refine fun s => ⟨rfl, fun iterations hdone hr => ⟨step_of_done iterations hdone hr, ?_, rfl, ?_, ?_⟩⟩
  · exact done_eq_true.2 hdone
  · refine Bool.eq_false_of_not_eq_true fun ready => ?_
    obtain ⟨-, reading, -⟩ := inReady_eq_true.1 ready
    simp [hdone] at reading
  · exact evValid_of_not_presented (presented_of_silent (by simp [hdone]))

theorem phaseAction_of_reserved {c : Params} {r : Regs c} (h : r.rdPhase = 3) :
    phaseAction r = none := by
  simp [phaseAction, h]

theorem execRead_of_reservedPhase {s : State} (h : s.regs.rdPhase = 3) :
    execRead s = .fault .reservedPhase := by
  simp only [execRead, phaseAction_of_reserved h]

theorem receive_of_reservedPhase {s : State} (hread : s.regs.state = stRead)
    (h : s.regs.rdPhase = 3) (eof : s.regs.eofSeen = false) (b : Beat) :
    receive b s = .fault .reservedPhase := by
  have wanted : wantsBeat s.regs = true := wantsBeat_eq_true.2 ⟨.inl hread, eof⟩
  have notDiscard : s.regs.state ≠ stDiscard := by simp [hread]
  simp only [receive, wanted, if_true, notDiscard, if_false, phaseAction_of_reserved h]

theorem step_of_reservedState {s : State} (reserved : 0xC ≤ s.regs.state.toNat)
    (iterations : s.cfg.nIter ≠ 0) (hr : s.pins.rst = false) : step s = .fault .reservedState := by
  obtain ⟨low, hlow⟩ := decodeState_of_reserved (w := s.regs.state) (by omega)
  rw [step_of_not_rst iterations hr, fetch, hlow]
  rfl

theorem step_of_reservedPhase {s : State} (iterations : s.cfg.nIter ≠ 0) (hr : s.pins.rst = false)
    (hread : s.regs.state = stRead) (h : s.regs.rdPhase = 3) : step s = .fault .reservedPhase := by
  rw [step_of_not_rst iterations hr, fetch, hread]
  exact congrArg (onNext State.advance) (execRead_of_reservedPhase h)

/-- Settles O17: the stops, one by one. -/
theorem reservedCodesAreStuck : Obligations.ReservedCodesAreStuck := by
  refine fun s => ⟨fun _ => rfl, rfl, execRead_of_reservedPhase, fun i b carried hread phase eof => ?beat,
    fun _ => rfl, fun reserved => ⟨?notDone, step_of_reservedState reserved⟩, step_of_reservedPhase⟩
  case beat => exact (exec_of_carriedBeat carried s).trans (receive_of_reservedPhase hread phase eof b)
  case notDone =>
    refine Bool.eq_false_of_not_eq_true fun done => ?_
    simp [done_eq_true.1 done] at reserved

end Sys2Proof.Machine

/-! A line, byte by byte (43_token_reader.md R181 to R187): what a read in each phase makes of the rest
of its line, and that each READ step's action says the same as the line-level verdict. -/

namespace Sys2Proof.Machine

/-! The rest of a line in each phase. -/

/-- The bytes of a token that has begun. -/
def tokenRest (line : List Byte) : List Byte := line.takeWhile fun b => !isBlank b

/-- An integer, if it is in the signed 64-bit range (43_token_reader.md R181). -/
def inRange (n : Option Int) : Option Int := n.filter fun v => decide (InInt64 v)

/-- The integer of a sign and a magnitude (43_token_reader.md R187). -/
def signed (neg : Bool) (m : Nat) : Int := if neg then -(m : Int) else m

/-- The verdict on the rest of a line after a sign. -/
def signRest (neg : Bool) (line : List Byte) : Option Int :=
  inRange ((digitsValue (tokenRest line)).map (signed neg))

/-- The verdict on the rest of a line after digits of magnitude `m`. -/
def digitsRest (neg : Bool) (m : Nat) (line : List Byte) : Option Int :=
  inRange ((digitsFrom m (tokenRest line)).map (signed neg))

/-- The verdict on the rest of the line in the phase the reader is in. -/
def phaseValue {c : Params} (r : Regs c) (line : List Byte) : Option Int :=
  if r.rdPhase = phLead then lineValue line
  else if r.rdPhase = phSign then signRest r.rdNeg line
  else digitsRest r.rdNeg r.rdMag.toNat line

/-- The verdict on the rest of the line after an action. -/
def valueAfter (neg : Bool) (line : List Byte) : ReadAction → Option Int
  | .stay => lineValue line
  | .sign neg => signRest neg line
  | .firstDigit d => digitsRest neg d line
  | .nextDigit m => digitsRest neg m line
  | .succeed _ v => some v
  | .fail _ _ => none

/-! Digits. -/

theorem value_eq_signed (neg : Bool) (mag : Word) : value neg mag = signed neg mag.toNat := rfl

/-- LIMIT is the greatest magnitude in range (43_token_reader.md R186). -/
theorem inInt64_signed_iff {neg : Bool} {m : Nat} : InInt64 (signed neg m) ↔ m ≤ limit neg := by
  cases neg <;> simp [signed, limit, InInt64, int64Min, int64Max]

theorem inRange_some {v : Int} : inRange (some v) = if InInt64 v then some v else none := by
  simp only [inRange, Option.filter_some, decide_eq_true_eq]

theorem inRange_none : inRange none = none := rfl

theorem inInt64_of_inRange {n : Option Int} {v : Int} (h : inRange n = some v) : InInt64 v := by
  exact of_decide_eq_true (Option.filter_eq_some_iff.1 h).2

theorem digitsFrom_cons_digit {m d : Nat} {b : Byte} (h : classify b = .digit d) (bs : List Byte) :
    digitsFrom m (b :: bs) = digitsFrom (m * 10 + d) bs := by
  simp only [digitsFrom, h]

theorem digitsFrom_cons_other {b : Byte} (h : ∀ d, classify b ≠ .digit d) (m : Nat)
    (bs : List Byte) : digitsFrom m (b :: bs) = none := by
  unfold digitsFrom
  split
  · exact absurd ‹_› (h _)
  · rfl

/-- More digits never make the magnitude smaller. -/
theorem le_of_digitsFrom {bs : List Byte} {m n : Nat} (h : digitsFrom m bs = some n) : m ≤ n := by
  induction bs generalizing m with
  | nil => exact (Option.some.inj h).le
  | cons b bs ih =>
    cases hb : classify b with
    | digit d =>
      rw [digitsFrom_cons_digit hb] at h
      have := ih h
      omega
    | lf | ws | plus | minus | other =>
      rw [digitsFrom_cons_other (by simp [hb])] at h
      cases h

/-- A magnitude above LIMIT stays out of range whatever follows (43_token_reader.md R186). -/
theorem digitsRest_of_limit_lt {neg : Bool} {m : Nat} (h : limit neg < m) (line : List Byte) :
    digitsRest neg m line = none := by
  unfold digitsRest
  cases hd : digitsFrom m (tokenRest line) with
  | none => rfl
  | some n =>
    have : ¬InInt64 (signed neg n) := by
      rw [inInt64_signed_iff]
      have := le_of_digitsFrom hd
      omega
    rw [Option.map_some, inRange_some, if_neg this]

/-! A token's first byte (30_encoding.md R77). -/

theorem tokenInteger_plus {b : Byte} (h : classify b = .plus) (bs : List Byte) :
    tokenInteger (b :: bs) = (digitsValue bs).map (signed false) := by
  simp only [tokenInteger, h]
  cases digitsValue bs <;> rfl

theorem tokenInteger_minus {b : Byte} (h : classify b = .minus) (bs : List Byte) :
    tokenInteger (b :: bs) = (digitsValue bs).map (signed true) := by
  simp only [tokenInteger, h]
  cases digitsValue bs <;> rfl

theorem tokenInteger_unsigned {b : Byte} (plus : classify b ≠ .plus) (minus : classify b ≠ .minus)
    (bs : List Byte) : tokenInteger (b :: bs) = (digitsValue (b :: bs)).map (signed false) := by
  simp only [tokenInteger]
  cases digitsValue (b :: bs) <;> rfl

/-! The token's end. -/

theorem tokenRest_cons_blank {b : Byte} (h : classify b = .ws) (line : List Byte) :
    tokenRest (b :: line) = [] := by
  simp [tokenRest, isBlank, h]

theorem tokenRest_cons {b : Byte} (h : classify b ≠ .ws) (line : List Byte) :
    tokenRest (b :: line) = b :: tokenRest line := by
  simp [tokenRest, isBlank, h]

theorem lineToken_cons_blank {b : Byte} (h : classify b = .ws) (line : List Byte) :
    lineToken (b :: line) = lineToken line := by
  simp [lineToken, isBlank, h]

theorem lineToken_cons {b : Byte} (h : classify b ≠ .ws) (line : List Byte) :
    lineToken (b :: line) = b :: tokenRest line := by
  simp [lineToken, tokenRest, isBlank, h]

/-! One byte of the line in each phase. -/

theorem digitsRest_nil {neg : Bool} {m : Nat} (h : m ≤ limit neg) :
    digitsRest neg m [] = some (signed neg m) := by
  have held : digitsRest neg m [] = inRange (some (signed neg m)) := rfl
  rw [held, inRange_some, if_pos (inInt64_signed_iff.2 h)]

/-- READ.DIGITS (43_token_reader.md R185). -/
theorem digitsRest_cons {neg : Bool} {mag : Word} (hmag : mag.toNat ≤ limit neg) {b : Byte}
    (hb : classify b ≠ .lf) (line : List Byte) :
    digitsRest neg mag.toNat (b :: line) =
      valueAfter neg line (digitsAction neg mag (.byte b)) := by
  cases hk : classify b with
  | lf => exact absurd hk hb
  | ws =>
    have blank := digitsRest_nil hmag
    simp only [digitsRest, tokenRest_cons_blank hk, digitsAction, hk, valueAfter, value_eq_signed]
    exact blank
  | digit d =>
    have cons : digitsRest neg mag.toNat (b :: line) = digitsRest neg (mag.toNat * 10 + d) line := by
      rw [digitsRest, tokenRest_cons (by simp [hk]), digitsFrom_cons_digit hk, digitsRest]
    rw [cons]
    simp only [digitsAction, hk]
    split
    next above => exact digitsRest_of_limit_lt above line
    next => rfl
  | plus | minus | other =>
    rw [digitsRest, tokenRest_cons (by simp [hk]), digitsFrom_cons_other (by simp [hk])]
    simp [digitsAction, hk, valueAfter, inRange_none]

/-- READ.SIGN (43_token_reader.md R184). -/
theorem signRest_cons (neg : Bool) {b : Byte} (hb : classify b ≠ .lf) (line : List Byte) :
    signRest neg (b :: line) = valueAfter neg line (signAction (.byte b)) := by
  cases hk : classify b with
  | lf => exact absurd hk hb
  | ws => simp [signRest, tokenRest_cons_blank hk, digitsValue, inRange_none, signAction, hk, valueAfter]
  | digit d =>
    rw [signRest, tokenRest_cons (by simp [hk]), digitsValue, digitsFrom_cons_digit hk]
    simp [signAction, hk, valueAfter, digitsRest]
  | plus | minus | other =>
    rw [signRest, tokenRest_cons (by simp [hk]), digitsValue, digitsFrom_cons_other (by simp [hk])]
    simp [signAction, hk, valueAfter, inRange_none]

/-- READ.LEAD (43_token_reader.md R183). -/
theorem lineValue_cons {b : Byte} (hb : classify b ≠ .lf) (line : List Byte) :
    lineValue (b :: line) = valueAfter false line (leadAction (.byte b)) := by
  cases hk : classify b with
  | lf => exact absurd hk hb
  | ws => simp only [lineValue, lineToken_cons_blank hk, leadAction, hk, valueAfter]
  | plus =>
    rw [lineValue, lineToken_cons (by simp [hk]), tokenValue, tokenInteger_plus hk]
    simp only [leadAction, hk, valueAfter, signRest, inRange]
  | minus =>
    rw [lineValue, lineToken_cons (by simp [hk]), tokenValue, tokenInteger_minus hk]
    simp only [leadAction, hk, valueAfter, signRest, inRange]
  | digit d =>
    rw [lineValue, lineToken_cons (by simp [hk]), tokenValue,
      tokenInteger_unsigned (by simp [hk]) (by simp [hk]), digitsValue, digitsFrom_cons_digit hk]
    simp only [leadAction, hk, valueAfter, digitsRest, inRange, Nat.zero_mul, Nat.zero_add]
  | other =>
    rw [lineValue, lineToken_cons (by simp [hk]), tokenValue,
      tokenInteger_unsigned (by simp [hk]) (by simp [hk]), digitsValue,
      digitsFrom_cons_other (by simp [hk])]
    simp [leadAction, hk, valueAfter]

/-! The reader's registers. -/

section
variable {c : Params} {r : Regs c}

theorem phaseValue_of_lead (h : r.rdPhase = phLead) (line : List Byte) :
    phaseValue r line = lineValue line := if_pos h

theorem phaseValue_of_sign (h : r.rdPhase = phSign) (line : List Byte) :
    phaseValue r line = signRest r.rdNeg line := by
  simp [phaseValue, h]

theorem phaseValue_of_digits (h : r.rdPhase = phDigits) (line : List Byte) :
    phaseValue r line = digitsRest r.rdNeg r.rdMag.toNat line := by
  simp [phaseValue, h]

theorem classify_eq_lf_iff {b : Byte} : classify b = .lf ↔ b = 0x0A :=
  classify_eq_iff.trans ClassRow.lf_iff

/-- A byte of the line takes the read on to the same verdict. -/
theorem phaseValue_cons (hr : ReaderInv r) {act : Beat → ReadAction} (phase : phaseAction r = some act)
    {b : Byte} (hb : b ≠ 0x0A) (line : List Byte) :
    phaseValue r (b :: line) = valueAfter r.rdNeg line (act (.byte b)) := by
  have notLf : classify b ≠ .lf := mt classify_eq_lf_iff.1 hb
  obtain ⟨h, rfl⟩ | ⟨h, rfl⟩ | ⟨h, rfl⟩ := phaseAction_eq_some phase
  · rw [phaseValue_of_lead h, lineValue_cons notLf, (hr.leadClear h).1]
  · rw [phaseValue_of_sign h, signRest_cons _ notLf]
  · rw [phaseValue_of_digits h, digitsRest_cons hr.magBound notLf]

/-- What ends a line: LF or EOF. -/
abbrev IsTerminator (b : Beat) : Prop := b = .eof ∨ b = .byte 0x0A

/-- The action is a verdict, with this left to discard. -/
def Decides (disc : Bool) (a : ReadAction) : Prop :=
  (∃ v, a = .succeed disc v) ∨ ∃ cause, a = .fail cause disc

/-- The terminator decides the read, with the verdict on a line that has ended, and leaves nothing to
discard (43_token_reader.md R183 to R185). -/
theorem phaseValue_nil (hr : ReaderInv r) {act : Beat → ReadAction} (phase : phaseAction r = some act)
    {b : Beat} (hb : IsTerminator b) :
    phaseValue r [] = valueAfter r.rdNeg [] (act b) ∧ Decides false (act b) := by
  obtain ⟨h, rfl⟩ | ⟨h, rfl⟩ | ⟨h, rfl⟩ := phaseAction_eq_some phase
  · rw [phaseValue_of_lead h]
    obtain rfl | rfl := hb <;> exact ⟨rfl, .inr ⟨_, rfl⟩⟩
  · rw [phaseValue_of_sign h]
    obtain rfl | rfl := hb <;> exact ⟨rfl, .inr ⟨_, rfl⟩⟩
  · rw [phaseValue_of_digits h, digitsRest_nil hr.magBound]
    obtain rfl | rfl := hb <;> exact ⟨rfl, .inl ⟨_, rfl⟩⟩

/-- A byte of the line decides the read only with the rest of the line left to discard. -/
theorem not_decides_of_line_byte {act : Beat → ReadAction} (phase : phaseAction r = some act) {b : Byte}
    (hb : b ≠ 0x0A) : ¬Decides false (act (.byte b)) := by
  have notLf : classify b ≠ .lf := mt classify_eq_lf_iff.1 hb
  obtain ⟨-, rfl⟩ | ⟨-, rfl⟩ | ⟨-, rfl⟩ := phaseAction_eq_some phase
  · cases hk : classify b with
    | lf => exact absurd hk notLf
    | ws | digit _ | plus | minus | other => simp [Decides, leadAction, hk]
  · cases hk : classify b with
    | lf => exact absurd hk notLf
    | ws | digit _ | plus | minus | other => simp [Decides, signAction, hk]
  · cases hk : classify b with
    | lf => exact absurd hk notLf
    | digit d =>
      by_cases above : r.rdMag.toNat * 10 + d > limit r.rdNeg <;> simp [Decides, digitsAction, hk, above]
    | ws | plus | minus | other => simp [Decides, digitsAction, hk]

/-- A verdict's value is in range, so the operand register holds it exactly. -/
theorem inInt64_of_phaseValue {line : List Byte} {v : Int} (h : phaseValue r line = some v) :
    InInt64 v := by
  unfold phaseValue at h
  split at h
  · exact inInt64_of_inRange h
  · split at h <;> exact inInt64_of_inRange h

end

end Sys2Proof.Machine

/-! A session as a function of its input (42_retry_fsm.md R153): the events still to come from a state
are a function of its registers and of the input not yet read, and every edge takes what it delivers off
their front and what it consumes off the front of the input. -/

namespace Sys2Proof.Machine

/-! The reference session, with what follows each of its parts. -/

/-- From REPORT on, with `n` iterations to come after this one. -/
def reportThen (c : Params) (n : Nat) (sum : Word) (input : List Beat) : List Event :=
  ⟨.runningSum, sum⟩ :: sessionEvents c n sum input

def skipThen (c : Params) (n : Nat) (sum : Word) (input : List Beat) : List Event :=
  ⟨.skipNotice, 0⟩ :: reportThen c n sum input

/-- From COMPUTE on, with the operands `a` and `b` (40_adder.md R107). -/
def computeThen (c : Params) (n : Nat) (sum : Word) (a b : Int) (input : List Beat) : List Event :=
  if InInt64 (a + b) then reportThen c n (BitVec.ofInt 64 (sum.toInt + (a + b))) input
  else ⟨.overflow, 0⟩ :: reportThen c n sum input

/-- From AWAIT on, with this many attempts: what follows the slot depends on the operand it got. -/
def slotThen (attempts : Nat) (fail : List Beat → List Event) (ok : Int → List Beat → List Event)
    (input : List Beat) : List Event :=
  match slotSession attempts input with
  | (events, none, left) => events ++ fail left
  | (events, some v, left) => events ++ ok v left

/-- After the verdict on a line, with this many attempts left if it failed. -/
def verdictThen (attempts : Nat) (fail : List Beat → List Event) (ok : Int → List Beat → List Event)
    (verdict : Option Int) (left : List Beat) : List Event :=
  match verdict with
  | some v => ok v left
  | none => ⟨.verrNotice, 0⟩ :: slotThen attempts fail ok left

theorem slotThen_zero (fail : List Beat → List Event) (ok : Int → List Beat → List Event)
    (input : List Beat) : slotThen 0 fail ok input = fail input := rfl

theorem slotThen_succ (attempts : Nat) (fail : List Beat → List Event)
    (ok : Int → List Beat → List Event) (input : List Beat) :
    slotThen (attempts + 1) fail ok input =
      ⟨.prompt, 0⟩ ::
        verdictThen attempts fail ok (lineValue (nextLine input).1) (nextLine input).2 := by
  unfold slotThen slotSession
  cases hv : lineValue (nextLine input).1 with
  | some v => simp [verdictThen, hv]
  | none =>
    simp only [verdictThen, slotThen, hv]
    obtain ⟨events, _ | v, left⟩ := slotSession attempts (nextLine input).2 <;> rfl

/-- The slots of an iteration, one after the other. -/
theorem sessionEvents_succ (c : Params) (n : Nat) (sum : Word) (input : List Beat) :
    sessionEvents c (n + 1) sum input =
      ⟨.attempt, zext64 (BitVec.ofNat c.wIter (n + 1))⟩ ::
        slotThen c.nAttempts (skipThen c n sum)
          (fun a => slotThen c.nAttempts (skipThen c n sum) (computeThen c n sum a)) input := by
  simp only [sessionEvents, bodySession, slotThen]
  obtain ⟨first, _ | a, rest⟩ := slotSession c.nAttempts input
  · simp [skipThen, reportThen]
  · simp only
    obtain ⟨second, _ | b, left⟩ := slotSession c.nAttempts rest
    · simp [skipThen, reportThen]
    · by_cases h : InInt64 (a + b)
      · simp only [computeThen, reportThen, if_pos h, List.append_assoc, List.cons_append]
      · simp only [computeThen, reportThen, if_neg h, List.append_assoc, List.cons_append, List.nil_append]

/-! The input not yet read. -/

/-- Nothing follows EOF (20_memory.md R54). -/
def unread (eofSeen : Bool) (rest : List Beat) : List Beat := if eofSeen then [] else rest

@[simp] theorem unread_true (rest : List Beat) : unread true rest = [] := rfl

@[simp] theorem unread_false (rest : List Beat) : unread false rest = rest := rfl

/-- A beat that a step takes is the next one of the input not yet read: a terminator ends the line, and
any other byte is the line's first. -/
theorem TakesBeat.unread_cases {c : Params} {p : Pins} {r : Regs c} {b : Beat} {bs : List Beat}
    (takes : TakesBeat p r b bs) (rest : List Beat) :
    (IsTerminator b ∧
      nextLine (unread r.eofSeen (bs ++ rest)) = ([], unread (noteEof b r).eofSeen rest)) ∨
    ∃ d, d ≠ 0x0A ∧ b = .byte d ∧ unread r.eofSeen (bs ++ rest) = .byte d :: unread r.eofSeen rest := by
  obtain ⟨eof, rfl, rfl⟩ | ⟨eof, -, rfl⟩ := takes
  · exact .inl ⟨.inl rfl, by simp [eof, nextLine]⟩
  · cases b with
    | eof => exact .inl ⟨.inl rfl, by simp [eof, nextLine]⟩
    | byte d =>
      by_cases lf : d = 0x0A
      · exact .inl ⟨.inr (by rw [lf]), by simp [eof, nextLine, lf]⟩
      · exact .inr ⟨d, lf, rfl, by simp [eof]⟩

theorem nextLine_cons {d : Byte} (h : d ≠ 0x0A) (input : List Beat) :
    nextLine (.byte d :: input) = (d :: (nextLine input).1, (nextLine input).2) := by
  simp only [nextLine, h, if_false]

/-! The events still to come, by the registers. -/

section
variable {c : Params} (r : Regs c)

/-- After the slot's successful read of `v`. -/
def acceptedFuture (v : Int) (input : List Beat) : List Event :=
  match r.slot with
  | .first =>
    slotThen c.nAttempts (skipThen c (r.iter.toNat - 1) r.sum)
      (computeThen c (r.iter.toNat - 1) r.sum v) input
  | .second => computeThen c (r.iter.toNat - 1) r.sum r.opA.toInt v input

/-- In the current slot, with this many attempts. -/
def slotFuture (attempts : Nat) (input : List Beat) : List Event :=
  slotThen attempts (skipThen c (r.iter.toNat - 1) r.sum) (acceptedFuture r) input

/-- In the current slot, after the verdict of its current attempt. -/
def verdictFuture (verdict : Option Int) (left : List Beat) : List Event :=
  verdictThen (r.budget.toNat - 1) (skipThen c (r.iter.toNat - 1) r.sum) (acceptedFuture r) verdict left

/-- The current slot's operand register. -/
def slotOperand : Word :=
  match r.slot with
  | .first => r.opA
  | .second => r.opB

/-- The events from here to the end of the session, if the beats consumed from here on are `rest`. -/
def futureEvents (rest : List Beat) : List Event :=
  let input := unread r.eofSeen rest
  let later := r.iter.toNat - 1
  match decodeState r.state with
  | .iterBegin => sessionEvents c r.iter.toNat r.sum input
  | .await => slotFuture r r.budget.toNat input
  | .read => verdictFuture r (phaseValue r (nextLine input).1) (nextLine input).2
  | .verr => verdictFuture r none (if r.rdDisc then (nextLine input).2 else input)
  | .discard =>
    if r.rdOk then acceptedFuture r (slotOperand r).toInt (nextLine input).2
    else slotFuture r r.budget.toNat (nextLine input).2
  | .accept => acceptedFuture r (slotOperand r).toInt input
  | .compute => computeThen c later r.sum r.opA.toInt r.opB.toInt input
  | .skip => skipThen c later r.sum input
  | .report => reportThen c later r.sum input
  | .iterDone => sessionEvents c later r.sum input
  | .final => [⟨.finalSum, r.sum⟩]
  | _ => []

end

section
variable {c : Params} {r r' : Regs c}

theorem futureEvents_of_iterBegin (h : r.state = stIterBegin) (rest : List Beat) :
    futureEvents r rest = sessionEvents c r.iter.toNat r.sum (unread r.eofSeen rest) := by
  simp only [futureEvents, h, decodeState_iterBegin]

theorem futureEvents_of_await (h : r.state = stAwait) (rest : List Beat) :
    futureEvents r rest = slotFuture r r.budget.toNat (unread r.eofSeen rest) := by
  simp only [futureEvents, h, decodeState_await]

theorem futureEvents_of_read (h : r.state = stRead) (rest : List Beat) :
    futureEvents r rest = verdictFuture r (phaseValue r (nextLine (unread r.eofSeen rest)).1)
      (nextLine (unread r.eofSeen rest)).2 := by
  simp only [futureEvents, h, decodeState_read]

theorem futureEvents_of_verr (h : r.state = stVerr) (rest : List Beat) :
    futureEvents r rest = verdictFuture r none
      (if r.rdDisc then (nextLine (unread r.eofSeen rest)).2 else unread r.eofSeen rest) := by
  simp only [futureEvents, h, decodeState_verr]

theorem futureEvents_of_discard (h : r.state = stDiscard) (rest : List Beat) :
    futureEvents r rest =
      if r.rdOk then acceptedFuture r (slotOperand r).toInt (nextLine (unread r.eofSeen rest)).2
      else slotFuture r r.budget.toNat (nextLine (unread r.eofSeen rest)).2 := by
  simp only [futureEvents, h, decodeState_discard]

theorem futureEvents_of_accept (h : r.state = stAccept) (rest : List Beat) :
    futureEvents r rest = acceptedFuture r (slotOperand r).toInt (unread r.eofSeen rest) := by
  simp only [futureEvents, h, decodeState_accept]

theorem futureEvents_of_compute (h : r.state = stCompute) (rest : List Beat) :
    futureEvents r rest = computeThen c (r.iter.toNat - 1) r.sum r.opA.toInt r.opB.toInt
      (unread r.eofSeen rest) := by
  simp only [futureEvents, h, decodeState_compute]

theorem futureEvents_of_skip (h : r.state = stSkip) (rest : List Beat) :
    futureEvents r rest = skipThen c (r.iter.toNat - 1) r.sum (unread r.eofSeen rest) := by
  simp only [futureEvents, h, decodeState_skip]

theorem futureEvents_of_report (h : r.state = stReport) (rest : List Beat) :
    futureEvents r rest = reportThen c (r.iter.toNat - 1) r.sum (unread r.eofSeen rest) := by
  simp only [futureEvents, h, decodeState_report]

theorem futureEvents_of_iterDone (h : r.state = stIterDone) (rest : List Beat) :
    futureEvents r rest = sessionEvents c (r.iter.toNat - 1) r.sum (unread r.eofSeen rest) := by
  simp only [futureEvents, h, decodeState_iterDone]

theorem futureEvents_of_final (h : r.state = stFinal) (rest : List Beat) :
    futureEvents r rest = [⟨.finalSum, r.sum⟩] := by
  simp only [futureEvents, h, decodeState_final]

theorem futureEvents_of_done (h : r.state = stDone) (rest : List Beat) : futureEvents r rest = [] := by
  simp only [futureEvents, h, decodeState_done]

/-! The registers that what follows a read depends on. -/

/-- The same slot of the same iteration: what the rest of it depends on beside the input. In the second
slot that is also the first operand. -/
structure SameSlot (r r' : Regs c) : Prop where
  iter : r'.iter = r.iter
  slot : r'.slot = r.slot
  sum : r'.sum = r.sum
  opA : r.slot = .second → r'.opA = r.opA

theorem SameSlot.acceptedFuture_eq (h : SameSlot r r') : acceptedFuture r' = acceptedFuture r := by
  funext v input
  unfold acceptedFuture
  rw [h.iter, h.slot, h.sum]
  cases slot : r.slot with
  | first => rfl
  | second => rw [h.opA slot]

theorem SameSlot.verdictFuture_eq (h : SameSlot r r') (budget : r'.budget = r.budget) :
    verdictFuture r' = verdictFuture r := by
  funext verdict left
  unfold verdictFuture
  rw [h.iter, h.sum, h.acceptedFuture_eq, budget]

theorem noteEof_sameSlot (b : Beat) (r : Regs c) : SameSlot r (noteEof b r) := by
  rw [noteEof_frame]
  exact ⟨rfl, rfl, rfl, fun _ => rfl⟩

theorem verdictFuture_some (v : Int) (left : List Beat) :
    verdictFuture r (some v) left = acceptedFuture r v left := rfl

theorem verdictFuture_none (left : List Beat) :
    verdictFuture r none left = ⟨.verrNotice, 0⟩ :: slotFuture r (r.budget.toNat - 1) left := rfl

end

end Sys2Proof.Machine

/-! The edge of a session as a function of its input: what each step delivers stands at the front of
the events to come. -/

namespace Sys2Proof.Machine

/-! A read's verdict. -/

theorem enc64_toInt {v : Int} (h : InInt64 v) : (enc64 v).toInt = v := by
  obtain ⟨hlo, hhi⟩ := h
  rw [enc64_of_inInt64 ⟨hlo, hhi⟩]
  exact BitVec.toInt_ofInt_eq_self (by decide) hlo (Int.lt_of_le_sub_one hhi)

section
variable {c : Params} {r r' : Regs c}

/-- What is left of the input where the reader stands behind its verdict's line, or within it. -/
abbrev behindLine (disc : Bool) (input : List Beat) : List Beat :=
  if disc then (nextLine input).2 else input

theorem slotOperand_writeOperand (v : Int) (r : Regs c) :
    slotOperand (writeOperand v r) = enc64 v := by
  cases slot : r.slot <;> simp [slotOperand, slot]

theorem writeOperand_sameSlot (v : Int) (r : Regs c) : SameSlot r (writeOperand v r) := by
  rw [writeOperand_frame]
  exact ⟨rfl, rfl, rfl, fun slot => by simp [slot]⟩

/-- A successful read's operand is the line's value, and the rest of the line is still to be dropped
(43_token_reader.md R188, R190). -/
theorem futureEvents_of_success {v : Int} (hv : InInt64 v) (disc : Bool) (r : Regs c)
    (rest : List Beat) :
    futureEvents (closeRead true disc (writeOperand v r)) rest =
      verdictFuture r (some v) (behindLine disc (unread r.eofSeen rest)) := by
  have operand : (slotOperand (closeRead true disc (writeOperand v r))).toInt = v :=
    (congrArg BitVec.toInt (slotOperand_writeOperand v r)).trans (enc64_toInt hv)
  have same : SameSlot r (closeRead true disc (writeOperand v r)) := { writeOperand_sameSlot v r with }
  have eof : (closeRead true disc (writeOperand v r)).eofSeen = r.eofSeen := by
    rw [writeOperand_frame]
    rfl
  rw [verdictFuture_some]
  cases disc with
  | true =>
    have ok : (closeRead true true (writeOperand v r)).rdOk = true := rfl
    rw [futureEvents_of_discard rfl, if_pos ok, operand, same.acceptedFuture_eq, eof]
    rfl
  | false =>
    rw [futureEvents_of_accept rfl, operand, same.acceptedFuture_eq, eof]
    rfl

/-- A failed read goes to VERR (43_token_reader.md R188). -/
theorem futureEvents_of_failure (disc : Bool) (r : Regs c) (rest : List Beat) :
    futureEvents (closeRead false disc r) rest =
      verdictFuture r none (behindLine disc (unread r.eofSeen rest)) := by
  have same : SameSlot r (closeRead false disc r) := ⟨rfl, rfl, rfl, fun _ => rfl⟩
  rw [futureEvents_of_verr rfl, same.verdictFuture_eq rfl]
  rfl

/-- A read that goes on has the same verdict to come. -/
theorem futureEvents_of_continued (a : ReadAction) (same : SameSlot r (applyAction a r))
    (state : (applyAction a r).state = stRead) (budget : (applyAction a r).budget = r.budget)
    (eof : (applyAction a r).eofSeen = r.eofSeen)
    (value : ∀ line, phaseValue (applyAction a r) line = valueAfter r.rdNeg line a)
    (rest : List Beat) :
    futureEvents (applyAction a r) rest = verdictFuture r
      (valueAfter r.rdNeg (nextLine (unread r.eofSeen rest)).1 a)
      (nextLine (unread r.eofSeen rest)).2 := by
  rw [futureEvents_of_read state, same.verdictFuture_eq budget, eof, value]

/-- Only READ.LEAD passes over a byte. -/
theorem lead_of_stay {act : Beat → ReadAction} (phase : phaseAction r = some act) {b : Byte}
    (hb : b ≠ 0x0A) (stay : act (.byte b) = .stay) : r.rdPhase = phLead := by
  have notLf : classify b ≠ .lf := mt classify_eq_lf_iff.1 hb
  obtain ⟨lead, -⟩ | ⟨-, rfl⟩ | ⟨-, rfl⟩ := phaseAction_eq_some phase
  · exact lead
  · cases hk : classify b with
    | lf => exact absurd hk notLf
    | ws | digit _ | plus | minus | other => simp [signAction, hk] at stay
  · cases hk : classify b with
    | lf => exact absurd hk notLf
    | digit d =>
      by_cases above : r.rdMag.toNat * 10 + d > limit r.rdNeg <;>
        simp [digitsAction, hk, above] at stay
    | ws | plus | minus | other => simp [digitsAction, hk] at stay

/-- At a line's terminator the read is decided, and the input left is what follows the line. -/
theorem read_terminator_future (hs : ReaderInv r) (hstate : r.state = stRead)
    {act : Beat → ReadAction} (phase : phaseAction r = some act) {b : Beat} (hb : IsTerminator b)
    {before rest : List Beat}
    (hnext : nextLine (unread r.eofSeen before) = ([], unread (noteEof b r).eofSeen rest)) :
    futureEvents r before = futureEvents (readWith act b r) rest := by
  obtain ⟨value, decides⟩ := phaseValue_nil hs phase hb
  have same := noteEof_sameSlot b r
  have budget : (noteEof b r).budget = r.budget := by rw [noteEof_frame]
  rw [futureEvents_of_read hstate, hnext, ← same.verdictFuture_eq budget, readWith]
  obtain ⟨v, ha⟩ | ⟨cause, ha⟩ := decides <;> rw [ha] at value ⊢ <;> rw [value]
  · exact (futureEvents_of_success (inInt64_of_phaseValue value) false _ rest).symm
  · exact (futureEvents_of_failure false _ rest).symm

/-- At any other byte the read goes on, or is decided with the rest of the line to be dropped. -/
theorem read_byte_future (hs : ReaderInv r) (hstate : r.state = stRead)
    {act : Beat → ReadAction} (phase : phaseAction r = some act) {d : Byte} (hd : d ≠ 0x0A)
    {before rest : List Beat} (hbefore : unread r.eofSeen before = .byte d :: unread r.eofSeen rest) :
    futureEvents r before = futureEvents (readWith act (.byte d) r) rest := by
  have value := phaseValue_cons hs phase hd
  have undecided := not_decides_of_line_byte phase hd
  obtain ⟨hsign, hfirst, hnext⟩ := phaseAction_byte phase d
  rw [futureEvents_of_read hstate, hbefore, nextLine_cons hd, value, readWith, noteEof_byte]
  symm
  cases ha : act (.byte d) with
  | stay =>
    exact futureEvents_of_continued .stay ⟨rfl, rfl, rfl, fun _ => rfl⟩ hstate rfl rfl
      (phaseValue_of_lead (lead_of_stay phase hd ha)) rest
  | sign neg =>
    exact futureEvents_of_continued (.sign neg) ⟨rfl, rfl, rfl, fun _ => rfl⟩ hstate rfl rfl
      (phaseValue_of_sign rfl) rest
  | firstDigit m =>
    have held : (BitVec.ofNat 64 m).toNat = m := by
      have := hfirst m ha
      rw [BitVec.toNat_ofNat]
      omega
    refine futureEvents_of_continued (.firstDigit m) ⟨rfl, rfl, rfl, fun _ => rfl⟩ hstate rfl rfl
      (fun line => ?_) rest
    rw [phaseValue_of_digits rfl, valueAfter, applyAction, held]
  | nextDigit m =>
    obtain ⟨hdigits, hle⟩ := hnext m ha
    have held : (BitVec.ofNat 64 m).toNat = m := by
      have := limit_lt r.rdNeg
      rw [BitVec.toNat_ofNat]
      omega
    refine futureEvents_of_continued (.nextDigit m) ⟨rfl, rfl, rfl, fun _ => rfl⟩ hstate rfl rfl
      (fun line => ?_) rest
    rw [phaseValue_of_digits (r := applyAction (.nextDigit m) r) hdigits, valueAfter, applyAction, held]
  | succeed disc v =>
    cases disc with
    | false => exact absurd (.inl ⟨v, ha⟩) undecided
    | true =>
      have inRange : InInt64 v := inInt64_of_phaseValue (line := [d]) (by rw [value, ha]; rfl)
      exact futureEvents_of_success inRange true r rest
  | fail cause disc =>
    cases disc with
    | false => exact absurd (.inr ⟨cause, ha⟩) undecided
    | true => exact futureEvents_of_failure true r rest

end

/-! The other steps. -/

section
variable {c : Params} {r : Regs c}

/-- READ takes its beat off the input that the verdict is a function of. -/
theorem read_future (hs : ReaderInv r) (hstate : r.state = stRead) {act : Beat → ReadAction}
    (phase : phaseAction r = some act) {p : Pins} {b : Beat} {bs : List Beat}
    (takes : TakesBeat p r b bs) (rest : List Beat) :
    futureEvents r (bs ++ rest) = futureEvents (readWith act b r) rest := by
  obtain ⟨terminator, hnext⟩ | ⟨d, hd, rfl, hbefore⟩ := takes.unread_cases rest
  · exact read_terminator_future hs hstate phase terminator hnext
  · exact read_byte_future hs hstate phase hd hbefore

/-- DISCARD takes its beat off the rest of the line that nothing depends on. -/
theorem discard_future (hstate : r.state = stDiscard) {p : Pins} {b : Beat} {bs : List Beat}
    (takes : TakesBeat p r b bs) (rest : List Beat) :
    futureEvents r (bs ++ rest) = futureEvents (discardWith b r) rest := by
  obtain ⟨terminator, hnext⟩ | ⟨d, hd, rfl, hbefore⟩ := takes.unread_cases rest
  · have ended : discardWith b r = { noteEof b r with state := if r.rdOk then stAccept else stAwait } :=
      if_pos terminator
    rw [futureEvents_of_discard hstate, hnext, ended, noteEof_frame]
    cases ok : r.rdOk with
    | true => rw [futureEvents_of_accept rfl]; rfl
    | false => rw [futureEvents_of_await rfl]; rfl
  · have goesOn : ¬IsTerminator (.byte d) := by
      rintro (h | h)
      · cases h
      · exact hd (Beat.byte.inj h)
    have stays : discardWith (.byte d) r = r := if_neg goesOn
    rw [stays, futureEvents_of_discard hstate, futureEvents_of_discard hstate, hbefore, nextLine_cons hd]

theorem prompt_future (hstate : r.state = stAwait) (budget : r.budget ≠ 0)
    (lead : r.rdPhase = phLead) (rest : List Beat) :
    futureEvents r rest = ⟨.prompt, 0⟩ :: futureEvents { r with state := stRead } rest := by
  have count : r.budget.toNat = r.budget.toNat - 1 + 1 :=
    (Nat.sub_add_cancel (toNat_pos_of_ne_zero budget)).symm
  have same : SameSlot r { r with state := stRead } := ⟨rfl, rfl, rfl, fun _ => rfl⟩
  rw [futureEvents_of_await hstate, count, slotFuture, slotThen_succ, futureEvents_of_read rfl,
    phaseValue_of_lead (r := { r with state := stRead }) lead, same.verdictFuture_eq rfl]
  rfl

theorem verr_future (hstate : r.state = stVerr) (budget : r.budget ≠ 0) (failed : r.rdOk = false)
    (rest : List Beat) :
    futureEvents r rest = ⟨.verrNotice, 0⟩ :: futureEvents { r with
      budget := decrement r.budget, state := if r.rdDisc then stDiscard else stAwait } rest := by
  rw [futureEvents_of_verr hstate, verdictFuture_none, ← decrement_toNat budget]
  cases disc : r.rdDisc with
  | true =>
    rw [futureEvents_of_discard rfl]
    simp only [failed]
    rfl
  | false =>
    rw [futureEvents_of_await rfl]
    rfl

theorem acceptFirst_future (hstate : r.state = stAccept) (slot : r.slot = .first) (rest : List Beat) :
    futureEvents r rest = futureEvents { r with
      budget := BitVec.ofNat _ c.nAttempts, slot := .second, state := stAwait } rest := by
  rw [futureEvents_of_accept hstate, futureEvents_of_await rfl, budget_full_toNat]
  simp only [acceptedFuture, slotOperand, slot]
  rfl

theorem acceptSecond_future (hstate : r.state = stAccept) (slot : r.slot = .second)
    (rest : List Beat) : futureEvents r rest = futureEvents { r with state := stCompute } rest := by
  rw [futureEvents_of_accept hstate, futureEvents_of_compute rfl]
  simp only [acceptedFuture, slotOperand, slot]

theorem compute_future (hstate : r.state = stCompute) (fits : addOvf r.opA r.opB = false)
    (rest : List Beat) : futureEvents r rest = futureEvents (computeRegs r) rest := by
  have inRange := addOvf_eq_false_iff.1 fits
  rw [futureEvents_of_compute hstate, computeThen, if_pos inRange, computeRegs_of_inInt64 inRange,
    futureEvents_of_report rfl]

theorem overflow_future (hstate : r.state = stCompute) (ovf : addOvf r.opA r.opB = true)
    (rest : List Beat) :
    futureEvents r rest = ⟨.overflow, 0⟩ :: futureEvents { r with state := stReport } rest := by
  rw [futureEvents_of_compute hstate, computeThen, if_neg (addOvf_eq_true_iff.1 ovf),
    futureEvents_of_report rfl]

theorem attempt_future (hstate : r.state = stIterBegin) (nonzero : r.iter ≠ 0) (rest : List Beat) :
    futureEvents r rest = ⟨.attempt, zext64 r.iter⟩ :: futureEvents { r with
      budget := BitVec.ofNat _ c.nAttempts, slot := .first, state := stAwait } rest := by
  have count : r.iter.toNat = r.iter.toNat - 1 + 1 :=
    (Nat.sub_add_cancel (toNat_pos_of_ne_zero nonzero)).symm
  have shown : BitVec.ofNat c.wIter (r.iter.toNat - 1 + 1) = r.iter := by
    rw [← count, BitVec.ofNat_toNat, BitVec.setWidth_eq]
  rw [futureEvents_of_iterBegin hstate, count, sessionEvents_succ, shown, futureEvents_of_await rfl,
    budget_full_toNat]
  rfl

theorem iterDone_future (hstate : r.state = stIterDone) (nonzero : r.iter ≠ 0) (rest : List Beat) :
    futureEvents r rest = futureEvents { r with
      iter := decrement r.iter
      state := if decrement r.iter = 0 then stFinal else stIterBegin } rest := by
  rw [futureEvents_of_iterDone hstate, ← decrement_toNat nonzero]
  by_cases last : decrement r.iter = 0
  · rw [futureEvents_of_final (if_pos last), last]
    rfl
  · rw [futureEvents_of_iterBegin (if_neg last)]

end

/-- An edge takes what it delivers off the events to come, and what it consumes off the input. -/
theorem edge_future {s : State} {r : Regs s.cfg} {bs : List Beat} {es : List Event} (hs : Inv s)
    (edge : EdgeTo s.pins s.regs r bs es) (rest : List Beat) :
    futureEvents s.regs (bs ++ rest) = es ++ futureEvents r rest := by
  obtain ⟨-, -, reader, -⟩ := inv_iff.1 hs
  cases edge with
  | waits => rfl
  | attempt h =>
    obtain ⟨hpos, -⟩ := hs.iterRunning (by simp [h]) (by simp [h])
    exact attempt_future h (fun h0 => by simp [h0] at hpos) rest
  | exhausted h budget =>
    have none : s.regs.budget.toNat = 0 := congrArg BitVec.toNat budget
    rw [List.nil_append, futureEvents_of_await h, none, futureEvents_of_skip rfl]
    exact slotThen_zero _ _ _
  | prompt h budget =>
    obtain ⟨lead, -⟩ := hs.idle (by simp [h])
    exact prompt_future h budget lead rest
  | read h phase takes => exact read_future reader h phase takes rest
  | verr h => exact verr_future h (hs.verrBudget h) (hs.verrFailed h) rest
  | discard h takes => exact discard_future h takes rest
  | acceptFirst h slot => exact acceptFirst_future h slot rest
  | acceptSecond h slot => exact acceptSecond_future h slot rest
  | compute h fits => exact compute_future h fits rest
  | overflow h ovf => exact overflow_future h ovf rest
  | skip h =>
    rw [List.nil_append, futureEvents_of_skip h, futureEvents_of_report rfl]
    rfl
  | report h =>
    rw [List.nil_append, futureEvents_of_report h, futureEvents_of_iterDone rfl]
    rfl
  | iterDone h => exact iterDone_future h (iter_ne_zero hs h) rest
  | final h => exact futureEvents_of_final h rest

/-- What has been delivered is the front of the whole session, whatever is consumed from here on. -/
def FollowsReference (c : Params) (s : State) : Prop :=
  ∀ rest, sessionEvents c c.nIter 0 (s.taken ++ rest) = s.delivered ++ futureEvents s.regs rest

theorem edge_keeps_reference {c : Params} {s t : State} (hs : Inv s) (h : FollowsReference c s)
    (hr : s.pins.rst = false) (hstep : step s = .next t) : FollowsReference c t := by
  obtain ⟨r, bs, es, edge, rfl⟩ := edgeTo_of_step hr hstep
  intro rest
  calc sessionEvents c c.nIter 0 ((s.taken ++ bs) ++ rest)
      = s.delivered ++ futureEvents s.regs (bs ++ rest) := by rw [List.append_assoc]; exact h _
    _ = (s.delivered ++ es) ++ futureEvents r rest := by rw [edge_future hs edge, List.append_assoc]

theorem reset_followsReference {s : State} (start : SessionStarts s) (fresh : s.taken = []) :
    FollowsReference s.cfg s := by
  obtain ⟨-, hregs, hdelivered⟩ := start
  intro rest
  rw [fresh, hdelivered, hregs, futureEvents_of_iterBegin rfl, Regs.reset_iter, iter_full_toNat]
  rfl

/-- Settles O55: the reference is followed over the run, and in DONE nothing is to come. -/
theorem sessionIsAFunctionOfItsInput : Obligations.SessionIsAFunctionOfItsInput := by
  intro n s t start fresh noReset hrun hdone
  have kept := run_preserves (P := fun t => Inv t ∧ FollowsReference s.cfg t)
    (fun t u ht hr hstep => ⟨everyEdgeKeepsTheInvariant t u ht.1 hstep,
      edge_keeps_reference ht.1 ht.2 hr hstep⟩)
    n ⟨resetMeetsTheInvariant s start.1 start.2.1, reset_followsReference start fresh⟩ noReset hrun
  have whole := kept.2 []
  rwa [futureEvents_of_done hdone, List.append_nil, List.append_nil, eq_comm] at whole

end Sys2Proof.Machine

/-! One READ or DISCARD step on the beat it takes (43_token_reader.md R183 to R190): the registers after
each action and after a verdict, for the beat offered and for the sticky EOF alike. -/

namespace Sys2Proof.Machine

/-! The registers after a verdict (43_token_reader.md R188). -/

section
variable {c : Params} {r : Regs c}

/-- Verdict(ok = 1, disc, v), with `word` for enc64(v) and `eof` for eof_seen. -/
def Regs.accepted (r : Regs c) (word : Word) (disc eof : Bool) : Regs c :=
  { r with
    opA := if r.slot = .first then word else r.opA
    opB := if r.slot = .first then r.opB else word
    rdOk := true, rdDisc := disc, rdPhase := phLead, rdNeg := false, rdMag := 0
    state := if disc then stDiscard else stAccept
    eofSeen := eof }

/-- Verdict(ok = 0, disc), with `eof` for eof_seen. -/
def Regs.failed (r : Regs c) (disc eof : Bool) : Regs c :=
  { r with
    rdOk := false, rdDisc := disc, rdPhase := phLead, rdNeg := false, rdMag := 0
    state := stVerr
    eofSeen := eof }

theorem readWith_of_succeed {act : Beat → ReadAction} {b : Beat} {disc : Bool} {v : Int}
    (h : act b = .succeed disc v) (r : Regs c) :
    readWith act b r = r.accepted (enc64 v) disc (noteEof b r).eofSeen := by
  rw [readWith, h, noteEof_frame]
  cases slot : r.slot <;> simp [applyAction, closeRead, Regs.accepted, slot]

theorem readWith_of_fail {act : Beat → ReadAction} {b : Beat} {cause : FailCause} {disc : Bool}
    (h : act b = .fail cause disc) (r : Regs c) :
    readWith act b r = r.failed disc (noteEof b r).eofSeen := by
  rw [readWith, h, noteEof_frame]
  rfl

/-! DISCARD on a terminator and on any other byte (43_token_reader.md R190). -/

theorem discardWith_of_terminator {b : Beat} (h : IsTerminator b) (r : Regs c) :
    discardWith b r = { r with
      state := if r.rdOk then stAccept else stAwait, eofSeen := (noteEof b r).eofSeen } := by
  rw [discardWith, if_pos h, noteEof_frame]

theorem discardWith_of_byte {d : Byte} (h : d ≠ 0x0A) (r : Regs c) : discardWith (.byte d) r = r := by
  refine if_neg ?_
  rintro (eof | lf)
  · cases eof
  · exact h (Beat.byte.inj lf)

theorem noteEof_eofSeen {r : Regs c} (eof : r.eofSeen = false) (b : Beat) :
    (noteEof b r).eofSeen = decide (b = .eof) := by
  cases b <;> simp [eof]

end

/-! A step that gets a beat. -/

section
variable {s : State} {b : Beat} {taken : List Beat}

/-- Take with a beat makes the step's writes for it, the sticky EOF and a transfer alike
(20_memory.md R54). -/
theorem take_of_takes (h : Takes s b taken) (f : Beat → Regs s.cfg → Regs s.cfg) :
    take s f = .next { s with taken := taken, regs := f b s.regs } := by
  obtain ⟨eof, rfl, rfl⟩ | ⟨eof, offered, rfl⟩ := h
  · exact take_eq_next.2 (.inl ⟨eof, rfl⟩)
  · exact take_of_offered eof offered f

/-- eof_seen after the step is 1 exactly if the beat is EOF. -/
theorem Takes.noteEof_eofSeen (h : Takes s b taken) :
    (noteEof b s.regs).eofSeen = decide (b = .eof) := by
  obtain ⟨-, rfl, -⟩ | ⟨eof, -, -⟩ := h
  · simp
  · exact Machine.noteEof_eofSeen eof b

theorem Takes.eofSeen_of_byte {d : Byte} (h : Takes s (.byte d) taken) : s.regs.eofSeen = false := by
  obtain ⟨-, h, -⟩ | ⟨eof, -, -⟩ := h
  · cases h
  · exact eof

/-- A row of a READ phase, and READ in that phase, is a Take with the phase's action. -/
theorem exec_of_phase {i row : Instr} {p : BitVec 2} {act : Beat → ReadAction}
    (h : i = row ∨ i = .read ∧ s.regs.rdPhase = p) (own : exec row s = take s (readWith act))
    (phase : s.regs.rdPhase = p → phaseAction s.regs = some act) :
    exec i s = take s (readWith act) := by
  obtain rfl | ⟨rfl, hp⟩ := h
  · exact own
  · exact execRead_of_phaseAction (phase hp)

variable {i : Instr} {act : Beat → ReadAction}

/-- A READ step on a byte is its action. -/
theorem exec_of_byte {d : Byte} {a : ReadAction} (step : exec i s = take s (readWith act))
    (takes : Takes s (.byte d) taken) (ha : act (.byte d) = a) :
    exec i s = .next { s with taken := taken, regs := applyAction a s.regs } := by
  rw [step, take_of_takes takes, readWith, noteEof_byte, ha]

theorem exec_of_fail {cause : FailCause} {disc : Bool} (step : exec i s = take s (readWith act))
    (takes : Takes s b taken) (ha : act b = .fail cause disc) :
    exec i s = .next { s with taken := taken, regs := s.regs.failed disc (decide (b = .eof)) } := by
  rw [step, take_of_takes takes, readWith_of_fail ha, takes.noteEof_eofSeen]

theorem exec_of_succeed {v : Int} {disc : Bool} (step : exec i s = take s (readWith act))
    (takes : Takes s b taken) (ha : act b = .succeed disc v) :
    exec i s = .next
      { s with taken := taken, regs := s.regs.accepted (enc64 v) disc (decide (b = .eof)) } := by
  rw [step, take_of_takes takes, readWith_of_succeed ha, takes.noteEof_eofSeen]

end

/-! The phases' actions, by the class of the byte. -/

theorem phaseAction_of_lead {c : Params} {r : Regs c} (h : r.rdPhase = phLead) :
    phaseAction r = some leadAction := if_pos h

theorem phaseAction_of_sign {c : Params} {r : Regs c} (h : r.rdPhase = phSign) :
    phaseAction r = some signAction := by
  simp [phaseAction, h]

theorem phaseAction_of_digits {c : Params} {r : Regs c} (h : r.rdPhase = phDigits) :
    phaseAction r = some (digitsAction r.rdNeg r.rdMag) := by
  simp [phaseAction, h]

theorem signAction_of_no_digit {b : Byte} (h : classify b ∈ [.ws, .plus, .minus, .other]) :
    signAction (.byte b) = .fail .nonInteger true := by
  simp only [List.mem_cons, List.not_mem_nil, or_false] at h
  obtain h | h | h | h := h <;> simp only [signAction, h]

theorem digitsAction_of_bad_byte {b : Byte} (h : classify b ∈ [.plus, .minus, .other]) (neg : Bool)
    (mag : Word) : digitsAction neg mag (.byte b) = .fail .nonInteger true := by
  simp only [List.mem_cons, List.not_mem_nil, or_false] at h
  obtain h | h | h := h <;> simp only [digitsAction, h]

theorem digitsAction_of_within {b : Byte} {d : Nat} (h : classify b = .digit d) {neg : Bool}
    {mag : Word} (within : mag.toNat * 10 + d ≤ limit neg) :
    digitsAction neg mag (.byte b) = .nextDigit (mag.toNat * 10 + d) := by
  simp only [digitsAction, h]
  exact if_neg (Nat.not_lt.2 within)

theorem digitsAction_of_above {b : Byte} {d : Nat} (h : classify b = .digit d) {neg : Bool}
    {mag : Word} (above : limit neg < mag.toNat * 10 + d) :
    digitsAction neg mag (.byte b) = .fail .range true := by
  simp only [digitsAction, h]
  exact if_pos above

/-! The statements. -/

/-- Settles O24: LIMIT is the greatest magnitude in range, and enc64 is exact in range. -/
theorem operandValueIsExact : Obligations.OperandValueIsExact := by
  refine ⟨fun neg mag hmag => ?_, by decide, by decide⟩
  have inRange : InInt64 (value neg mag) := inInt64_signed_iff.2 hmag
  exact ⟨inRange, enc64_toInt inRange⟩

/-- Settles O19: the action of READ.LEAD on each class of byte and on EOF. -/
theorem readLeadOnEveryBeat : Obligations.ReadLeadOnEveryBeat := by
  intro i s b taken hi takes
  have step := exec_of_phase hi rfl phaseAction_of_lead
  refine ⟨?eof, ?byte⟩
  case eof => rintro rfl; exact exec_of_fail step takes rfl
  case byte =>
    rintro d rfl
    refine ⟨?ws, ?lf, ?plus, ?minus, ?digit, ?other⟩
    case ws => exact fun h => exec_of_byte step takes (a := .stay) (by simp only [leadAction, h])
    case lf => rintro rfl; exact exec_of_fail step takes rfl
    case plus => rintro rfl; exact exec_of_byte step takes rfl
    case minus => rintro rfl; exact exec_of_byte step takes rfl
    case digit =>
      exact fun m h => exec_of_byte step takes (a := .firstDigit m) (by simp only [leadAction, h])
    case other =>
      exact fun h => exec_of_fail step takes (cause := .nonInteger) (by simp only [leadAction, h])

/-- Settles O20: the action of READ.SIGN on each class of byte and on EOF. -/
theorem readSignOnEveryBeat : Obligations.ReadSignOnEveryBeat := by
  intro i s b taken hi takes
  have step := exec_of_phase hi rfl phaseAction_of_sign
  refine ⟨?eof, ?byte⟩
  case eof => rintro rfl; exact exec_of_fail step takes rfl
  case byte =>
    rintro d rfl
    refine ⟨?digit, ?lf, ?bad⟩
    case digit =>
      exact fun m h => exec_of_byte step takes (a := .firstDigit m) (by simp only [signAction, h])
    case lf => rintro rfl; exact exec_of_fail step takes rfl
    case bad => exact fun h => exec_of_fail step takes (signAction_of_no_digit h)

/-- Settles O21: the action of READ.DIGITS on each class of byte and on EOF; the operand written is
enc64 of VALUE, exact within LIMIT. -/
theorem readDigitsOnEveryBeat : Obligations.ReadDigitsOnEveryBeat := by
  intro i s b taken hi takes
  have step := exec_of_phase hi rfl phaseAction_of_digits
  refine ⟨enc64 (value s.regs.rdNeg s.regs.rdMag), ?operand, ?eof, ?byte⟩
  case operand => exact fun hmag => enc64_of_inInt64 (inInt64_signed_iff.2 hmag)
  case eof => rintro rfl; exact exec_of_succeed step takes rfl
  case byte =>
    rintro d rfl
    have fails : ∀ cause, digitsAction s.regs.rdNeg s.regs.rdMag (.byte d) = .fail cause true →
        exec i s = .next { s with taken := taken, regs := s.regs.failed true s.regs.eofSeen } := by
      intro cause ha
      rw [takes.eofSeen_of_byte]
      exact exec_of_fail step takes ha
    refine ⟨?digit, ?range, ?ws, ?lf, ?bad⟩
    case digit => exact fun m h within => exec_of_byte step takes (digitsAction_of_within h within)
    case range => exact fun m h above => fails .range (digitsAction_of_above h above)
    case ws => exact fun h => exec_of_succeed step takes (by simp only [digitsAction, h])
    case lf => rintro rfl; exact exec_of_succeed step takes rfl
    case bad => exact fun h => fails .nonInteger (digitsAction_of_bad_byte h _ _)

/-- Settles O22: the discard ends at a terminator and passes over any other byte. -/
theorem discardOnEveryBeat : Obligations.DiscardOnEveryBeat := by
  intro s b taken takes
  have step : exec .discard s = .next { s with taken := taken, regs := discardWith b s.regs } :=
    take_of_takes takes discardWith
  refine ⟨?eof, ?lf, ?byte⟩
  case eof =>
    rintro rfl
    rw [step, discardWith_of_terminator (.inl rfl), noteEof_eof]
    rfl
  case lf =>
    rintro rfl
    rw [step, discardWith_of_terminator (.inr rfl), noteEof_byte]
    rfl
  case byte =>
    rintro d rfl hd
    rw [step, discardWith_of_byte hd]

end Sys2Proof.Machine

/-! How far a read goes on its line (43_token_reader.md R188, R191, R192): the beats a read consumes up to
its verdict, what the verdict leaves of the line, and the discard of the rest. -/

namespace Sys2Proof.Machine

/-! The rest of a line that a verdict leaves. -/

/-- The beats of a line without its LF, and its terminator. -/
abbrev lineBeats (line : List Byte) (last : Beat) : List Beat := line.map Beat.byte ++ [last]

/-- What a verdict with rd_disc = `disc` leaves of a line's beats: a rest that ends like the line, or
nothing. -/
def LeftOfLine (last : Beat) (disc : Bool) (rest : List Beat) : Prop :=
  if disc then ∃ line, (0x0A : Byte) ∉ line ∧ rest = lineBeats line last else rest = []

section
variable {c : Params} (r : Regs c)

/-- A blank on the rest of the line ends the token. -/
def blankAhead (line : List Byte) : Bool :=
  if r.rdPhase = phLead then blankEndsToken line else line.any isBlank

/-- The read fails at the terminator, if it fails on the rest of the line: there is no digit before it
(43_token_reader.md R183, R184). -/
def failsAtEnd (line : List Byte) : Bool :=
  if r.rdPhase = phLead then failsAtTerminator line
  else if r.rdPhase = phSign then line.isEmpty else false

/-- rd_disc after the verdict on the rest of the line. -/
def discAhead (line : List Byte) : Bool :=
  match phaseValue r line with
  | some _ => blankAhead r line
  | none => !failsAtEnd r line

/-- The registers after a verdict: a success with its value, or a failure. -/
def Regs.decided (verdict : Option Int) (disc eof : Bool) : Regs c :=
  match verdict with
  | some v => r.accepted (enc64 v) disc eof
  | none => r.failed disc eof

variable {r}

theorem discAhead_of_some {line : List Byte} {v : Int} (h : phaseValue r line = some v) :
    discAhead r line = blankAhead r line := by
  simp only [discAhead, h]

theorem discAhead_of_none {line : List Byte} (h : phaseValue r line = none) :
    discAhead r line = !failsAtEnd r line := by
  simp only [discAhead, h]

theorem blankAhead_of_lead (h : r.rdPhase = phLead) (line : List Byte) :
    blankAhead r line = blankEndsToken line := if_pos h

theorem blankAhead_of_not_lead (h : r.rdPhase ≠ phLead) (line : List Byte) :
    blankAhead r line = line.any isBlank := if_neg h

theorem failsAtEnd_of_lead (h : r.rdPhase = phLead) (line : List Byte) :
    failsAtEnd r line = failsAtTerminator line := if_pos h

theorem failsAtEnd_of_sign (h : r.rdPhase = phSign) (line : List Byte) :
    failsAtEnd r line = line.isEmpty := by
  simp [failsAtEnd, h]

/-! One byte of the line. -/

theorem noLf_cons {b : Byte} {line : List Byte} (h : (0x0A : Byte) ∉ b :: line) :
    b ≠ 0x0A ∧ (0x0A : Byte) ∉ line :=
  ⟨fun lf => h (lf ▸ List.mem_cons_self), fun later => h (List.mem_cons_of_mem b later)⟩

theorem blankEndsToken_cons_blank {b : Byte} (h : classify b = .ws) (line : List Byte) :
    blankEndsToken (b :: line) = blankEndsToken line := by
  simp [blankEndsToken, isBlank, h]

theorem blankEndsToken_cons {b : Byte} (h : classify b ≠ .ws) (line : List Byte) :
    blankEndsToken (b :: line) = line.any isBlank := by
  simp [blankEndsToken, isBlank, h]

theorem failsAtTerminator_cons_blank {b : Byte} (h : classify b = .ws) (line : List Byte) :
    failsAtTerminator (b :: line) = failsAtTerminator line := by
  simp [failsAtTerminator, isBlank, h]

theorem failsAtTerminator_cons {b : Byte} (h : classify b ≠ .ws) (line : List Byte) :
    failsAtTerminator (b :: line) = true ↔ (b = 0x2B ∨ b = 0x2D) ∧ line = [] := by
  rw [failsAtTerminator, List.dropWhile_cons_of_neg (by simp [isBlank, h])]
  simp only [decide_eq_true_eq, List.mem_cons, List.not_mem_nil, or_false, List.cons.injEq,
    reduceCtorEq, false_or]
  tauto

theorem classify_eq_plus_iff {b : Byte} : classify b = .plus ↔ b = 0x2B :=
  classify_eq_iff.trans ClassRow.plus_iff

theorem classify_eq_minus_iff {b : Byte} : classify b = .minus ↔ b = 0x2D :=
  classify_eq_iff.trans ClassRow.minus_iff

theorem not_ws_of_sign {b : Byte} (h : b = 0x2B ∨ b = 0x2D) : classify b ≠ .ws := by
  obtain rfl | rfl := h <;> decide

theorem failsAtTerminator_cons_sign {b : Byte} (h : b = 0x2B ∨ b = 0x2D) (line : List Byte) :
    failsAtTerminator (b :: line) = line.isEmpty := by
  rw [Bool.eq_iff_iff, failsAtTerminator_cons (not_ws_of_sign h), List.isEmpty_iff]
  exact and_iff_right h

/-- In every phase a byte that is no blank belongs to the token, whose end is still ahead. -/
theorem blankAhead_cons {b : Byte} (h : classify b ≠ .ws) (line : List Byte) :
    blankAhead r (b :: line) = line.any isBlank := by
  rw [blankAhead, blankEndsToken_cons h]
  simp [isBlank, h]

/-- Behind a byte that is no blank, and no sign before the token, the terminator never fails a read. -/
theorem failsAtEnd_cons {b : Byte}
    (lead : r.rdPhase = phLead → classify b ∉ [.ws, .plus, .minus]) (line : List Byte) :
    failsAtEnd r (b :: line) = false := by
  by_cases hlead : r.rdPhase = phLead
  · have notIn := lead hlead
    simp only [List.mem_cons, List.not_mem_nil, or_false, not_or, classify_eq_plus_iff,
      classify_eq_minus_iff] at notIn
    obtain ⟨blank, plus, minus⟩ := notIn
    rw [failsAtEnd_of_lead hlead, Bool.eq_false_iff, ne_eq, failsAtTerminator_cons blank]
    exact fun ⟨isSign, _⟩ => isSign.elim plus minus
  · rw [failsAtEnd, if_neg hlead]
    split <;> rfl

/-! The reader's invariant within a read. -/

/-- A read is in progress, with its beats from the input. -/
structure Reading (r : Regs c) : Prop where
  state : r.state = stRead
  eof : r.eofSeen = false
  reader : ReaderInv r

theorem Reading.sign (h : Reading r) {neg : Bool} (clear : r.rdMag = 0) :
    Reading (applyAction (.sign neg) r) where
  state := h.state
  eof := h.eof
  reader := {
    legalPhase := by simp [applyAction]
    readerIdle := fun notRead => absurd h.state notRead
    leadClear := by simp [applyAction]
    signClear := fun _ => clear
    magBound := by simp [applyAction, clear]
    eofLead := by simp [applyAction, h.eof] }

/-- The registers after a digit that makes the magnitude `m`. -/
abbrev Regs.withDigits (r : Regs c) (m : Nat) : Regs c :=
  { r with rdPhase := phDigits, rdMag := BitVec.ofNat 64 m }

theorem withDigits_rdMag {m : Nat} (h : m ≤ limit r.rdNeg) : (r.withDigits m).rdMag.toNat = m := by
  have := limit_lt r.rdNeg
  rw [BitVec.toNat_ofNat]
  omega

theorem Reading.withDigits (h : Reading r) {m : Nat} (within : m ≤ limit r.rdNeg) :
    Reading (r.withDigits m) where
  state := h.state
  eof := h.eof
  reader := {
    legalPhase := by simp
    readerIdle := fun notRead => absurd h.state notRead
    leadClear := by simp
    signClear := by simp
    magBound := by rwa [withDigits_rdMag within]
    eofLead := by simp [h.eof] }

/-! A READ step on a byte of the line: the read goes on with the same verdict to come, or is decided with
the rest of the line to be discarded. -/

/-- The read goes on from `r` to `r'` over the byte `b`: only the reader registers are written, and the
rest of the line says what the line said. -/
structure GoesOn (r r' : Regs c) (b : Byte) : Prop where
  frame : r' = { r with rdPhase := r'.rdPhase, rdNeg := r'.rdNeg, rdMag := r'.rdMag }
  reading : Reading r'
  value : ∀ line, phaseValue r' line = phaseValue r (b :: line)
  blank : ∀ line, blankAhead r' line = blankAhead r (b :: line)
  fails : ∀ line, failsAtEnd r' line = failsAtEnd r (b :: line)

theorem GoesOn.discAhead_eq {r r' : Regs c} {b : Byte} (h : GoesOn r r' b) (line : List Byte) :
    discAhead r' line = discAhead r (b :: line) := by
  simp only [discAhead, h.value, h.blank, h.fails]

/-- A verdict overwrites what the reader registers hold. -/
theorem GoesOn.decided_eq {r r' : Regs c} {b : Byte} (h : GoesOn r r' b) (verdict : Option Int)
    (disc eof : Bool) : r'.decided verdict disc eof = r.decided verdict disc eof := by
  rw [h.frame]
  cases verdict <;> rfl

/-- What a READ step does with a byte `b` of the line by its action `a`. -/
inductive ByteStep (r : Regs c) (b : Byte) (a : ReadAction) : Prop where
  | goesOn (h : GoesOn r (applyAction a r) b)
  | decides (h : Decides true a) (disc : ∀ line, discAhead r (b :: line) = true)

section
variable {b : Byte} {act : Beat → ReadAction}

/-- A blank before the token. -/
theorem GoesOn.of_blank (h : Reading r) (lead : r.rdPhase = phLead) (hb : classify b = .ws)
    (value : ∀ line, phaseValue r (b :: line) = lineValue line) : GoesOn r r b where
  frame := rfl
  reading := h
  value line := (phaseValue_of_lead lead line).trans (value line).symm
  blank line := by rw [blankAhead_of_lead lead, blankAhead_of_lead lead, blankEndsToken_cons_blank hb]
  fails line := by rw [failsAtEnd_of_lead lead, failsAtEnd_of_lead lead, failsAtTerminator_cons_blank hb]

/-- A sign that begins the token. -/
theorem GoesOn.of_sign (h : Reading r) (lead : r.rdPhase = phLead) {neg : Bool}
    (hb : b = 0x2B ∨ b = 0x2D)
    (value : ∀ line, phaseValue r (b :: line) = signRest neg line) :
    GoesOn r (applyAction (.sign neg) r) b where
  frame := rfl
  reading := h.sign (h.reader.leadClear lead).2
  value line := (phaseValue_of_sign rfl line).trans (value line).symm
  blank line := by rw [blankAhead_cons (not_ws_of_sign hb)]; rfl
  fails line := by
    rw [failsAtEnd_of_lead lead, failsAtTerminator_cons_sign hb, failsAtEnd_of_sign rfl]

/-- A digit taken in any phase. -/
theorem GoesOn.of_digit (h : Reading r) {d m : Nat} (hb : classify b = .digit d)
    (within : m ≤ limit r.rdNeg)
    (value : ∀ line, phaseValue r (b :: line) = digitsRest r.rdNeg m line) :
    GoesOn r (r.withDigits m) b where
  frame := rfl
  reading := h.withDigits within
  value line := by rw [value, phaseValue_of_digits rfl, withDigits_rdMag within]
  blank line := by rw [blankAhead_cons (by simp [hb])]; rfl
  fails line := by rw [failsAtEnd_cons (by simp [hb])]; rfl

/-- A failing byte leaves the rest of the line. -/
theorem ByteStep.of_fail (h : Reading r) (phase : phaseAction r = some act) (hb : b ≠ 0x0A)
    {cause : FailCause} (fail : act (.byte b) = .fail cause true)
    (notEnd : ∀ line, failsAtEnd r (b :: line) = false) : ByteStep r b (act (.byte b)) :=
  .decides (.inr ⟨cause, fail⟩) fun line => by
    rw [discAhead_of_none, notEnd, Bool.not_false]
    rw [phaseValue_cons h.reader phase hb, fail, valueAfter]

/-- READ.LEAD (43_token_reader.md R183). -/
theorem lead_byteStep (h : Reading r) (lead : r.rdPhase = phLead) (hb : b ≠ 0x0A) :
    ByteStep r b (leadAction (.byte b)) := by
  have phase := phaseAction_of_lead lead
  have value := phaseValue_cons h.reader phase hb
  cases hk : classify b with
  | lf => exact absurd (classify_eq_lf_iff.1 hk) hb
  | ws =>
    have action : leadAction (.byte b) = .stay := by simp only [leadAction, hk]
    simp only [action] at value ⊢
    exact .goesOn (.of_blank h lead hk value)
  | plus =>
    have action : leadAction (.byte b) = .sign false := by simp only [leadAction, hk]
    simp only [action] at value ⊢
    exact .goesOn (.of_sign h lead (.inl (classify_eq_plus_iff.1 hk)) value)
  | minus =>
    have action : leadAction (.byte b) = .sign true := by simp only [leadAction, hk]
    simp only [action] at value ⊢
    exact .goesOn (.of_sign h lead (.inr (classify_eq_minus_iff.1 hk)) value)
  | digit d =>
    have action : leadAction (.byte b) = .firstDigit d := by simp only [leadAction, hk]
    simp only [action] at value ⊢
    exact .goesOn (.of_digit h hk ((classify_digit hk).2.trans (nine_le_limit _)) value)
  | other =>
    exact .of_fail h phase hb (cause := .nonInteger) (by simp only [leadAction, hk])
      (failsAtEnd_cons (by simp [hk]))

/-- READ.SIGN (43_token_reader.md R184). -/
theorem sign_byteStep (h : Reading r) (sign : r.rdPhase = phSign) (hb : b ≠ 0x0A) :
    ByteStep r b (signAction (.byte b)) := by
  have phase := phaseAction_of_sign sign
  have value := phaseValue_cons h.reader phase hb
  cases hk : classify b with
  | lf => exact absurd (classify_eq_lf_iff.1 hk) hb
  | digit d =>
    have action : signAction (.byte b) = .firstDigit d := by simp only [signAction, hk]
    simp only [action] at value ⊢
    exact .goesOn (.of_digit h hk ((classify_digit hk).2.trans (nine_le_limit _)) value)
  | ws | plus | minus | other =>
    exact .of_fail h phase hb (signAction_of_no_digit (by simp [hk])) (failsAtEnd_cons (by simp [sign]))

/-- READ.DIGITS (43_token_reader.md R185). -/
theorem digits_byteStep (h : Reading r) (digits : r.rdPhase = phDigits) (hb : b ≠ 0x0A) :
    ByteStep r b (digitsAction r.rdNeg r.rdMag (.byte b)) := by
  have phase := phaseAction_of_digits digits
  have value := phaseValue_cons h.reader phase hb
  have notEnd : ∀ line, failsAtEnd r (b :: line) = false := failsAtEnd_cons (by simp [digits])
  cases hk : classify b with
  | lf => exact absurd (classify_eq_lf_iff.1 hk) hb
  | digit d =>
    by_cases within : r.rdMag.toNat * 10 + d ≤ limit r.rdNeg
    · have action := digitsAction_of_within hk within
      have written : applyAction (.nextDigit (r.rdMag.toNat * 10 + d)) r =
          r.withDigits (r.rdMag.toNat * 10 + d) := by
        simp only [applyAction, Regs.withDigits, ← digits]
      simp only [action] at value ⊢
      exact .goesOn (written ▸ .of_digit h hk within value)
    · exact .of_fail h phase hb (digitsAction_of_above hk (Nat.lt_of_not_le within)) notEnd
  | ws =>
    have action : digitsAction r.rdNeg r.rdMag (.byte b) = .succeed true (signed r.rdNeg r.rdMag.toNat) := by
      simp only [digitsAction, hk, value_eq_signed]
    refine .decides (.inl ⟨_, action⟩) fun line => ?_
    rw [discAhead_of_some ((value line).trans (congrArg _ action))]
    simp [blankAhead_of_not_lead, digits, isBlank, hk]
  | plus | minus | other =>
    exact .of_fail h phase hb (digitsAction_of_bad_byte (by simp [hk]) _ _) notEnd

theorem read_byteStep (h : Reading r) (phase : phaseAction r = some act) (hb : b ≠ 0x0A) :
    ByteStep r b (act (.byte b)) := by
  obtain ⟨lead, rfl⟩ | ⟨sign, rfl⟩ | ⟨digits, rfl⟩ := phaseAction_eq_some phase
  · exact lead_byteStep h lead hb
  · exact sign_byteStep h sign hb
  · exact digits_byteStep h digits hb

/-- A step that decides leaves the registers of its verdict. -/
theorem readWith_of_decides {beat : Beat} {disc : Bool} (h : Decides disc (act beat))
    (eof : r.eofSeen = false) (line : List Byte) :
    readWith act beat r =
      r.decided (valueAfter r.rdNeg line (act beat)) disc (decide (beat = .eof)) := by
  rw [← noteEof_eofSeen eof]
  obtain ⟨v, ha⟩ | ⟨cause, ha⟩ := h
  · rw [readWith_of_succeed ha, ha]; rfl
  · rw [readWith_of_fail ha, ha]; rfl

end

/-- At the terminator nothing is left to discard. -/
theorem discAhead_nil (h : Reading r) : discAhead r [] = false := by
  obtain ⟨act, phase⟩ := phaseAction_isSome h.reader.legalPhase
  have value := (phaseValue_nil h.reader phase (.inl rfl)).1
  obtain ⟨lead, rfl⟩ | ⟨sign, rfl⟩ | ⟨digits, rfl⟩ := phaseAction_eq_some phase
  · rw [discAhead_of_none value, failsAtEnd_of_lead lead]; rfl
  · rw [discAhead_of_none value, failsAtEnd_of_sign sign]; rfl
  · rw [discAhead_of_some value, blankAhead_of_not_lead (by simp [digits])]; rfl

/-! The beats a read and a discard consume. -/

/-- A READ or DISCARD step takes the beat `b` from the input and leaves these registers. -/
inductive TakesTo (r : Regs c) (b : Beat) : Regs c → Prop where
  | read {act : Beat → ReadAction} (state : r.state = stRead) (eof : r.eofSeen = false)
      (phase : phaseAction r = some act) : TakesTo r b (readWith act b r)
  | discard (state : r.state = stDiscard) (eof : r.eofSeen = false) : TakesTo r b (discardWith b r)

/-- READ and DISCARD steps take the beats one by one and leave these registers. -/
inductive Consumes : Regs c → List Beat → Regs c → Prop where
  | nil (r : Regs c) : Consumes r [] r
  | cons {r r' r'' : Regs c} {b : Beat} {bs : List Beat} (first : TakesTo r b r')
      (rest : Consumes r' bs r'') : Consumes r (b :: bs) r''

theorem Consumes.append {r r' r'' : Regs c} {bs bs' : List Beat} (h : Consumes r bs r')
    (h' : Consumes r' bs' r'') : Consumes r (bs ++ bs') r'' := by
  induction h with
  | nil => exact h'
  | cons first _ ih => exact .cons first (ih h')

/-- A read takes its line up to the verdict on it, and leaves the rest exactly if rd_disc = 1
(43_token_reader.md R192). -/
theorem consumes_to_verdict (line : List Byte) {last : Beat} (terminator : IsTerminator last)
    (noLf : (0x0A : Byte) ∉ line) (h : Reading r) :
    ∃ first rest, lineBeats line last = first ++ rest ∧ LeftOfLine last (discAhead r line) rest ∧
      Consumes r first (r.decided (phaseValue r line) (discAhead r line)
        (!discAhead r line && decide (last = .eof))) := by
  induction line generalizing r with
  | nil =>
    obtain ⟨act, phase⟩ := phaseAction_isSome h.reader.legalPhase
    obtain ⟨value, decides⟩ := phaseValue_nil h.reader phase terminator
    rw [discAhead_nil h, value, Bool.not_false, Bool.true_and, ← readWith_of_decides decides h.eof]
    exact ⟨[last], [], rfl, rfl, .cons (.read h.state h.eof phase) (.nil _)⟩
  | cons b line ih =>
    obtain ⟨hb, noLf'⟩ := noLf_cons noLf
    obtain ⟨act, phase⟩ := phaseAction_isSome h.reader.legalPhase
    have step : TakesTo r (.byte b) (readWith act (.byte b) r) := .read h.state h.eof phase
    have after : readWith act (.byte b) r = applyAction (act (.byte b)) r := by
      rw [readWith, noteEof_byte]
    cases read_byteStep h phase hb with
    | goesOn goes =>
      obtain ⟨first, rest, split, left, consumes⟩ := ih noLf' goes.reading
      rw [goes.value, goes.discAhead_eq, goes.decided_eq] at consumes
      rw [goes.discAhead_eq] at left
      exact ⟨.byte b :: first, rest, congrArg _ split, left, .cons step (after ▸ consumes)⟩
    | decides decides disc =>
      refine ⟨[.byte b], lineBeats line last, rfl, ?left, .cons step ?rest⟩
      case left => rw [disc]; exact ⟨line, noLf', rfl⟩
      case rest =>
        rw [phaseValue_cons h.reader phase hb, disc, readWith_of_decides decides h.eof line]
        exact .nil _

/-- DISCARD takes the rest of the line, its terminator included (43_token_reader.md R190). -/
theorem consumes_discard (line : List Byte) {last : Beat} (terminator : IsTerminator last)
    (noLf : (0x0A : Byte) ∉ line) (state : r.state = stDiscard) (eof : r.eofSeen = false) :
    Consumes r (lineBeats line last) { r with
      state := if r.rdOk then stAccept else stAwait, eofSeen := decide (last = .eof) } := by
  induction line with
  | nil =>
    rw [← noteEof_eofSeen eof, ← discardWith_of_terminator terminator]
    exact .cons (.discard state eof) (.nil _)
  | cons b line ih =>
    obtain ⟨hb, noLf'⟩ := noLf_cons noLf
    have stays := discardWith_of_byte hb r
    exact .cons (.discard state eof) (stays.symm ▸ ih noLf')

/-- What a verdict leaves of the line is discarded, if anything is left. -/
theorem consumes_left {last : Beat} (terminator : IsTerminator last) {disc : Bool} {rest : List Beat}
    (left : LeftOfLine last disc rest) {ok : Bool} (verdict : r.rdOk = ok)
    (state : r.state = if disc then stDiscard else if ok then stAccept else stAwait)
    (eof : r.eofSeen = (!disc && decide (last = .eof))) :
    Consumes r rest { r with
      state := if ok then stAccept else stAwait, eofSeen := decide (last = .eof) } := by
  obtain rfl := verdict
  cases disc with
  | true =>
    obtain ⟨line, noLf, rfl⟩ := left
    exact consumes_discard line terminator noLf state eof
  | false =>
    obtain rfl : rest = [] := left
    rw [Bool.not_false, Bool.true_and] at eof
    rw [← eof]
    simp only [Bool.false_eq_true, if_false] at state
    rw [← state]
    exact .nil _

end

end Sys2Proof.Machine

/-! The edges of a read (43_token_reader.md R191): with the line's beats supplied, one edge takes one
beat, and VERR's edge takes none. -/

namespace Sys2Proof.Machine

/-! Edges and runs. -/

theorem step_of_exec {s u : State} {i : Instr} (iterations : s.cfg.nIter ≠ 0)
    (hr : s.pins.rst = false) (hi : fetch s = i) (h : exec i s = .next u) :
    step s = .next u.advance :=
  step_eq_next.2 ⟨iterations, .inr ⟨hr, u, hi ▸ h, rfl⟩⟩

theorem run_add {m n : Nat} {s t u : State} (first : Host.Core.run Sys2Proof.core m s = .next t)
    (rest : Host.Core.run Sys2Proof.core n t = .next u) :
    Host.Core.run Sys2Proof.core (m + n) s = .next u := by
  induction m generalizing s with
  | zero =>
    obtain rfl := run_zero_eq_next.1 first
    rwa [Nat.zero_add]
  | succ m ih =>
    obtain ⟨v, hstep, later⟩ := run_succ_eq_next.1 first
    rw [Nat.add_right_comm]
    exact run_succ_eq_next.2 ⟨v, hstep, ih later⟩

/-- `s.after r bs es` some edges on: the environment drives `p` at the coming edge and `ps` after it. -/
def State.later (s : State) (r : Regs s.cfg) (bs : List Beat) (es : List Event) (p : Pins)
    (ps : List Pins) : State :=
  { s.after r bs es with pins := p, script := ps }

theorem State.later_later {s : State} {r r' : Regs s.cfg} {bs bs' : List Beat} {es es' : List Event}
    {p p' : Pins} {ps ps' : List Pins} :
    (s.later r bs es p ps).later r' bs' es' p' ps' = s.later r' (bs ++ bs') (es ++ es') p' ps' := by
  simp [State.later, State.after]

theorem State.later_self (s : State) : s.later s.regs [] [] s.pins s.script = s := by
  simp [State.later, State.after]

/-- A READ or DISCARD step offered the beat takes it. -/
theorem step_of_takesTo {s : State} {b : Beat} {r : Regs s.cfg} (h : TakesTo s.regs b r)
    (iterations : s.cfg.nIter ≠ 0) (hr : s.pins.rst = false) (offered : s.pins.offered = some b) :
    step s = .next (s.later r [b] [] (s.script.headD .idle) s.script.tail) := by
  have edge {i : Instr} (hi : fetch s = i) (h : exec i s = .next ((s.withRegs r).logBeat b)) := by
    have := step_of_exec iterations hr hi h
    rwa [s.after_beat r b] at this
  cases h with
  | read state eof phase =>
    exact edge (i := .read) (congrArg decodeState state)
      ((execRead_of_phaseAction phase).trans (take_of_offered eof offered _))
  | discard state eof =>
    exact edge (i := .discard) (congrArg decodeState state) (take_of_offered eof offered _)

theorem TakesTo.wantsBeat {c : Params} {r r' : Regs c} {b : Beat} (h : TakesTo r b r') :
    wantsBeat r = true := by
  cases h with
  | read state eof _ => exact wantsBeat_eq_true.2 ⟨.inl state, eof⟩
  | discard state eof => exact wantsBeat_eq_true.2 ⟨.inr state, eof⟩

/-- VERR with the notice accepted (42_retry_fsm.md R144). -/
theorem step_of_verr {s : State} (state : s.regs.state = stVerr) (iterations : s.cfg.nIter ≠ 0)
    (hr : s.pins.rst = false) (ready : s.pins.evReady = true) :
    step s = .next (s.later { s.regs with
        budget := decrement s.regs.budget
        state := if s.regs.rdDisc then stDiscard else stAwait }
      [] [⟨.verrNotice, 0⟩] (s.script.headD .idle) s.script.tail) := by
  have sent : exec .verr s = _ := emit_of_ready ready _ _
  rw [s.after_event] at sent
  exact step_of_exec iterations hr (congrArg decodeState state) sent

/-! Environments that supply a line. -/

/-- An environment with this property offers the beats to a step that asks for one, each at its own edge
and without reset. -/
structure Supplies (E : List Beat → State → Prop) : Prop where
  now {b : Beat} {bs : List Beat} {s : State} : E (b :: bs) s → wantsBeat s.regs = true →
    s.pins.rst = false ∧ s.pins.offered = some b
  later {b : Beat} {bs : List Beat} {s t : State} : E (b :: bs) s → wantsBeat s.regs = true →
    step s = .next t → E bs t

theorem offersBeats_cons {b : Beat} {bs : List Beat} {s : State} :
    OffersBeats (b :: bs) s ↔ (s.pins.rst = false ∧ s.pins.offered = some b) ∧
      (s.script.take bs.length).map (fun p => (p.rst, p.offered)) = bs.map fun b => (false, some b) := by
  rw [OffersBeats, State.edges, List.length_cons, List.take_succ_cons, List.map_cons, List.map_cons,
    List.cons.injEq, Prod.mk.injEq]

theorem offersBeats_supplies : Supplies OffersBeats where
  now offers _ := (offersBeats_cons.1 offers).1
  later {b bs s t} offers _ hstep := by
    obtain ⟨-, later⟩ := offersBeats_cons.1 offers
    rw [OffersBeats, step_edges hstep]
    cases hscript : s.script with
    | nil =>
      obtain rfl : bs = [] := by simpa [hscript] using later.symm
      rfl
    | cons p ps => rwa [hscript] at later

theorem feeds_succ {n : Nat} {bs : List Beat} {s : State} (h : feeds (n + 1) bs s = true) :
    (s.pins.rst = false ∧ (s.pins.evReady = true ∨ presented s.regs = none) ∧
      (bs = [] ∨ s.pins.offered = bs.head?)) ∧
    ∀ t, step s = .next t → feeds n (if (inputTransfer s).isSome then bs.tail else bs) t = true := by
  rw [feeds, Bool.and_eq_true] at h
  obtain ⟨now, later⟩ := h
  refine ⟨by simpa [and_assoc] using now, fun t hstep => ?_⟩
  rwa [hstep] at later

/-- A feeding environment, with `k` edges more than beats. -/
theorem feeds_supplies (k : Nat) : Supplies fun bs s => feeds (bs.length + k) bs s = true where
  now {b bs s} h _ := by
    rw [List.length_cons, Nat.add_right_comm] at h
    obtain ⟨⟨hr, -, offered⟩, -⟩ := feeds_succ h
    exact ⟨hr, offered.resolve_left (List.cons_ne_nil b bs)⟩
  later {b bs s t} h wants hstep := by
    rw [List.length_cons, Nat.add_right_comm] at h
    obtain ⟨⟨hr, -, offered⟩, later⟩ := feeds_succ h
    have transfer : inputTransfer s = some b := by
      simp [inputTransfer, hr, wants, offered.resolve_left (List.cons_ne_nil b bs)]
    simpa [transfer] using later t hstep

/-- With the beats supplied, the run takes them one an edge. -/
theorem Consumes.run {E : List Beat → State → Prop} (supplies : Supplies E) {bs more : List Beat}
    {s : State} {r : Regs s.cfg} (h : Consumes s.regs bs r) (iterations : s.cfg.nIter ≠ 0)
    (supply : E (bs ++ more) s) :
    ∃ p ps, Host.Core.run Sys2Proof.core bs.length s = .next (s.later r bs [] p ps) ∧
      E more (s.later r bs [] p ps) := by
  induction bs generalizing s with
  | nil =>
    cases h
    exact ⟨s.pins, s.script, by rw [s.later_self]; rfl, by rwa [s.later_self]⟩
  | cons b bs ih =>
    cases h with
    | cons first rest =>
      obtain ⟨hr, offered⟩ := supplies.now supply first.wantsBeat
      have hstep := step_of_takesTo first iterations hr offered
      obtain ⟨p, ps, hrun, left⟩ := ih (s := s.later _ _ _ _ _) rest iterations
        (supplies.later supply first.wantsBeat hstep)
      rw [State.later_later] at hrun left
      exact ⟨p, ps, run_succ_eq_next.2 ⟨_, hstep, hrun⟩, left⟩

/-! What follows a verdict. -/

/-- A successful read takes its whole line, and leaves rd_disc = 1 if a blank ended the token
(43_token_reader.md R188, R190). -/
theorem consumes_line_of_value {c : Params} {r : Regs c} (h : Reading r) {line : List Byte}
    {last : Beat} (terminator : IsTerminator last) (noLf : (0x0A : Byte) ∉ line) {v : Int}
    (hv : phaseValue r line = some v) :
    Consumes r (lineBeats line last) { r.accepted (enc64 v) (blankAhead r line) (decide (last = .eof)) with
      state := stAccept } := by
  obtain ⟨first, rest, split, left, consumes⟩ := consumes_to_verdict line terminator noLf h
  rw [hv, discAhead_of_some hv] at consumes
  rw [discAhead_of_some hv] at left
  rw [split]
  exact consumes.append (consumes_left terminator left rfl rfl rfl)

/-- Behind a failed verdict VERR's edge charges the attempt, and what is left of the line is discarded
(42_retry_fsm.md R144, 43_token_reader.md R190). -/
theorem run_behind_failure {s : State} {rest : List Beat} (fed : feeds (rest.length + 1) rest s = true)
    (iterations : s.cfg.nIter ≠ 0) (state : s.regs.state = stVerr) (failed : s.regs.rdOk = false)
    {last : Beat} (terminator : IsTerminator last) (left : LeftOfLine last s.regs.rdDisc rest)
    (eof : s.regs.eofSeen = (!s.regs.rdDisc && decide (last = .eof))) :
    ∃ p ps, Host.Core.run Sys2Proof.core (rest.length + 1) s = .next (s.later { s.regs with
      budget := decrement s.regs.budget, state := stAwait, eofSeen := decide (last = .eof) }
      rest [⟨.verrNotice, 0⟩] p ps) := by
  obtain ⟨⟨hr, ready, -⟩, later⟩ := feeds_succ fed
  have present := presented_of_verr state
  have hstep := step_of_verr state iterations hr (ready.resolve_right (by simp [present]))
  have kept := later _ hstep
  rw [inputTransfer_of_not_wanted (wantsBeat_of_presented present)] at kept
  have consumes := consumes_left (r := { s.regs with
    budget := decrement s.regs.budget
    state := if s.regs.rdDisc then stDiscard else stAwait }) terminator left failed rfl eof
  obtain ⟨p, ps, hrun, -⟩ := consumes.run (s := s.later _ _ _ _ _) (more := []) (feeds_supplies 0)
    iterations (by rwa [List.append_nil])
  rw [State.later_later] at hrun
  exact ⟨p, ps, run_succ_eq_next.2 ⟨_, hstep, hrun⟩⟩

/-! A read from its start. -/

section
variable {c : Params} {r : Regs c}

theorem ReadStarts.reading (h : ReadStarts r) : Reading r := by
  obtain ⟨state, lead, neg, mag, eof⟩ := h
  exact ⟨state, eof, .of_idle ⟨lead, neg, mag⟩⟩

theorem ReadStarts.phaseValue_eq (h : ReadStarts r) (line : List Byte) :
    phaseValue r line = lineValue line := by
  obtain ⟨-, lead, -⟩ := h
  exact phaseValue_of_lead lead line

theorem ReadStarts.blankAhead_eq (h : ReadStarts r) (line : List Byte) :
    blankAhead r line = blankEndsToken line := by
  obtain ⟨-, lead, -⟩ := h
  exact blankAhead_of_lead lead line

theorem ReadStarts.discAhead_eq (h : ReadStarts r) {line : List Byte} (none : lineValue line = none) :
    discAhead r line = !failsAtTerminator line := by
  obtain ⟨-, lead, -⟩ := h
  rw [discAhead_of_none ((phaseValue_of_lead lead line).trans none), failsAtEnd_of_lead lead]

/-- A verdict leaves the reader registers as the read found them. -/
theorem ReadStarts.accepted_eq (h : ReadStarts r) (word : Word) (disc eof : Bool) :
    { r.accepted word disc eof with state := stAccept } = { r with
      state := stAccept
      opA := if r.slot = .first then word else r.opA
      opB := if r.slot = .first then r.opB else word
      rdOk := true, rdDisc := disc, eofSeen := eof } := by
  obtain ⟨-, lead, neg, mag, -⟩ := h
  simp [Regs.accepted, lead, neg, mag]

theorem ReadStarts.failed_eq (h : ReadStarts r) (disc eof : Bool) :
    r.failed disc eof = { r with state := stVerr, rdOk := false, rdDisc := disc, eofSeen := eof } := by
  obtain ⟨-, lead, neg, mag, -⟩ := h
  simp [Regs.failed, lead, neg, mag]

theorem LeftOfLine.eq_nil_iff {last : Beat} {disc : Bool} {rest : List Beat}
    (h : LeftOfLine last disc rest) : rest = [] ↔ disc = false := by
  cases disc with
  | true =>
    obtain ⟨line, -, rfl⟩ := h
    simp
  | false => exact iff_of_true h rfl

/-- A failing read takes a first part of its line, and the rest is left exactly if there is one
(43_token_reader.md R188). -/
theorem consumes_to_failure (h : ReadStarts r) {line : List Byte} {last : Beat}
    (terminator : IsTerminator last) (noLf : (0x0A : Byte) ∉ line) (none : lineValue line = none) :
    ∃ first rest, lineBeats line last = first ++ rest ∧
      LeftOfLine last (!failsAtTerminator line) rest ∧
      Consumes r first { r with
        state := stVerr, rdOk := false, rdDisc := !failsAtTerminator line
        eofSeen := failsAtTerminator line && decide (last = .eof) } := by
  obtain ⟨first, rest, split, left, consumes⟩ := consumes_to_verdict line terminator noLf h.reading
  rw [h.discAhead_eq none] at left consumes
  rw [h.phaseValue_eq, none, Bool.not_not, Regs.decided, h.failed_eq] at consumes
  exact ⟨first, rest, split, left, consumes⟩

end

theorem State.later_silent (s : State) (r : Regs s.cfg) (bs : List Beat) (p : Pins) (ps : List Pins) :
    s.later r bs [] p ps = { s with regs := r, taken := s.taken ++ bs, pins := p, script := ps } := by
  simp [State.later, State.after]

/-- Settles O45: the read takes its line up to the verdict, then DISCARD, behind a failure after VERR,
takes the rest. -/
theorem readDecidesItsLine : Obligations.ReadDecidesItsLine := by
  intro s line last iterations starts noLf hlast
  have terminator : IsTerminator last := hlast.symm
  have length : (lineBeats line last).length = line.length + 1 := by simp
  refine ⟨?succeeds, ?fails, ?charged⟩
  case succeeds =>
    intro v hv offers
    have value := (starts.phaseValue_eq line).trans hv
    have consumes := consumes_line_of_value starts.reading terminator noLf value
    rw [starts.blankAhead_eq, enc64_of_inInt64 (inInt64_of_phaseValue value), starts.accepted_eq]
      at consumes
    obtain ⟨p, ps, hrun, -⟩ := consumes.run (more := []) offersBeats_supplies iterations
      (by rwa [List.append_nil])
    rw [length, State.later_silent] at hrun
    exact ⟨_, hrun, rfl⟩
  case fails =>
    intro none offers
    obtain ⟨first, rest, split, left, consumes⟩ := consumes_to_failure starts terminator noLf none
    rw [show line.map Beat.byte ++ [last] = first ++ rest from split] at offers ⊢
    obtain ⟨p, ps, hrun, -⟩ := consumes.run offersBeats_supplies iterations offers
    rw [State.later_silent] at hrun
    have whole : first.length + rest.length = line.length + 1 := by
      rw [← List.length_append, ← split, length]
    have atEnd : rest.length = 0 ↔ failsAtTerminator line = true := by
      rw [List.length_eq_zero_iff, left.eq_nil_iff, Bool.not_eq_false']
    refine ⟨first.length, _, by omega, ?_, hrun, ?_⟩
    · rw [← atEnd]
      omega
    · rw [List.take_left]
      rfl
  case charged =>
    intro none fed
    obtain ⟨first, rest, split, left, consumes⟩ := consumes_to_failure starts terminator noLf none
    have edges : line.length + 2 = first.length + rest.length + 1 := by
      rw [← List.length_append, ← split, length]
    rw [show line.map Beat.byte ++ [last] = first ++ rest from split, edges] at fed ⊢
    obtain ⟨p, ps, toVerr, fed'⟩ := consumes.run (feeds_supplies 1) iterations (more := rest)
      (by rwa [List.length_append])
    obtain ⟨p', ps', behind⟩ := run_behind_failure fed' iterations rfl rfl terminator left
      (by simp [State.later, State.after])
    have hrun := (run_add toVerr behind).trans (congrArg Host.Outcome.next State.later_later)
    exact ⟨_, decrement s.regs.budget, hrun, decrement_toNat_of_pos, rfl⟩

end Sys2Proof.Machine

/-! Progress (60_exceptions.md R210, 42_retry_fsm.md R152): the stops are out of reach. -/

namespace Sys2Proof.Machine

/-- Settles O43: a reset edge runs no step, and at any other the invariant leaves no reserved code to
be stuck in (`step_completes`). -/
theorem reachableEdgesNeverStop : Obligations.ReachableEdgesNeverStop := by
  intro s hs
  cases hr : s.pins.rst with
  | true => exact ⟨_, step_of_rst hs.iterations hr⟩
  | false => exact step_completes hs hr

end Sys2Proof.Machine

/-! Hazards (70_reset_and_hazards.md R247, R248): what an edge without a transfer keeps, and what it
reads of the input ports. -/

namespace Sys2Proof.Machine

/-- Settles O37: the step of a state that presents an event is an Emit of it, and Emit waits. -/
theorem presentedEventIsHeld : Obligations.PresentedEventIsHeld := by
  intro s e iterations hr notReady hp
  obtain ⟨selected, r, hemit⟩ := exec_of_presented hp
  have waits : exec (fetch s) s = .next s :=
    (selected.trans hemit).trans (emit_of_not_ready notReady e r)
  exact ⟨s.advance, step_of_exec iterations hr rfl waits, hp, rfl⟩

/-! Two outcomes of one edge, on a state and on the same state with other levels at the ports. -/

/-- The outcomes are the same once the environment has moved on. -/
def SameEdge (o o' : Outcome) : Prop := onNext State.advance o = onNext State.advance o'

theorem sameEdge_refl (o : Outcome) : SameEdge o o := rfl

theorem sameEdge_next {s t : State} (h : s.advance = t.advance) : SameEdge (.next s) (.next t) :=
  congrArg Host.Outcome.next h

theorem sameEdge_ite {a : Prop} [Decidable a] {o₁ o₁' o₂ o₂' : Outcome} (h₁ : SameEdge o₁ o₁')
    (h₂ : SameEdge o₂ o₂') : SameEdge (if a then o₁ else o₂) (if a then o₁' else o₂') := by
  split
  case isTrue => exact h₁
  case isFalse => exact h₂

section
variable {s : State} {p : Pins}

/-- Emit reads ev_ready alone (20_memory.md R55). -/
theorem emit_sameEdge (ready : p.evReady = s.pins.evReady) (e : Event) (r : Regs s.cfg) :
    SameEdge (emit { s with pins := p } e r) (emit s e r) := by
  unfold emit
  rw [show ({ s with pins := p } : State).pins.evReady = s.pins.evReady from ready]
  exact sameEdge_ite (sameEdge_next rfl) (sameEdge_next rfl)

/-- Take reads the beat offered, and before the sticky EOF alone (20_memory.md R54). -/
theorem take_sameEdge (offered : s.regs.eofSeen = false → p.offered = s.pins.offered)
    (f : Beat → Regs s.cfg → Regs s.cfg) : SameEdge (take { s with pins := p } f) (take s f) := by
  unfold take
  cases eof : s.regs.eofSeen with
  | true => exact sameEdge_next rfl
  | false =>
    rw [show ({ s with pins := p } : State).pins.offered = s.pins.offered from offered eof]
    cases s.pins.offered with
    | none => exact sameEdge_next rfl
    | some b => exact sameEdge_next rfl

theorem read_sameEdge (offered : s.regs.eofSeen = false → p.offered = s.pins.offered) :
    SameEdge (execRead { s with pins := p }) (execRead s) := by
  cases phase : phaseAction s.regs with
  | none =>
    simp only [execRead, phase]
    exact sameEdge_refl _
  | some act =>
    rw [execRead_of_phaseAction phase, execRead_of_phaseAction (s := { s with pins := p }) phase]
    exact take_sameEdge offered _

theorem accept_sameEdge : SameEdge (execAccept { s with pins := p }) (execAccept s) := by
  cases slot : s.regs.slot with
  | first =>
    rw [execAccept_first slot, execAccept_first (s := { s with pins := p }) slot]
    exact sameEdge_next rfl
  | second =>
    rw [execAccept_second slot, execAccept_second (s := { s with pins := p }) slot]
    exact sameEdge_next rfl

/-- The step of every state, a reserved one too, reads ev_ready, and the beat offered where it wants
one. -/
theorem exec_fetch_sameEdge (ready : p.evReady = s.pins.evReady)
    (offered : wantsBeat s.regs = true → p.offered = s.pins.offered) :
    SameEdge (exec (fetch s) { s with pins := p }) (exec (fetch s) s) := by
  by_cases used : s.regs.state.toNat ≤ 0xB
  · have emits (e : Event) (r : Regs s.cfg) := emit_sameEdge ready e r
    exact fetch_cases (P := fun i => SameEdge (exec i { s with pins := p }) (exec i s)) used
      (iterBegin := fun _ => emits _ _)
      (await := fun _ => sameEdge_ite (sameEdge_next rfl) (emits _ _))
      (read := fun h => read_sameEdge fun eof => offered (wantsBeat_eq_true.2 ⟨.inl h, eof⟩))
      (verr := fun _ => emits _ _)
      (discard := fun h => take_sameEdge (fun eof => offered (wantsBeat_eq_true.2 ⟨.inr h, eof⟩)) _)
      (accept := fun _ => accept_sameEdge)
      (compute := fun _ => sameEdge_ite (emits _ _) (sameEdge_next rfl))
      (skip := fun _ => emits _ _)
      (report := fun _ => emits _ _)
      (iterDone := fun _ => sameEdge_next rfl)
      (final := fun _ => emits _ _)
      (done := fun _ => sameEdge_next rfl)
  · obtain ⟨low, hlow⟩ := decodeState_of_reserved used
    rw [fetch, hlow]
    exact sameEdge_refl _

/-- An edge reads of the ports rst, ev_ready, and the beat offered where one is wanted: levels that
agree in these give the same step. -/
theorem step_of_pins (rst : p.rst = s.pins.rst) (ready : p.evReady = s.pins.evReady)
    (offered : s.pins.rst = false → wantsBeat s.regs = true → p.offered = s.pins.offered) :
    step { s with pins := p } = step s := by
  by_cases hn : s.cfg.nIter = 0
  · rw [step_of_nIter_eq_zero hn, step_of_nIter_eq_zero (s := { s with pins := p }) hn]
  · cases hr : s.pins.rst with
    | true =>
      rw [step_of_rst hn hr, step_of_rst (s := { s with pins := p }) hn (rst.trans hr)]
      rfl
    | false =>
      rw [step_of_not_rst hn hr, step_of_not_rst (s := { s with pins := p }) hn (rst.trans hr)]
      exact exec_fetch_sameEdge ready (offered hr)

end

/-- Where a beat is wanted and none is transferred, none is offered (20_memory.md R52). -/
theorem not_valid_of_no_transfer {s : State} (hr : s.pins.rst = false)
    (wanted : wantsBeat s.regs = true) (h : inputTransfer s = none) : s.pins.inValid = false := by
  simpa [inputTransfer, hr, wanted, Pins.offered] using h

theorem offered_of_eof {p : Pins} (h : p.inEof = true) (data : Byte) :
    { p with inData := data }.offered = p.offered := by
  simp [Pins.offered, h]

/-- Settles O38: in_eof and in_data reach a step through the beat offered alone, which is none in the
first clause and EOF, if any, in the second. -/
theorem untransferredInputHasNoEffect : Obligations.UntransferredInputHasNoEffect := by
  refine fun s eof data => ⟨fun noTransfer => ?untransferred, fun hEof => ?eofData⟩
  case untransferred =>
    refine step_of_pins rfl rfl fun hr wanted => ?_
    have notValid := not_valid_of_no_transfer hr wanted noTransfer
    rw [offered_of_not_valid notValid]
    exact offered_of_not_valid notValid
  case eofData => exact step_of_pins rfl rfl fun _ _ => offered_of_eof hEof data

end Sys2Proof.Machine
